-- ==== Sys2Proof/Word.lean ====
section
/-! DEFINITION. The two words of the machine (`00_scope.md` R6): the byte, which is the data width, and the 16-bit address.
Byte order, zero and sign extension are in `Sys2Proof/Decode.lean` and `Sys2Proof/Machine/`, where a repair may reach them. -/

namespace Sys2Proof

/-- A datum, a register A, X, Y, SP or P, a memory location: 8 bits (R6, R20, R50). -/
abbrev Byte := BitVec 8

/-- An address, and PC: 16 bits. Its arithmetic wraps modulo 0x10000 (R6, R32, R50). -/
abbrev Addr := BitVec 16

end Sys2Proof
end

