-- ==== Sys2Proof/Syntax.lean ====
section
/-! DEFINITION. The instructions as terms: the addressing modes (R86), the operand forms, the operations (R103) and `Instr`, one
constructor for each of the 57 operations of `spec/opcode_table.json`. The table's rows of one operation differ only in their
addressing mode, which is that constructor's operand argument; `ILLEGAL`, 105 rows, carries its opcode byte. -/

namespace Sys2Proof

/-- The three instruction formats: an opcode byte and 0, 1 or 2 operand bytes (R80 to R83). -/
inductive Format where
  | f1 | f2 | f3
  deriving DecidableEq, Repr

/-- The closed enumeration of twelve addressing modes (R86). A conditional branch has mode `immediate` (R88). -/
inductive AddrMode where
  | implied | accumulator | immediate
  | zeropage | zeropageX | zeropageY
  | absolute | absoluteX | absoluteY
  | indirect | indirectX | indirectY
  deriving DecidableEq, Repr

/-- The operand of an instruction that has one, by addressing mode, with its operand bytes (R91 to R101). -/
inductive Operand where
  | acc
  | imm (v : Byte)
  | zp (a : Byte)
  | zpX (a : Byte)
  | zpY (a : Byte)
  | abs (a : Addr)
  | absX (a : Addr)
  | absY (a : Addr)
  | ind (a : Addr)
  | indX (a : Byte)
  | indY (a : Byte)
  deriving DecidableEq, Repr

/-- The addressing mode of an operand form. -/
def Operand.mode : Operand → AddrMode
  | .acc => .accumulator
  | .imm _ => .immediate
  | .zp _ => .zeropage
  | .zpX _ => .zeropageX
  | .zpY _ => .zeropageY
  | .abs _ => .absolute
  | .absX _ => .absoluteX
  | .absY _ => .absoluteY
  | .ind _ => .indirect
  | .indX _ => .indirectX
  | .indY _ => .indirectY

/-- The closed enumeration `Op`: the 56 operations of R103 and the illegal sentinel (R85). -/
inductive Op where
  | adc | and | asl | bcc | bcs | beq | bit | bmi | bne | bpl | brk | bvc | bvs | clc | cld | cli | clv | cmp | cpx | cpy
  | dec | dex | dey | eor | inc | inx | iny | jmp | jsr | lda | ldx | ldy | lsr | nop | ora | pha | php | pla | plp
  | rol | ror | rti | rts | sbc | sec | sed | sei | sta | stx | sty | tax | tay | tsx | txa | txs | tya | illegal
  deriving DecidableEq, Repr

/-- An instruction. An operation with several modes carries its `Operand`; a conditional branch its signed displacement byte
(R190); JSR, which has only the Absolute mode, its target (R200); ILLEGAL the opcode byte that names it (R221). -/
inductive Instr where
  -- loads, stores, transfers (40_load_store_transfer.md)
  | lda (o : Operand)
  | ldx (o : Operand)
  | ldy (o : Operand)
  | sta (o : Operand)
  | stx (o : Operand)
  | sty (o : Operand)
  | tax
  | tay
  | txa
  | tya
  | tsx
  | txs
  -- stack (41_stack.md)
  | pha
  | php
  | pla
  | plp
  -- arithmetic, compare, increment and decrement (42_arithmetic.md)
  | adc (o : Operand)
  | sbc (o : Operand)
  | cmp (o : Operand)
  | cpx (o : Operand)
  | cpy (o : Operand)
  | inc (o : Operand)
  | inx
  | iny
  | dec (o : Operand)
  | dex
  | dey
  -- logic, bit test, shift and rotate (43_logic_shift.md)
  | and (o : Operand)
  | ora (o : Operand)
  | eor (o : Operand)
  | bit (o : Operand)
  | asl (o : Operand)
  | lsr (o : Operand)
  | rol (o : Operand)
  | ror (o : Operand)
  -- branches, jumps, subroutines (44_control_flow.md)
  | bcc (off : Byte)
  | bcs (off : Byte)
  | beq (off : Byte)
  | bne (off : Byte)
  | bmi (off : Byte)
  | bpl (off : Byte)
  | bvc (off : Byte)
  | bvs (off : Byte)
  | jmp (o : Operand)
  | jsr (target : Addr)
  | rts
  -- flags, no operation, break, return from interrupt, illegal (45_flags_system.md)
  | clc
  | sec
  | cli
  | sei
  | cld
  | sed
  | clv
  | nop
  | brk
  | rti
  | illegal (opcode : Byte)
  deriving DecidableEq, Repr

/-- The operation of an instruction. -/
def Instr.op : Instr → Op
  | .lda _ => .lda
  | .ldx _ => .ldx
  | .ldy _ => .ldy
  | .sta _ => .sta
  | .stx _ => .stx
  | .sty _ => .sty
  | .tax => .tax
  | .tay => .tay
  | .txa => .txa
  | .tya => .tya
  | .tsx => .tsx
  | .txs => .txs
  | .pha => .pha
  | .php => .php
  | .pla => .pla
  | .plp => .plp
  | .adc _ => .adc
  | .sbc _ => .sbc
  | .cmp _ => .cmp
  | .cpx _ => .cpx
  | .cpy _ => .cpy
  | .inc _ => .inc
  | .inx => .inx
  | .iny => .iny
  | .dec _ => .dec
  | .dex => .dex
  | .dey => .dey
  | .and _ => .and
  | .ora _ => .ora
  | .eor _ => .eor
  | .bit _ => .bit
  | .asl _ => .asl
  | .lsr _ => .lsr
  | .rol _ => .rol
  | .ror _ => .ror
  | .bcc _ => .bcc
  | .bcs _ => .bcs
  | .beq _ => .beq
  | .bne _ => .bne
  | .bmi _ => .bmi
  | .bpl _ => .bpl
  | .bvc _ => .bvc
  | .bvs _ => .bvs
  | .jmp _ => .jmp
  | .jsr _ => .jsr
  | .rts => .rts
  | .clc => .clc
  | .sec => .sec
  | .cli => .cli
  | .sei => .sei
  | .cld => .cld
  | .sed => .sed
  | .clv => .clv
  | .nop => .nop
  | .brk => .brk
  | .rti => .rti
  | .illegal _ => .illegal

/-- The addressing mode of an instruction: its operand's; Immediate for a branch (R88), Absolute for JSR, else Implied. -/
def Instr.mode : Instr → AddrMode
  | .lda o | .ldx o | .ldy o | .sta o | .stx o | .sty o => o.mode
  | .adc o | .sbc o | .cmp o | .cpx o | .cpy o | .inc o | .dec o => o.mode
  | .and o | .ora o | .eor o | .bit o | .asl o | .lsr o | .rol o | .ror o | .jmp o => o.mode
  | .bcc _ | .bcs _ | .beq _ | .bne _ | .bmi _ | .bpl _ | .bvc _ | .bvs _ => .immediate
  | .jsr _ => .absolute
  | .tax | .tay | .txa | .tya | .tsx | .txs | .pha | .php | .pla | .plp => .implied
  | .inx | .iny | .dex | .dey | .rts | .clc | .sec | .cli | .sei | .cld | .sed | .clv | .nop | .brk | .rti => .implied
  | .illegal _ => .implied

end Sys2Proof
end

