-- ==== Sys2Proof/WellFormed.lean ====
section
/-! DEFINITION. Which terms are instructions of the hardware: each operation only with the modes R103 gives it, and ILLEGAL only
with one of the 105 bytes of R106. Every operand byte is legal (R107), so nothing else is checked. -/

namespace Sys2Proof

/-- The modes of ADC, AND, CMP, EOR, LDA, ORA, SBC (R103). -/
def aluModes : List AddrMode :=
  [.immediate, .zeropage, .zeropageX, .absolute, .absoluteX, .absoluteY, .indirectX, .indirectY]

/-- The modes of ASL, LSR, ROL, ROR (R103). -/
def shiftModes : List AddrMode := [.accumulator, .zeropage, .zeropageX, .absolute, .absoluteX]

/-- The modes R103 gives an operation. -/
def modesOf : Op → List AddrMode
  | .adc | .and | .cmp | .eor | .lda | .ora | .sbc => aluModes
  | .sta => [.zeropage, .zeropageX, .absolute, .absoluteX, .absoluteY, .indirectX, .indirectY]
  | .ldx => [.immediate, .zeropage, .zeropageY, .absolute, .absoluteY]
  | .ldy => [.immediate, .zeropage, .zeropageX, .absolute, .absoluteX]
  | .stx => [.zeropage, .zeropageY, .absolute]
  | .sty => [.zeropage, .zeropageX, .absolute]
  | .cpx | .cpy => [.immediate, .zeropage, .absolute]
  | .bit => [.zeropage, .absolute]
  | .inc | .dec => [.zeropage, .zeropageX, .absolute, .absoluteX]
  | .asl | .lsr | .rol | .ror => shiftModes
  | .jmp => [.absolute, .indirect]
  | .jsr => [.absolute]
  | .bcc | .bcs | .beq | .bne | .bmi | .bpl | .bvc | .bvs => [.immediate]
  | .brk | .clc | .cld | .cli | .clv | .dex | .dey | .inx | .iny | .nop | .pha | .php | .pla | .plp => [.implied]
  | .rti | .rts | .sec | .sed | .sei | .tax | .tay | .tsx | .txa | .txs | .tya | .illegal => [.implied]

/-- The illegal opcode bytes 0x00 to 0x7F (R106). -/
def illegalLow : List Nat :=
  [0x02, 0x03, 0x04, 0x07, 0x0B, 0x0C, 0x0F, 0x12, 0x13, 0x14, 0x17, 0x1A, 0x1B, 0x1C, 0x1F, 0x22, 0x23, 0x27, 0x2B] ++
  [0x2F, 0x32, 0x33, 0x34, 0x37, 0x3A, 0x3B, 0x3C, 0x3F, 0x42, 0x43, 0x44, 0x47, 0x4B, 0x4F, 0x52, 0x53, 0x54, 0x57] ++
  [0x5A, 0x5B, 0x5C, 0x5F, 0x62, 0x63, 0x64, 0x67, 0x6B, 0x6F, 0x72, 0x73, 0x74, 0x77, 0x7A, 0x7B, 0x7C, 0x7F]

/-- The illegal opcode bytes 0x80 to 0xFF (R106). -/
def illegalHigh : List Nat :=
  [0x80, 0x82, 0x83, 0x87, 0x89, 0x8B, 0x8F, 0x92, 0x93, 0x97, 0x9B, 0x9C, 0x9E, 0x9F, 0xA3, 0xA7, 0xAB, 0xAF, 0xB2] ++
  [0xB3, 0xB7, 0xBB, 0xBF, 0xC2, 0xC3, 0xC7, 0xCB, 0xCF, 0xD2, 0xD3, 0xD4, 0xD7, 0xDA, 0xDB, 0xDC, 0xDF, 0xE2, 0xE3] ++
  [0xE7, 0xEB, 0xEF, 0xF2, 0xF3, 0xF4, 0xF7, 0xFA, 0xFB, 0xFC, 0xFF]

/-- The 105 illegal opcode bytes (R106). -/
def isIllegalByte (b : Byte) : Bool := (illegalLow ++ illegalHigh).contains b.toNat

/-- The check on an instruction's mode (R103). -/
def Instr.modeOk (i : Instr) : Bool := (modesOf i.op).contains i.mode

/-- The check on ILLEGAL's byte (R106). -/
def Instr.opcodeOk : Instr → Bool
  | .illegal b => isIllegalByte b
  | .lda _ | .ldx _ | .ldy _ | .sta _ | .stx _ | .sty _ | .tax | .tay | .txa | .tya | .tsx | .txs => true
  | .pha | .php | .pla | .plp | .adc _ | .sbc _ | .cmp _ | .cpx _ | .cpy _ => true
  | .inc _ | .inx | .iny | .dec _ | .dex | .dey => true
  | .and _ | .ora _ | .eor _ | .bit _ | .asl _ | .lsr _ | .rol _ | .ror _ => true
  | .bcc _ | .bcs _ | .beq _ | .bne _ | .bmi _ | .bpl _ | .bvc _ | .bvs _ | .jmp _ | .jsr _ | .rts => true
  | .clc | .sec | .cli | .sei | .cld | .sed | .clv | .nop | .brk | .rti => true

/-- An instruction of the hardware: a row of the opcode table (R103, R106). -/
def Instr.wellFormed (i : Instr) : Bool := i.modeOk && i.opcodeOk

end Sys2Proof
end

