-- ==== Sys2Proof/Decode.lean ====
section
/-! DEFINITION. From bytes to instructions and back: the opcode table of R104 (by byte) with its companion functions (R86, R89), a
decoder total on any bytes, and the encoder, written apart from the decoder from R103 (by operation and mode). -/

namespace Sys2Proof

/-- The 16-bit value `hi:lo` (R8); in memory the low byte comes first (R55, R83; log entry 25, UNVERIFIED). -/
def pair (hi lo : Byte) : Addr := hi ++ lo

/-- Bits 7:0 of a 16-bit value. -/
def loByte (w : Addr) : Byte := w.extractLsb' 0 8

/-- Bits 15:8 of a 16-bit value. -/
def hiByte (w : Addr) : Byte := w.extractLsb' 8 8

/-! ### The opcode map, one definition for each row of R104 (log entry 8, UNVERIFIED) -/

/-- A cell of R104 that is `--`. -/
def noOp : Op × AddrMode := (.illegal, .implied)

def opcodeRow0 : List (Op × AddrMode) :=
  [(.brk, .implied), (.ora, .indirectX), noOp, noOp, noOp, (.ora, .zeropage), (.asl, .zeropage), noOp,
   (.php, .implied), (.ora, .immediate), (.asl, .accumulator), noOp, noOp, (.ora, .absolute), (.asl, .absolute), noOp]

def opcodeRow1 : List (Op × AddrMode) :=
  [(.bpl, .immediate), (.ora, .indirectY), noOp, noOp, noOp, (.ora, .zeropageX), (.asl, .zeropageX), noOp,
   (.clc, .implied), (.ora, .absoluteY), noOp, noOp, noOp, (.ora, .absoluteX), (.asl, .absoluteX), noOp]

def opcodeRow2 : List (Op × AddrMode) :=
  [(.jsr, .absolute), (.and, .indirectX), noOp, noOp, (.bit, .zeropage), (.and, .zeropage), (.rol, .zeropage), noOp,
   (.plp, .implied), (.and, .immediate), (.rol, .accumulator), noOp,
   (.bit, .absolute), (.and, .absolute), (.rol, .absolute), noOp]

def opcodeRow3 : List (Op × AddrMode) :=
  [(.bmi, .immediate), (.and, .indirectY), noOp, noOp, noOp, (.and, .zeropageX), (.rol, .zeropageX), noOp,
   (.sec, .implied), (.and, .absoluteY), noOp, noOp, noOp, (.and, .absoluteX), (.rol, .absoluteX), noOp]

def opcodeRow4 : List (Op × AddrMode) :=
  [(.rti, .implied), (.eor, .indirectX), noOp, noOp, noOp, (.eor, .zeropage), (.lsr, .zeropage), noOp,
   (.pha, .implied), (.eor, .immediate), (.lsr, .accumulator), noOp,
   (.jmp, .absolute), (.eor, .absolute), (.lsr, .absolute), noOp]

def opcodeRow5 : List (Op × AddrMode) :=
  [(.bvc, .immediate), (.eor, .indirectY), noOp, noOp, noOp, (.eor, .zeropageX), (.lsr, .zeropageX), noOp,
   (.cli, .implied), (.eor, .absoluteY), noOp, noOp, noOp, (.eor, .absoluteX), (.lsr, .absoluteX), noOp]

def opcodeRow6 : List (Op × AddrMode) :=
  [(.rts, .implied), (.adc, .indirectX), noOp, noOp, noOp, (.adc, .zeropage), (.ror, .zeropage), noOp,
   (.pla, .implied), (.adc, .immediate), (.ror, .accumulator), noOp,
   (.jmp, .indirect), (.adc, .absolute), (.ror, .absolute), noOp]

def opcodeRow7 : List (Op × AddrMode) :=
  [(.bvs, .immediate), (.adc, .indirectY), noOp, noOp, noOp, (.adc, .zeropageX), (.ror, .zeropageX), noOp,
   (.sei, .implied), (.adc, .absoluteY), noOp, noOp, noOp, (.adc, .absoluteX), (.ror, .absoluteX), noOp]

def opcodeRow8 : List (Op × AddrMode) :=
  [noOp, (.sta, .indirectX), noOp, noOp, (.sty, .zeropage), (.sta, .zeropage), (.stx, .zeropage), noOp,
   (.dey, .implied), noOp, (.txa, .implied), noOp, (.sty, .absolute), (.sta, .absolute), (.stx, .absolute), noOp]

def opcodeRow9 : List (Op × AddrMode) :=
  [(.bcc, .immediate), (.sta, .indirectY), noOp, noOp, (.sty, .zeropageX), (.sta, .zeropageX), (.stx, .zeropageY), noOp,
   (.tya, .implied), (.sta, .absoluteY), (.txs, .implied), noOp, noOp, (.sta, .absoluteX), noOp, noOp]

def opcodeRowA : List (Op × AddrMode) :=
  [(.ldy, .immediate), (.lda, .indirectX), (.ldx, .immediate), noOp,
   (.ldy, .zeropage), (.lda, .zeropage), (.ldx, .zeropage), noOp,
   (.tay, .implied), (.lda, .immediate), (.tax, .implied), noOp,
   (.ldy, .absolute), (.lda, .absolute), (.ldx, .absolute), noOp]

def opcodeRowB : List (Op × AddrMode) :=
  [(.bcs, .immediate), (.lda, .indirectY), noOp, noOp, (.ldy, .zeropageX), (.lda, .zeropageX), (.ldx, .zeropageY), noOp,
   (.clv, .implied), (.lda, .absoluteY), (.tsx, .implied), noOp,
   (.ldy, .absoluteX), (.lda, .absoluteX), (.ldx, .absoluteY), noOp]

def opcodeRowC : List (Op × AddrMode) :=
  [(.cpy, .immediate), (.cmp, .indirectX), noOp, noOp, (.cpy, .zeropage), (.cmp, .zeropage), (.dec, .zeropage), noOp,
   (.iny, .implied), (.cmp, .immediate), (.dex, .implied), noOp,
   (.cpy, .absolute), (.cmp, .absolute), (.dec, .absolute), noOp]

def opcodeRowD : List (Op × AddrMode) :=
  [(.bne, .immediate), (.cmp, .indirectY), noOp, noOp, noOp, (.cmp, .zeropageX), (.dec, .zeropageX), noOp,
   (.cld, .implied), (.cmp, .absoluteY), noOp, noOp, noOp, (.cmp, .absoluteX), (.dec, .absoluteX), noOp]

def opcodeRowE : List (Op × AddrMode) :=
  [(.cpx, .immediate), (.sbc, .indirectX), noOp, noOp, (.cpx, .zeropage), (.sbc, .zeropage), (.inc, .zeropage), noOp,
   (.inx, .implied), (.sbc, .immediate), (.nop, .implied), noOp,
   (.cpx, .absolute), (.sbc, .absolute), (.inc, .absolute), noOp]

def opcodeRowF : List (Op × AddrMode) :=
  [(.beq, .immediate), (.sbc, .indirectY), noOp, noOp, noOp, (.sbc, .zeropageX), (.inc, .zeropageX), noOp,
   (.sed, .implied), (.sbc, .absoluteY), noOp, noOp, noOp, (.sbc, .absoluteX), (.inc, .absoluteX), noOp]

/-- The opcode map by the high digit of the byte (R104). -/
def opcodeMap : List (List (Op × AddrMode)) :=
  [opcodeRow0, opcodeRow1, opcodeRow2, opcodeRow3, opcodeRow4, opcodeRow5, opcodeRow6, opcodeRow7,
   opcodeRow8, opcodeRow9, opcodeRowA, opcodeRowB, opcodeRowC, opcodeRowD, opcodeRowE, opcodeRowF]

/-- `OpcodeTable`, total on the bytes and the same in every state (R84, R85, R108). -/
def opcodeTable (b : Byte) : Op × AddrMode :=
  (opcodeMap.getD (b.toNat / 16) []).getD (b.toNat % 16) noOp

/-! ### Its companion functions -/

/-- The format of a mode (R81 to R83, R86). -/
def formatOf : AddrMode → Format
  | .implied | .accumulator => .f1
  | .immediate | .zeropage | .zeropageX | .zeropageY | .indirectX | .indirectY => .f2
  | .absolute | .absoluteX | .absoluteY | .indirect => .f3

/-- The length of a format in bytes, opcode included (R80). -/
def formatLength : Format → Nat
  | .f1 => 1
  | .f2 => 2
  | .f3 => 3

/-- `Length` (R86, R87): the length of an instruction in bytes, from its mode alone. -/
def modeLength (m : AddrMode) : Nat := formatLength (formatOf m)

/-- The length of an instruction in bytes. -/
def instrLength (i : Instr) : Nat := modeLength i.mode

/-- `IsBranchClass` (R89): the conditional branches and JSR, and not JMP. No step consults it. -/
def isBranchClass : Op → Bool
  | .bcc | .bcs | .beq | .bmi | .bne | .bpl | .bvc | .bvs | .jsr => true
  | .adc | .and | .asl | .bit | .brk | .clc | .cld | .cli | .clv | .cmp | .cpx | .cpy | .dec | .dex | .dey | .eor => false
  | .inc | .inx | .iny | .jmp | .lda | .ldx | .ldy | .lsr | .nop | .ora | .pha | .php | .pla | .plp | .rol | .ror => false
  | .rti | .rts | .sbc | .sec | .sed | .sei | .sta | .stx | .sty | .tax | .tay | .tsx | .txa | .txs | .tya | .illegal => false

/-! ### The decoder -/

/-- Why bytes hold no instruction. No byte is refused (R85): only the end of the bytes is. -/
inductive DecodeError where
  /-- There is no opcode byte. -/
  | noBytes
  /-- The opcode's format has more operand bytes than there are (R80 to R83). -/
  | truncated
  deriving DecidableEq, Repr

/-- The operand of a mode from the operand bytes (R82, R83). The table pairs no operation that takes an operand with Implied (R103),
for which `A` stands here. -/
def operandOf (m : AddrMode) (lo hi : Byte) : Operand :=
  match m with
  | .implied => .acc
  | .accumulator => .acc
  | .immediate => .imm lo
  | .zeropage => .zp lo
  | .zeropageX => .zpX lo
  | .zeropageY => .zpY lo
  | .absolute => .abs (pair hi lo)
  | .absoluteX => .absX (pair hi lo)
  | .absoluteY => .absY (pair hi lo)
  | .indirect => .ind (pair hi lo)
  | .indirectX => .indX lo
  | .indirectY => .indY lo

/-- The instruction of a table entry, with the opcode byte and the operand bytes (0 where the format has none). -/
def instrOf (e : Op × AddrMode) (opcode lo hi : Byte) : Instr :=
  match e.1 with
  | .adc => .adc (operandOf e.2 lo hi)
  | .and => .and (operandOf e.2 lo hi)
  | .asl => .asl (operandOf e.2 lo hi)
  | .bcc => .bcc lo
  | .bcs => .bcs lo
  | .beq => .beq lo
  | .bit => .bit (operandOf e.2 lo hi)
  | .bmi => .bmi lo
  | .bne => .bne lo
  | .bpl => .bpl lo
  | .brk => .brk
  | .bvc => .bvc lo
  | .bvs => .bvs lo
  | .clc => .clc
  | .cld => .cld
  | .cli => .cli
  | .clv => .clv
  | .cmp => .cmp (operandOf e.2 lo hi)
  | .cpx => .cpx (operandOf e.2 lo hi)
  | .cpy => .cpy (operandOf e.2 lo hi)
  | .dec => .dec (operandOf e.2 lo hi)
  | .dex => .dex
  | .dey => .dey
  | .eor => .eor (operandOf e.2 lo hi)
  | .inc => .inc (operandOf e.2 lo hi)
  | .inx => .inx
  | .iny => .iny
  | .jmp => .jmp (operandOf e.2 lo hi)
  | .jsr => .jsr (pair hi lo)
  | .lda => .lda (operandOf e.2 lo hi)
  | .ldx => .ldx (operandOf e.2 lo hi)
  | .ldy => .ldy (operandOf e.2 lo hi)
  | .lsr => .lsr (operandOf e.2 lo hi)
  | .nop => .nop
  | .ora => .ora (operandOf e.2 lo hi)
  | .pha => .pha
  | .php => .php
  | .pla => .pla
  | .plp => .plp
  | .rol => .rol (operandOf e.2 lo hi)
  | .ror => .ror (operandOf e.2 lo hi)
  | .rti => .rti
  | .rts => .rts
  | .sbc => .sbc (operandOf e.2 lo hi)
  | .sec => .sec
  | .sed => .sed
  | .sei => .sei
  | .sta => .sta (operandOf e.2 lo hi)
  | .stx => .stx (operandOf e.2 lo hi)
  | .sty => .sty (operandOf e.2 lo hi)
  | .tax => .tax
  | .tay => .tay
  | .tsx => .tsx
  | .txa => .txa
  | .txs => .txs
  | .tya => .tya
  | .illegal => .illegal opcode

/-- The instruction of an opcode byte and its operand bytes: what a step executes (R111). -/
def decodeBytes (opcode lo hi : Byte) : Instr := instrOf (opcodeTable opcode) opcode lo hi

/-- The format an opcode byte announces (R87). -/
def opcodeFormat (opcode : Byte) : Format := formatOf (opcodeTable opcode).2

/-- The decoder: the instruction at the head of the bytes, and the bytes after it (R80 to R87, R111). -/
def decode : List Byte → Except DecodeError (Instr × List Byte)
  | [] => .error .noBytes
  | opcode :: rest =>
    match opcodeFormat opcode, rest with
    | .f1, rest => .ok (decodeBytes opcode 0 0, rest)
    | .f2, lo :: rest => .ok (decodeBytes opcode lo 0, rest)
    | .f3, lo :: hi :: rest => .ok (decodeBytes opcode lo hi, rest)
    | .f2, [] | .f3, [] | .f3, [_] => .error .truncated

/-! ### The encoder -/

/-- The opcode byte of an operation whose modes are those of ADC, by mode: the eight columns of R103. -/
def aluOpcode (imm zp zpX abs absX absY indX indY : Nat) : AddrMode → Option Nat
  | .immediate => some imm
  | .zeropage => some zp
  | .zeropageX => some zpX
  | .absolute => some abs
  | .absoluteX => some absX
  | .absoluteY => some absY
  | .indirectX => some indX
  | .indirectY => some indY
  | .implied | .accumulator | .zeropageY | .indirect => none

/-- The opcode byte of a shift or rotate, by mode (R103). -/
def shiftOpcode (acc zp zpX abs absX : Nat) : AddrMode → Option Nat
  | .accumulator => some acc
  | .zeropage => some zp
  | .zeropageX => some zpX
  | .absolute => some abs
  | .absoluteX => some absX
  | .implied | .immediate | .zeropageY | .absoluteY | .indirect | .indirectX | .indirectY => none

/-- The opcode byte of an operation with one mode (R103). -/
def onlyOpcode (mode : AddrMode) (b : Nat) (m : AddrMode) : Option Nat := if m = mode then some b else none

/-- The cell of R103 for an operation and a mode, where it is not empty. -/
def opcodeCell : Op → AddrMode → Option Nat
  | .adc, m => aluOpcode 0x69 0x65 0x75 0x6D 0x7D 0x79 0x61 0x71 m
  | .and, m => aluOpcode 0x29 0x25 0x35 0x2D 0x3D 0x39 0x21 0x31 m
  | .asl, m => shiftOpcode 0x0A 0x06 0x16 0x0E 0x1E m
  | .bcc, m => onlyOpcode .immediate 0x90 m
  | .bcs, m => onlyOpcode .immediate 0xB0 m
  | .beq, m => onlyOpcode .immediate 0xF0 m
  | .bit, m => if m = .zeropage then some 0x24 else onlyOpcode .absolute 0x2C m
  | .bmi, m => onlyOpcode .immediate 0x30 m
  | .bne, m => onlyOpcode .immediate 0xD0 m
  | .bpl, m => onlyOpcode .immediate 0x10 m
  | .brk, m => onlyOpcode .implied 0x00 m
  | .bvc, m => onlyOpcode .immediate 0x50 m
  | .bvs, m => onlyOpcode .immediate 0x70 m
  | .clc, m => onlyOpcode .implied 0x18 m
  | .cld, m => onlyOpcode .implied 0xD8 m
  | .cli, m => onlyOpcode .implied 0x58 m
  | .clv, m => onlyOpcode .implied 0xB8 m
  | .cmp, m => aluOpcode 0xC9 0xC5 0xD5 0xCD 0xDD 0xD9 0xC1 0xD1 m
  | .cpx, m => if m = .immediate then some 0xE0 else if m = .zeropage then some 0xE4 else onlyOpcode .absolute 0xEC m
  | .cpy, m => if m = .immediate then some 0xC0 else if m = .zeropage then some 0xC4 else onlyOpcode .absolute 0xCC m
  | .dec, m =>
    if m = .zeropage then some 0xC6 else if m = .zeropageX then some 0xD6
    else if m = .absolute then some 0xCE else onlyOpcode .absoluteX 0xDE m
  | .dex, m => onlyOpcode .implied 0xCA m
  | .dey, m => onlyOpcode .implied 0x88 m
  | .eor, m => aluOpcode 0x49 0x45 0x55 0x4D 0x5D 0x59 0x41 0x51 m
  | .inc, m =>
    if m = .zeropage then some 0xE6 else if m = .zeropageX then some 0xF6
    else if m = .absolute then some 0xEE else onlyOpcode .absoluteX 0xFE m
  | .inx, m => onlyOpcode .implied 0xE8 m
  | .iny, m => onlyOpcode .implied 0xC8 m
  | .jmp, m => if m = .absolute then some 0x4C else onlyOpcode .indirect 0x6C m
  | .jsr, m => onlyOpcode .absolute 0x20 m
  | .lda, m => aluOpcode 0xA9 0xA5 0xB5 0xAD 0xBD 0xB9 0xA1 0xB1 m
  | .ldx, m =>
    if m = .immediate then some 0xA2 else if m = .zeropage then some 0xA6 else if m = .zeropageY then some 0xB6
    else if m = .absolute then some 0xAE else onlyOpcode .absoluteY 0xBE m
  | .ldy, m =>
    if m = .immediate then some 0xA0 else if m = .zeropage then some 0xA4 else if m = .zeropageX then some 0xB4
    else if m = .absolute then some 0xAC else onlyOpcode .absoluteX 0xBC m
  | .lsr, m => shiftOpcode 0x4A 0x46 0x56 0x4E 0x5E m
  | .nop, m => onlyOpcode .implied 0xEA m
  | .ora, m => aluOpcode 0x09 0x05 0x15 0x0D 0x1D 0x19 0x01 0x11 m
  | .pha, m => onlyOpcode .implied 0x48 m
  | .php, m => onlyOpcode .implied 0x08 m
  | .pla, m => onlyOpcode .implied 0x68 m
  | .plp, m => onlyOpcode .implied 0x28 m
  | .rol, m => shiftOpcode 0x2A 0x26 0x36 0x2E 0x3E m
  | .ror, m => shiftOpcode 0x6A 0x66 0x76 0x6E 0x7E m
  | .rti, m => onlyOpcode .implied 0x40 m
  | .rts, m => onlyOpcode .implied 0x60 m
  | .sbc, m => aluOpcode 0xE9 0xE5 0xF5 0xED 0xFD 0xF9 0xE1 0xF1 m
  | .sec, m => onlyOpcode .implied 0x38 m
  | .sed, m => onlyOpcode .implied 0xF8 m
  | .sei, m => onlyOpcode .implied 0x78 m
  | .sta, m => if m = .immediate then none else aluOpcode 0 0x85 0x95 0x8D 0x9D 0x99 0x81 0x91 m
  | .stx, m => if m = .zeropage then some 0x86 else if m = .zeropageY then some 0x96 else onlyOpcode .absolute 0x8E m
  | .sty, m => if m = .zeropage then some 0x84 else if m = .zeropageX then some 0x94 else onlyOpcode .absolute 0x8C m
  | .tax, m => onlyOpcode .implied 0xAA m
  | .tay, m => onlyOpcode .implied 0xA8 m
  | .tsx, m => onlyOpcode .implied 0xBA m
  | .txa, m => onlyOpcode .implied 0x8A m
  | .txs, m => onlyOpcode .implied 0x9A m
  | .tya, m => onlyOpcode .implied 0x98 m
  | .illegal, _ => none

/-- The operand bytes of an operand, low byte first (R82, R83). -/
def operandBytes : Operand → List Byte
  | .acc => []
  | .imm v => [v]
  | .zp a => [a]
  | .zpX a => [a]
  | .zpY a => [a]
  | .abs a => [loByte a, hiByte a]
  | .absX a => [loByte a, hiByte a]
  | .absY a => [loByte a, hiByte a]
  | .ind a => [loByte a, hiByte a]
  | .indX a => [a]
  | .indY a => [a]

/-- The operand bytes of an instruction. -/
def Instr.argBytes : Instr → List Byte
  | .lda o | .ldx o | .ldy o | .sta o | .stx o | .sty o => operandBytes o
  | .adc o | .sbc o | .cmp o | .cpx o | .cpy o | .inc o | .dec o => operandBytes o
  | .and o | .ora o | .eor o | .bit o | .asl o | .lsr o | .rol o | .ror o | .jmp o => operandBytes o
  | .bcc off | .bcs off | .beq off | .bne off | .bmi off | .bpl off | .bvc off | .bvs off => [off]
  | .jsr t => [loByte t, hiByte t]
  | .tax | .tay | .txa | .tya | .tsx | .txs | .pha | .php | .pla | .plp => []
  | .inx | .iny | .dex | .dey | .rts | .clc | .sec | .cli | .sei | .cld | .sed | .clv | .nop | .brk | .rti => []
  | .illegal _ => []

/-- The opcode byte of an instruction: its cell of R103, or ILLEGAL's own byte (R106). -/
def Instr.opcodeByte : Instr → Option Byte
  | .illegal b => if isIllegalByte b then some b else none
  | i => (opcodeCell i.op i.mode).map (BitVec.ofNat 8)

/-- The encoder: the bytes of a well-formed instruction at rising addresses (R80); no bytes for a term that is none. -/
def encode (i : Instr) : List Byte :=
  match i.opcodeByte with
  | some b => b :: i.argBytes
  | none => []

/-! ### The opcode table's words -/

/-- Byte `k` of an instruction whose bits are `w`: bits 8k+7:8k. -/
def wordByte (w k : Nat) : Byte := BitVec.ofNat 8 (w / 256 ^ k)

/-- The first `nbits / 8` bytes of `w`, filled with zero bytes up to the longest instruction, 3 bytes. -/
def wordBytes (nbits w : Nat) : List Byte :=
  (List.range 3).map fun k => if 8 * k < nbits then wordByte w k else 0

/-- The instruction the decoder reads from the word `w` of `nbits` bits, numbered as `spec/opcode_table.json` numbers them. -/
def decodeTableWord (nbits w : Nat) : Option Instr :=
  match decode (wordBytes nbits w) with
  | .ok (i, _) => some i
  | .error _ => none

end Sys2Proof
end

