-- ==== Sys2Proof/Config.lean ====
section
/-! DEFINITION. What the spec leaves OPEN and no program can change (`00_scope.md` R7): opaque constants without a body, so that
no proof can learn a value of theirs. The open parameters that the host may set or a run may read as data (the memory image
`MEM0`, the host's address map `ABI_MAP`) are fields of `Sys2Proof.Machine.State`. -/

namespace Sys2Proof

/-- One access on the bus, as the host sees it (`20_memory.md` R51 to R54): the byte a read returned, or the byte a write put. -/
inductive BusAccess where
  | read (a : Addr) (v : Byte)
  | write (a : Addr) (v : Byte)
  deriving DecidableEq, Repr

/-- The address of an access. -/
def BusAccess.addr : BusAccess → Addr
  | .read a _ => a
  | .write a _ => a

/-- `JMP_IND_PAGE_WRAP` (R7, R99, decision D16; log entry 1, DESIGN CHOICE): whether Indirect mode takes the high byte of its pointer from the
same page. FREE: every statement holds for both values or names one. -/
opaque Config.jmpIndPageWrap : Bool

/-- `BusRead` (R7, R52, decision D22; log entry 2, DESIGN CHOICE): the byte the host returns for a read of an address it intercepts. FREE: a
function of the history (the number of the step, and the accesses already made in it) and the address. -/
opaque Config.busRead : Nat → List BusAccess → Addr → Byte

/-- Whether a write to an intercepted address also changes the memory location (R53, entry U5; log entry 3, DESIGN CHOICE). FREE: a function of
the history and the address. -/
opaque Config.interceptedWriteLands : Nat → List BusAccess → Addr → Bool

/-- The bytes the host puts in memory during an access to an address where its map has an open action, in order (R70: "any effect the
host defines"; log entry 38, DESIGN CHOICE). FREE: a function of the history and the access. -/
opaque Config.deviceStores : Nat → List BusAccess → BusAccess → List (Addr × Byte)

/-- The exit code with which the host ends the run at a write of a byte to an address where its map has an open action, if it does
(R7, R252: what the left-over addresses do is OPEN; log entry 38, DESIGN CHOICE). FREE: a function of the history, the address and the
byte. -/
opaque Config.deviceExit : Nat → List BusAccess → Addr → Byte → Option Byte

end Sys2Proof
end

