-- ==== Sys2Proof/Machine/Constants.lean ====
section
/-! DEFINITION. The fixed numbers of the core and its platform (`00_scope.md` R6, R7): vectors, the stack page, the reset values,
the host's default addresses, and what a location nothing has written reads as. -/

namespace Sys2Proof.Machine

/-- The reset vector (R6, R270). -/
def resetVector : Addr := 0xFFFC

/-- The NMI vector (R241, R244; log entry 11, UNVERIFIED). -/
def nmiVector : Addr := 0xFFFA

/-- The vector of IRQ and BRK (R219, R242, R244; log entry 11, UNVERIFIED). -/
def irqVector : Addr := 0xFFFE

/-- The first address of the stack page, 0x0100 to 0x01FF (R6, R23). -/
def stackPage : Addr := 0x0100

/-- SP after reset (R6, R40). -/
def resetSP : Byte := 0xFD

/-- P after reset: U, B and I set (R6, R40). -/
def resetP : Byte := 0x34

/-- What a location that nothing has written reads as. DESIGN CHOICE (unsafe): `MEM0` is OPEN (R7); the spec's own vectors take 00
(`95_test_vectors.md`, conventions). Log entry 4. -/
def unlistedByte : Byte := 0x00

/-- The host's exit address by the source's default (R251). -/
def defaultExit : Addr := 0x200F

/-- The host's other intercepted addresses as the source observed them; what each does is OPEN (R250, R252). -/
def defaultIntercepts : List Addr := [0x2008, 0x2009, 0x200A, 0x200B, 0x200C, 0x200D, 0x200E]

end Sys2Proof.Machine
end

