-- ==== Sys2Proof/Machine/State.lean ====
section
/-! DEFINITION. The machine as plain data: the core's registers and latches (`10_state.md` R20), the 64 KiB of memory it reaches by
the bus (R50), what the host adds (its address map and the exit code it has seen, R250 to R253), and the model's own record of the
bus. `State.reset` is the machine right after reset (R40, R270). -/

namespace Sys2Proof.Machine

/-- Memory: the bytes of the 65536 locations (R50), of which those not listed hold `unlistedByte`. -/
abbrev Memory := List Host.Cell

/-- The canonical form: addresses strictly rising and below 0x10000, no cell equal to what an unlisted location holds. -/
def Memory.wf : Memory → Bool
  | [] => true
  | (a, v) :: rest => decide (a < 0x10000) && v != unlistedByte && rest.all (fun c => decide (a < c.1)) && Memory.wf rest

/-- What the host's print functions print (R250, R252). The text is not in the source. -/
inductive PrintFunction where
  | registerA
  | registerX
  | registerY
  | flags
  | character
  deriving DecidableEq, Repr

/-- What the host does at an address it intercepts (R7, R70, R250 to R252). -/
inductive HostAction where
  /-- A print: it has no effect on core state (R252), nor on another location (log entry 37, DESIGN CHOICE). -/
  | print (f : PrintFunction)
  /-- A write ends the run with the written byte as exit code (R251). -/
  | exit
  /-- Any other action: what it does to memory and whether a write ends the run is free (R70, R252; log entry 38, DESIGN CHOICE). -/
  | device
  deriving DecidableEq, Repr

/-- The host's address map, `ABI_MAP`, address to host action (R7, R250): the first entry of an address counts; an address with none is
plain memory. -/
abbrev HostMap := List (Addr × HostAction)

/-- The state. `a` to `irqPending` are the core's, exactly R20 and R14's row State; `mem`, `host` and `exitCode` are the host's; `bus`
and `epoch` are the model's own (log entry 20, DESIGN CHOICE). -/
structure State where
  /-- A, the accumulator (R21). -/
  a : Byte
  /-- X, an index register (R22). -/
  x : Byte
  /-- Y, an index register (R22). -/
  y : Byte
  /-- SP, the stack pointer: the location it names is 0x0100 + SP (R23). -/
  sp : Byte
  /-- P, the status register: C, Z, I, D, B, U, V, N from bit 0 (R24). -/
  p : Byte
  /-- PC: between steps, the address of the next opcode byte (R31). -/
  pc : Addr
  /-- The halt latch (R34). -/
  halted : Bool
  /-- The NMI latch (R35). -/
  nmiPending : Bool
  /-- The IRQ latch (R36). -/
  irqPending : Bool
  /-- Memory (R37, R50). -/
  mem : Memory
  /-- The host's address map (R7, R250). -/
  host : HostMap
  /-- The exit code, once the host has seen a write that ends the run (R251, R253). -/
  exitCode : Option Byte
  /-- The bus accesses of the latest step or reset, in order (R11, R54, R102; log entry 36, UNVERIFIED). -/
  bus : List BusAccess
  /-- How many steps and host events there have been: with `bus`, the history that the host's answers may depend on (R7). -/
  epoch : Nat
  deriving DecidableEq, Repr

/-- Why the machine takes no step. No instruction faults (R230); both reasons end a run (R253). -/
inductive Fault where
  /-- Raised by a step of a halted core: it has no step until reset (R232, entry U8: stuck). Safe. Log entry 7. -/
  | halted
  /-- Raised by a step after the host has seen a write that ends the run: the run is over and the host steps no more (R251, R253).
  Safe. Log entry 6. -/
  | exited (code : Byte)
  deriving DecidableEq, Repr

/-- Why an instruction has no meaning. -/
inductive Refusal where
  /-- Raised by `exec` for an instruction without a meaning yet; no arm uses it. Safe. -/
  | notModelled (mnemonic : String)
  deriving DecidableEq, Repr

/-- What a meaning answers. -/
abbrev Result := Host.Outcome State Fault Refusal

/-- The address map with the source's defaults: the exit, and the addresses whose assignment is OPEN (R250 to R252; log entry 5, DESIGN
CHOICE). -/
def HostMap.default : HostMap := (defaultExit, .exit) :: defaultIntercepts.map fun a => (a, .device)

/-- The machine right after reset with no byte of memory listed (R40, R270, R272): PC is what the reset vector holds there, read by
the two bus accesses of reset. -/
def State.reset : State where
  a := 0x00
  x := 0x00
  y := 0x00
  sp := resetSP
  p := resetP
  pc := unlistedByte ++ unlistedByte
  halted := false
  nmiPending := false
  irqPending := false
  mem := []
  host := HostMap.default
  exitCode := none
  bus := [.read resetVector unlistedByte, .read (resetVector + 1) unlistedByte]
  epoch := 0

/-! ### One field at a time -/

def State.setA (s : State) (v : Byte) : State := { s with a := v }

def State.setX (s : State) (v : Byte) : State := { s with x := v }

def State.setY (s : State) (v : Byte) : State := { s with y := v }

def State.setSP (s : State) (v : Byte) : State := { s with sp := v }

def State.setP (s : State) (v : Byte) : State := { s with p := v }

def State.setPC (s : State) (v : Addr) : State := { s with pc := v }

def State.setHalted (s : State) (v : Bool) : State := { s with halted := v }

def State.setNmi (s : State) (v : Bool) : State := { s with nmiPending := v }

def State.setIrq (s : State) (v : Bool) : State := { s with irqPending := v }

def State.setMem (s : State) (v : Memory) : State := { s with mem := v }

def State.setHost (s : State) (v : HostMap) : State := { s with host := v }

def State.setExit (s : State) (v : Option Byte) : State := { s with exitCode := v }

def State.setBus (s : State) (v : List BusAccess) : State := { s with bus := v }

def State.setEpoch (s : State) (v : Nat) : State := { s with epoch := v }

end Sys2Proof.Machine
end

