-- ==== Sys2Proof/Machine/Flags.lean ====
section
/-! DEFINITION. The status register's flags (`10_state.md` R24 to R30) and every flag computation of the arithmetic, compare, logic
and shift families (`42_arithmetic.md`, `43_logic_shift.md`), on bytes. -/

namespace Sys2Proof.Machine

/-- The eight flags (R24). -/
inductive Flag where
  | c | z | i | d | b | u | v | n
  deriving DecidableEq, Repr

/-- The bit of a flag in P (R24, decision D1; log entry 9, UNVERIFIED). -/
def flagBit : Flag → Nat
  | .c => 0
  | .z => 1
  | .i => 2
  | .d => 3
  | .b => 4
  | .u => 5
  | .v => 6
  | .n => 7

/-- The mask of a flag in P. -/
def flagMask (f : Flag) : Byte := BitVec.twoPow 8 (flagBit f)

/-- A flag of a status byte. -/
def getFlag (f : Flag) (p : Byte) : Bool := p.getLsbD (flagBit f)

/-- A status byte with one flag written, every other as it was. -/
def putFlag (f : Flag) (v : Bool) (p : Byte) : Byte := if v then p ||| flagMask f else p &&& ~~~flagMask f

/-- A flag of the status register. -/
def State.flag (s : State) (f : Flag) : Bool := getFlag f s.p

/-- The status register with one flag written. -/
def State.putFlag (s : State) (f : Flag) (v : Bool) : State := s.setP (Machine.putFlag f v s.p)

/-- `SetZN(r)` on a status byte (R30). -/
def zn (r : Byte) (p : Byte) : Byte := putFlag .n (r.getLsbD 7) (putFlag .z (decide (r = 0)) p)

/-- `SetZN(r)` (R30). -/
def State.setZN (s : State) (r : Byte) : State := s.setP (zn r s.p)

/-- B and U, set in what PHP and BRK push (R142, R219; log entry 16, UNVERIFIED). -/
def softwarePush (p : Byte) : Byte := p ||| 0x30

/-- B cleared, in what an interrupt entry pushes (R241, R242; log entry 13, UNVERIFIED). -/
def interruptPush (p : Byte) : Byte := p &&& 0xEF

/-- What an arithmetic or shift operation computes: the result byte, the carry and the overflow. -/
structure AluOut where
  r : Byte
  c : Bool
  v : Bool
  deriving DecidableEq, Repr

/-- ADC (R151, R153; log entry 22, UNVERIFIED): the exact sum, narrowed; D is not looked at (R152). -/
def adcOut (a m : Byte) (c : Bool) : AluOut :=
  let sum := a.toNat + m.toNat + c.toNat
  let r := BitVec.ofNat 8 sum
  { r := r, c := decide (sum > 0xFF), v := m.getLsbD 7 == a.getLsbD 7 && r.getLsbD 7 != a.getLsbD 7 }

/-- SBC (R151, R154; log entry 22, UNVERIFIED): the exact difference, narrowed; D is not looked at (R152). -/
def sbcOut (a m : Byte) (c : Bool) : AluOut :=
  let d : Int := (a.toNat : Int) - m.toNat - (1 - c.toNat)
  let r := BitVec.ofInt 8 d
  { r := r, c := decide (0 ≤ d), v := m.getLsbD 7 != a.getLsbD 7 && r.getLsbD 7 != a.getLsbD 7 }

/-- The status byte after ADC or SBC: C, V, Z and N (R26). -/
def aluFlags (o : AluOut) (p : Byte) : Byte := zn o.r (putFlag .v o.v (putFlag .c o.c p))

/-- The status byte after CMP, CPX or CPY of a register with `m`: C, Z and N (R155 to R157). -/
def compareFlags (reg m : Byte) (p : Byte) : Byte := zn (reg - m) (putFlag .c (decide (m.toNat ≤ reg.toNat)) p)

/-- The status byte after BIT: Z from `A & M`, N and V from `M` (R174). -/
def bitFlags (a m : Byte) (p : Byte) : Byte :=
  putFlag .v (m.getLsbD 6) (putFlag .n (m.getLsbD 7) (putFlag .z (decide (a &&& m = 0)) p))

/-- What a shift or rotate computes: the result byte and the bit shifted out. -/
structure ShiftOut where
  r : Byte
  c : Bool
  deriving DecidableEq, Repr

/-- ASL (R175). -/
def aslOut (v : Byte) (_c : Bool) : ShiftOut := { r := v <<< 1, c := v.getLsbD 7 }

/-- LSR (R176). -/
def lsrOut (v : Byte) (_c : Bool) : ShiftOut := { r := v >>> 1, c := v.getLsbD 0 }

/-- ROL (R177). -/
def rolOut (v : Byte) (c : Bool) : ShiftOut := { r := v <<< 1 ||| (if c then 0x01 else 0x00), c := v.getLsbD 7 }

/-- ROR (R178). -/
def rorOut (v : Byte) (c : Bool) : ShiftOut := { r := v >>> 1 ||| (if c then 0x80 else 0x00), c := v.getLsbD 0 }

/-- The status byte after a shift or rotate: C, Z and N (R26). -/
def shiftFlags (o : ShiftOut) (p : Byte) : Byte := zn o.r (putFlag .c o.c p)

end Sys2Proof.Machine
end

