-- ==== Sys2Proof/Machine/Ops.lean ====
section
/-! DEFINITION. The named operations of the machine: a location of memory, the bus (`20_memory.md` R50 to R57), the stack (R60 to
R62), taking an interrupt and returning from one (`60_exceptions.md` R240 to R246), and fetching an instruction (R111). -/

namespace Sys2Proof.Machine

/-! ### Memory -/

/-- The byte a location holds. -/
def Memory.peek : Memory → Nat → Byte
  | [], _ => unlistedByte
  | (b, w) :: rest, a => if a = b then w else Memory.peek rest a

/-- The memory with no cell listed for location `a`. -/
def Memory.without : Memory → Nat → Memory
  | [], _ => []
  | (b, w) :: rest, a => if a = b then Memory.without rest a else (b, w) :: Memory.without rest a

/-- The memory with the cell `(a, v)` put before the first cell of a higher location. -/
def Memory.withCell : Memory → Nat → Byte → Memory
  | [], a, v => [(a, v)]
  | (b, w) :: rest, a, v => if a < b then (a, v) :: (b, w) :: rest else (b, w) :: Memory.withCell rest a v

/-- The memory with the byte `v` at location `a`, in the canonical form: the byte that an unlisted location holds is not listed. -/
def Memory.poke (m : Memory) (a : Nat) (v : Byte) : Memory :=
  if v = unlistedByte then m.without a else (m.without a).withCell a v

/-- The memory with these bytes put at these addresses, the first first. -/
def Memory.pokeAll (m : Memory) (cells : List (Addr × Byte)) : Memory := cells.foldl (fun m c => m.poke c.1.toNat c.2) m

/-! ### The bus -/

/-- The host's action at an address, if it intercepts it (R7, R250). -/
def HostMap.actionAt : HostMap → Addr → Option HostAction
  | [], _ => none
  | (b, x) :: rest, a => if a = b then some x else HostMap.actionAt rest a

/-- Whether the host intercepts an address (R52, R53, R250). -/
def HostMap.intercepts (h : HostMap) (a : Addr) : Bool := (h.actionAt a).isSome

/-- Whether the host's action at an address is an open one (R70; log entry 38, DESIGN CHOICE). -/
def HostMap.isDevice (h : HostMap) (a : Addr) : Bool := h.actionAt a == some .device

/-- The byte a read of `a` returns now: the location's, or at an intercepted address whatever the host returns (R52). -/
def State.busByte (s : State) (a : Addr) : Byte :=
  if s.host.intercepts a then Config.busRead s.epoch s.bus a else s.mem.peek a.toNat

/-- The access put on the record of the bus. -/
def State.logged (s : State) (x : BusAccess) : State := s.setBus (s.bus ++ [x])

/-- The memory `m` after what the host does to it during the access `x`: nothing at an unintercepted address (R70) nor in a print or
an exit (log entry 37, DESIGN CHOICE), anything in an open action (log entry 38, DESIGN CHOICE). -/
def State.memAfterAction (s : State) (x : BusAccess) (m : Memory) : Memory :=
  if s.host.isDevice x.addr then m.pokeAll (Config.deviceStores s.epoch s.bus x) else m

/-- The memory after a read, which itself changes nothing (R52, R70). -/
def State.memAfterRead (s : State) (a : Addr) : Memory := s.memAfterAction (.read a (s.busByte a)) s.mem

/-- `MemRead(a, 1)` (R52). -/
def State.busRead (s : State) (a : Addr) : Byte × State :=
  (s.busByte a, (s.setMem (s.memAfterRead a)).logged (.read a (s.busByte a)))

/-- The memory after a write: at an intercepted address the location may or may not take the byte (R53; log entry 3, DESIGN CHOICE). -/
def State.memAfterWrite (s : State) (a : Addr) (v : Byte) : Memory :=
  s.memAfterAction (.write a v)
    (if s.host.intercepts a && !Config.interceptedWriteLands s.epoch s.bus a then s.mem else s.mem.poke a.toNat v)

/-- The exit code the host has seen after a write (R251, R252). -/
def State.exitAfterWrite (s : State) (a : Addr) (v : Byte) : Option Byte :=
  match s.host.actionAt a with
  | some .exit => some v
  | some .device => (Config.deviceExit s.epoch s.bus a v).or s.exitCode
  | some (.print _) => s.exitCode
  | none => s.exitCode

/-- `MemWrite(a, 1, v)` (R53, R70, R250, R251). -/
def State.busWrite (s : State) (a : Addr) (v : Byte) : State :=
  ((s.setMem (s.memAfterWrite a v)).setExit (s.exitAfterWrite a v)).logged (.write a v)

/-- `MemRead16(a)`: the low byte first, the second address modulo 0x10000 (R56). -/
def State.busRead16 (s : State) (a : Addr) : Addr × State :=
  let lo := s.busRead a
  let hi := lo.2.busRead (a + 1)
  (pair hi.1 lo.1, hi.2)

/-- The address of a zero-page location. -/
def zeroPage (z : Byte) : Addr := z.setWidth 16

/-- `MemRead16ZP(z)`: both bytes from the zero page (R57; log entry 19, UNVERIFIED). -/
def State.busRead16ZP (s : State) (z : Byte) : Addr × State :=
  let lo := s.busRead (zeroPage z)
  let hi := lo.2.busRead (zeroPage (z + 1))
  (pair hi.1 lo.1, hi.2)

/-! ### The stack -/

/-- The location the stack pointer names, always in 0x0100 to 0x01FF (R23, R62). -/
def stackAddr (sp : Byte) : Addr := stackPage + sp.setWidth 16

/-- `Push(v)`: write, then decrement (R60; log entry 12, UNVERIFIED). -/
def State.push (s : State) (v : Byte) : State := (s.busWrite (stackAddr s.sp) v).setSP (s.sp - 1)

/-- `Pull()`: increment, then read (R61; log entry 12, UNVERIFIED). -/
def State.pull (s : State) : Byte × State := (s.setSP (s.sp + 1)).busRead (stackAddr (s.sp + 1))

/-- A 16-bit value pushed, high byte first (R200, R219, R240). -/
def State.push16 (s : State) (w : Addr) : State := (s.push (hiByte w)).push (loByte w)

/-- A 16-bit value pulled, low byte first (R201, R220). -/
def State.pull16 (s : State) : Addr × State :=
  let lo := s.pull
  let hi := lo.2.pull
  (pair hi.1 lo.1, hi.2)

/-! ### Interrupt entry and return -/

/-- The one entry sequence, of NMI, IRQ and BRK (R219, R240 to R242): push the return address and a status byte, set I, go where
the vector points. -/
def State.enter (s : State) (vector ret : Addr) (status : Byte) : State :=
  let t := (((s.push16 ret).push status).putFlag .i true).busRead16 vector
  t.2.setPC t.1

/-- NMI entry (R241). -/
def State.takeNmi (s : State) : State := (s.enter nmiVector s.pc (interruptPush s.p)).setNmi false

/-- IRQ entry (R242; log entry 14, UNVERIFIED). -/
def State.takeIrq (s : State) : State := (s.enter irqVector s.pc (interruptPush s.p)).setIrq false

/-- The return from an interrupt (R220, R246): P, all eight bits (log entry 17, UNVERIFIED), then PC. -/
def State.returnFromInterrupt (s : State) : State :=
  let p := s.pull
  let w := (p.2.setP p.1).pull16
  w.2.setPC w.1

/-! ### Fetch -/

/-- The opcode byte at PC and its operand bytes, read in ascending address order (R31, R102, R111), and the instruction they are. PC
is moved past them by the instruction's meaning, which knows its length. -/
def State.fetch (s : State) : Instr × State :=
  let op := s.busRead s.pc
  match opcodeFormat op.1 with
  | .f1 => (decodeBytes op.1 0 0, op.2)
  | .f2 =>
    let lo := op.2.busRead (s.pc + 1)
    (decodeBytes op.1 lo.1 0, lo.2)
  | .f3 =>
    let lo := op.2.busRead (s.pc + 1)
    let hi := lo.2.busRead (s.pc + 2)
    (decodeBytes op.1 lo.1 hi.1, hi.2)

end Sys2Proof.Machine
end

