-- ==== Sys2Proof/Machine/Operands.lean ====
section
/-! DEFINITION. The operand forms (`30_encoding.md` R90 to R102): where each addressing mode's operand is, and the three ways an
operation uses it: it reads it, writes it, or reads and then writes it. The operand bytes are in the instruction, which the fetch has
read; PC is still at the opcode on entry and past the instruction on return. -/

namespace Sys2Proof.Machine

/-- `JMP_IND_PAGE_WRAP` (R99). -/
def jmpIndPageWrap : Bool := Config.jmpIndPageWrap

/-- Signed extension of a byte to 16 bits, `sext_16` (R9). -/
def sext16 (b : Byte) : Addr := b.signExtend 16

/-- PC past an instruction of `n` bytes, modulo 0x10000 (R31, R32). -/
def State.advance (s : State) (n : Nat) : State := s.setPC (s.pc + BitVec.ofNat 16 n)

/-- PC past an Implied instruction: one byte, no operand, no access (R90). -/
def State.implied (s : State) : State := s.advance 1

/-- PC past an instruction with this operand. -/
def State.pastOperand (s : State) (o : Operand) : State := s.advance (modeLength o.mode)

/-- The address of the high byte of Indirect mode's pointer (R99; log entry 1, DESIGN CHOICE). -/
def indirectHigh (ptr : Addr) : Addr :=
  if loByte ptr = 0xFF && jmpIndPageWrap then pair (hiByte ptr) 0x00 else ptr + 1

/-- The effective address, with the pointer bytes read (R92 to R101; log entries 19, 28, UNVERIFIED). Immediate mode's is its operand byte's own
address. Accumulator mode has none (R91), and no operation asks for it. -/
def State.effAddr (s : State) (o : Operand) : Addr × State :=
  match o with
  | .acc => (s.pc, s)
  | .imm _ => (s.pc + 1, s)
  | .zp z => (zeroPage z, s)
  | .zpX z => (zeroPage (z + s.x), s)
  | .zpY z => (zeroPage (z + s.y), s)
  | .abs w => (w, s)
  | .absX w => (w + s.x.setWidth 16, s)
  | .absY w => (w + s.y.setWidth 16, s)
  | .ind w =>
    let lo := s.busRead w
    let hi := lo.2.busRead (indirectHigh w)
    (pair hi.1 lo.1, hi.2)
  | .indX z => s.busRead16ZP (z + s.x)
  | .indY z =>
    let base := s.busRead16ZP z
    (base.1 + s.y.setWidth 16, base.2)

/-- The addressing-mode routine: the effective address, with PC moved past the instruction (R92 to R101, R111). -/
def State.locate (s : State) (o : Operand) : Addr × State := ((s.effAddr o).1, (s.effAddr o).2.pastOperand o)

/-- An operand that is read: its value `M` (R102). Immediate mode's byte has been read by the fetch (log entry 20, DESIGN CHOICE). -/
def State.readOperand (s : State) (o : Operand) : Byte × State :=
  match o with
  | .acc => (s.a, s.pastOperand o)
  | .imm v => (v, s.pastOperand o)
  | .zp _ | .zpX _ | .zpY _ | .abs _ | .absX _ | .absY _ | .ind _ | .indX _ | .indY _ =>
    (s.locate o).2.busRead (s.locate o).1

/-- An operand that is written and not read (R54, R102). -/
def State.writeOperand (s : State) (o : Operand) (v : Byte) : State :=
  match o with
  | .acc => (s.pastOperand o).setA v
  | .imm _ | .zp _ | .zpX _ | .zpY _ | .abs _ | .absX _ | .absY _ | .ind _ | .indX _ | .indY _ =>
    (s.locate o).2.busWrite (s.locate o).1 v

/-- An operand that is read once and then written once (R54, R102, R170): its old value, and the state with `f` of it stored. -/
def State.modifyOperand (s : State) (o : Operand) (f : Byte → Byte) : Byte × State :=
  match o with
  | .acc => (s.a, (s.pastOperand o).setA (f s.a))
  | .imm _ | .zp _ | .zpX _ | .zpY _ | .abs _ | .absX _ | .absY _ | .ind _ | .indX _ | .indY _ =>
    let m := (s.locate o).2.busRead (s.locate o).1
    (m.1, m.2.busWrite (s.locate o).1 (f m.1))

end Sys2Proof.Machine
end

