-- ==== Sys2Proof/Machine/Arithmetic.lean ====
section
/-! DEFINITION. The arithmetic, compare, increment and decrement instructions (`42_arithmetic.md` R150 to R163). -/

namespace Sys2Proof.Machine

/-- ADC (R153). -/
def execAdc (o : Operand) (s : State) : Result :=
  let m := s.readOperand o
  let out := adcOut s.a m.1 (s.flag .c)
  .next ((m.2.setA out.r).setP (aluFlags out s.p))

/-- SBC (R154). -/
def execSbc (o : Operand) (s : State) : Result :=
  let m := s.readOperand o
  let out := sbcOut s.a m.1 (s.flag .c)
  .next ((m.2.setA out.r).setP (aluFlags out s.p))

/-- CMP: A against `M`, for the flags only (R155). -/
def execCmp (o : Operand) (s : State) : Result :=
  let m := s.readOperand o
  .next (m.2.setP (compareFlags s.a m.1 s.p))

/-- CPX: X against `M`, for the flags only (R156). -/
def execCpx (o : Operand) (s : State) : Result :=
  let m := s.readOperand o
  .next (m.2.setP (compareFlags s.x m.1 s.p))

/-- CPY: Y against `M`, for the flags only (R157). -/
def execCpy (o : Operand) (s : State) : Result :=
  let m := s.readOperand o
  .next (m.2.setP (compareFlags s.y m.1 s.p))

/-- INC: one read and one write of the location; C and V unchanged (R158). -/
def execInc (o : Operand) (s : State) : Result :=
  let m := s.modifyOperand o (· + 1)
  .next (m.2.setZN (m.1 + 1))

/-- DEC: one read and one write of the location; C and V unchanged (R161). -/
def execDec (o : Operand) (s : State) : Result :=
  let m := s.modifyOperand o (· - 1)
  .next (m.2.setZN (m.1 - 1))

/-- INX: `X <- (X + 1) & 0xFF; SetZN(X)` (R159). -/
def execInx (s : State) : Result := .next ((s.implied.setX (s.x + 1)).setZN (s.x + 1))

/-- INY: `Y <- (Y + 1) & 0xFF; SetZN(Y)` (R160). -/
def execIny (s : State) : Result := .next ((s.implied.setY (s.y + 1)).setZN (s.y + 1))

/-- DEX: `X <- (X - 1) & 0xFF; SetZN(X)` (R162). -/
def execDex (s : State) : Result := .next ((s.implied.setX (s.x - 1)).setZN (s.x - 1))

/-- DEY: `Y <- (Y - 1) & 0xFF; SetZN(Y)` (R163). -/
def execDey (s : State) : Result := .next ((s.implied.setY (s.y - 1)).setZN (s.y - 1))

end Sys2Proof.Machine
end

