-- ==== Sys2Proof/Machine/ControlFlow.lean ====
section
/-! DEFINITION. Branches, jumps, subroutine call and return (`44_control_flow.md` R190 to R201). -/

namespace Sys2Proof.Machine

/-- The conditional branches: from the byte after the instruction, by the signed displacement if `cond` holds (R190). The
displacement byte has been read by the fetch, taken or not (log entry 20, DESIGN CHOICE). -/
def State.branch (s : State) (cond : Bool) (off : Byte) : State :=
  let t := s.advance 2
  if cond then t.setPC (t.pc + sext16 off) else t

/-- BCC: `P.C = 0` (R191). -/
def execBcc (off : Byte) (s : State) : Result := .next (s.branch (!s.flag .c) off)

/-- BCS: `P.C = 1` (R192). -/
def execBcs (off : Byte) (s : State) : Result := .next (s.branch (s.flag .c) off)

/-- BEQ: `P.Z = 1` (R193). -/
def execBeq (off : Byte) (s : State) : Result := .next (s.branch (s.flag .z) off)

/-- BNE: `P.Z = 0` (R194). -/
def execBne (off : Byte) (s : State) : Result := .next (s.branch (!s.flag .z) off)

/-- BMI: `P.N = 1` (R195). -/
def execBmi (off : Byte) (s : State) : Result := .next (s.branch (s.flag .n) off)

/-- BPL: `P.N = 0` (R196). -/
def execBpl (off : Byte) (s : State) : Result := .next (s.branch (!s.flag .n) off)

/-- BVC: `P.V = 0` (R197). -/
def execBvc (off : Byte) (s : State) : Result := .next (s.branch (!s.flag .v) off)

/-- BVS: `P.V = 1` (R198). -/
def execBvs (off : Byte) (s : State) : Result := .next (s.branch (s.flag .v) off)

/-- JMP: `PC <- ea` (R199). -/
def execJmp (o : Operand) (s : State) : Result := .next ((s.locate o).2.setPC (s.locate o).1)

/-- JSR: push the address of its own last byte, high byte first, and go to the target (R200; log entry 21, UNVERIFIED). -/
def execJsr (target : Addr) (s : State) : Result :=
  let t := s.advance 3
  .next ((t.push16 (t.pc - 1)).setPC target)

/-- RTS: pull an address, low byte first, and go to the next one (R201; log entry 21, UNVERIFIED). -/
def execRts (s : State) : Result :=
  let w := s.implied.pull16
  .next (w.2.setPC (w.1 + 1))

end Sys2Proof.Machine
end

