-- ==== Sys2Proof/Machine/LoadStore.lean ====
section
/-! DEFINITION. The load, store and transfer instructions (`40_load_store_transfer.md` R120 to R132). -/

namespace Sys2Proof.Machine

/-- LDA: `A <- M; SetZN(A)` (R121). -/
def execLda (o : Operand) (s : State) : Result :=
  let m := s.readOperand o
  .next ((m.2.setA m.1).setZN m.1)

/-- LDX: `X <- M; SetZN(X)` (R122). -/
def execLdx (o : Operand) (s : State) : Result :=
  let m := s.readOperand o
  .next ((m.2.setX m.1).setZN m.1)

/-- LDY: `Y <- M; SetZN(Y)` (R123). -/
def execLdy (o : Operand) (s : State) : Result :=
  let m := s.readOperand o
  .next ((m.2.setY m.1).setZN m.1)

/-- STA: `MemWrite(ea, 1, A)`; no read of the target, no flag (R124). -/
def execSta (o : Operand) (s : State) : Result := .next (s.writeOperand o s.a)

/-- STX: `MemWrite(ea, 1, X)`; no read of the target, no flag (R125). -/
def execStx (o : Operand) (s : State) : Result := .next (s.writeOperand o s.x)

/-- STY: `MemWrite(ea, 1, Y)`; no read of the target, no flag (R126). -/
def execSty (o : Operand) (s : State) : Result := .next (s.writeOperand o s.y)

/-- TAX: `X <- A; SetZN(X)` (R127). -/
def execTax (s : State) : Result := .next ((s.implied.setX s.a).setZN s.a)

/-- TAY: `Y <- A; SetZN(Y)` (R128). -/
def execTay (s : State) : Result := .next ((s.implied.setY s.a).setZN s.a)

/-- TXA: `A <- X; SetZN(A)` (R129). -/
def execTxa (s : State) : Result := .next ((s.implied.setA s.x).setZN s.x)

/-- TYA: `A <- Y; SetZN(A)` (R130). -/
def execTya (s : State) : Result := .next ((s.implied.setA s.y).setZN s.y)

/-- TSX: `X <- SP; SetZN(X)` (R131). -/
def execTsx (s : State) : Result := .next ((s.implied.setX s.sp).setZN s.sp)

/-- TXS: `SP <- X`, the one transfer that leaves Z and N alone (R132). -/
def execTxs (s : State) : Result := .next (s.implied.setSP s.x)

end Sys2Proof.Machine
end

