-- ==== Sys2Proof/Machine/Logic.lean ====
section
/-! DEFINITION. The logical, bit-test, shift and rotate instructions (`43_logic_shift.md` R170 to R178). -/

namespace Sys2Proof.Machine

/-- AND: bitwise and into A (R171). -/
def execAnd (o : Operand) (s : State) : Result :=
  let m := s.readOperand o
  .next ((m.2.setA (s.a &&& m.1)).setZN (s.a &&& m.1))

/-- ORA: bitwise or into A (R172). -/
def execOra (o : Operand) (s : State) : Result :=
  let m := s.readOperand o
  .next ((m.2.setA (s.a ||| m.1)).setZN (s.a ||| m.1))

/-- EOR: bitwise exclusive or into A (R173). -/
def execEor (o : Operand) (s : State) : Result :=
  let m := s.readOperand o
  .next ((m.2.setA (s.a ^^^ m.1)).setZN (s.a ^^^ m.1))

/-- BIT: the flags only (R174). -/
def execBit (o : Operand) (s : State) : Result :=
  let m := s.readOperand o
  .next (m.2.setP (bitFlags s.a m.1 s.p))

/-- The four shifts: `A` or a location, read and then written, with the flags of what came out (R170). -/
def State.shift (s : State) (o : Operand) (f : Byte → Bool → ShiftOut) : State :=
  let m := s.modifyOperand o (fun v => (f v (s.flag .c)).r)
  m.2.setP (shiftFlags (f m.1 (s.flag .c)) s.p)

/-- ASL (R175). -/
def execAsl (o : Operand) (s : State) : Result := .next (s.shift o aslOut)

/-- LSR (R176). -/
def execLsr (o : Operand) (s : State) : Result := .next (s.shift o lsrOut)

/-- ROL (R177). -/
def execRol (o : Operand) (s : State) : Result := .next (s.shift o rolOut)

/-- ROR (R178). -/
def execRor (o : Operand) (s : State) : Result := .next (s.shift o rorOut)

end Sys2Proof.Machine
end

