-- ==== Sys2Proof/Machine/Stack.lean ====
section
/-! DEFINITION. The stack instructions (`41_stack.md` R140 to R144). -/

namespace Sys2Proof.Machine

/-- PHA: `Push(A)` (R141). -/
def execPha (s : State) : Result := .next (s.implied.push s.a)

/-- PHP: `Push(P | 0x30)`; P itself unchanged (R142; log entry 16, UNVERIFIED). -/
def execPhp (s : State) : Result := .next (s.implied.push (softwarePush s.p))

/-- PLA: `A <- Pull(); SetZN(A)` (R143). -/
def execPla (s : State) : Result :=
  let m := s.implied.pull
  .next ((m.2.setA m.1).setZN m.1)

/-- PLP: `P <- Pull()`, all eight bits (R144; log entry 17, UNVERIFIED). -/
def execPlp (s : State) : Result :=
  let m := s.implied.pull
  .next (m.2.setP m.1)

end Sys2Proof.Machine
end

