-- ==== Sys2Proof/Machine/System.lean ====
section
/-! DEFINITION. The flag instructions, NOP, BRK, RTI and the illegal sentinel (`45_flags_system.md` R210 to R221). -/

namespace Sys2Proof.Machine

/-- CLC: `P.C <- 0` (R211). -/
def execClc (s : State) : Result := .next (s.implied.putFlag .c false)

/-- SEC: `P.C <- 1` (R212). -/
def execSec (s : State) : Result := .next (s.implied.putFlag .c true)

/-- CLI: `P.I <- 0` (R213). -/
def execCli (s : State) : Result := .next (s.implied.putFlag .i false)

/-- SEI: `P.I <- 1` (R214). -/
def execSei (s : State) : Result := .next (s.implied.putFlag .i true)

/-- CLD: `P.D <- 0` (R215). -/
def execCld (s : State) : Result := .next (s.implied.putFlag .d false)

/-- SED: `P.D <- 1` (R216). -/
def execSed (s : State) : Result := .next (s.implied.putFlag .d true)

/-- CLV: `P.V <- 0` (R217). -/
def execClv (s : State) : Result := .next (s.implied.putFlag .v false)

/-- NOP (R218). -/
def execNop (s : State) : Result := .next s.implied

/-- BRK: the entry sequence through the IRQ vector, with the return address two past the opcode and B and U set in the pushed
status (R219; log entry 18, UNVERIFIED). -/
def execBrk (s : State) : Result :=
  let t := s.implied
  .next (t.enter irqVector (t.pc + 1) (softwarePush s.p))

/-- RTI: P, all eight bits, and PC, to which nothing is added (R220). -/
def execRti (s : State) : Result := .next s.implied.returnFromInterrupt

/-- ILLEGAL: `halted <- 1` and nothing else; PC is past the opcode byte (R221, R231; log entry 10, UNVERIFIED). -/
def execIllegal (_opcode : Byte) (s : State) : Result := .next (s.implied.setHalted true)

end Sys2Proof.Machine
end

