-- ==== Sys2Proof/Machine/Cycle.lean ====
section
/-! DEFINITION. The step of the core (`60_exceptions.md` R239, R240), the end of a run (R232, R253), the events by which the host acts
on the core between steps (R236, R237, R263, R270, R274), and how an instruction is placed for the next fetch. -/

namespace Sys2Proof.Machine

/-- A new step or event: its record of the bus is empty (log entry 20, DESIGN CHOICE). -/
def State.newEpoch (s : State) : State := (s.setBus []).setEpoch (s.epoch + 1)

/-- Whether a latched IRQ is taken by this step, if no NMI is: I is sampled here and nowhere else (R238, R245; log entry 26, UNVERIFIED). -/
def State.irqTakeable (s : State) : Bool := s.irqPending && !s.flag .i

/-- The instruction step: fetch, decode, execute (R111, R240). -/
def State.instruction (s : State) : Result := exec s.fetch.1 s.fetch.2

/-- `Step()` (R239, R240): a latched NMI, else a latched unmasked IRQ, else one instruction. -/
def State.coreStep (s : State) : Result :=
  let t := s.newEpoch
  if t.nmiPending then .next t.takeNmi
  else if t.irqTakeable then .next t.takeIrq
  else t.instruction

/-- A step of a run: none of a halted core (R232; log entry 7, DESIGN CHOICE), none after the host has seen the exit (R251, R253; log entry 6, DESIGN CHOICE). -/
def State.runStep (s : State) : Result :=
  if s.halted then .fault .halted
  else match s.exitCode with
    | some code => .fault (.exited code)
    | none => s.coreStep

/-! ### The host's events, between steps (log entries 15, 24, DESIGN CHOICE/UNVERIFIED) -/

/-- RaiseNMI (R236). -/
def State.raiseNmi (s : State) : State := s.setNmi true

/-- RaiseIRQ (R237). -/
def State.raiseIrq (s : State) : State := s.setIrq true

/-- The reset event (R40, R270, R271; log entry 29, UNVERIFIED): a new run begins, so no exit has been seen (R253). -/
def State.resetEvent (s : State) : State :=
  let t := s.newEpoch.busRead16 resetVector
  let u := (((t.2.setA 0x00).setX 0x00).setY 0x00).setSP resetSP
  ((((u.setP resetP).setHalted false).setNmi false).setIrq false).setExit none |>.setPC t.1

/-- What the host may do between two steps (R274): reset, raise a request, change a byte of memory, configure its address map. -/
inductive HostEvent where
  | reset
  | raiseNmi
  | raiseIrq
  | store (a : Addr) (v : Byte)
  | configure (h : HostMap)
  deriving DecidableEq, Repr

/-- The effect of a host event. -/
def State.onEvent (s : State) : HostEvent → State
  | .reset => s.resetEvent
  | .raiseNmi => s.raiseNmi
  | .raiseIrq => s.raiseIrq
  | .store a v => s.setMem (s.mem.poke a.toNat v)
  | .configure h => s.setHost h

/-- The effect of host events, the first first. -/
def State.onEvents (s : State) (es : List HostEvent) : State := es.foldl State.onEvent s

/-- A run under a schedule (entry U11): before each step, the events the host raises there. It ends where a step stops. -/
def State.runWith : List (List HostEvent) → State → Result
  | [], s => .next s
  | es :: rest, s =>
    match (s.onEvents es).runStep with
    | .next t => State.runWith rest t
    | .fault r => .fault r
    | .refused r => .refused r

/-! ### Placing an instruction -/

/-- The bytes placed in memory from an address on, modulo 0x10000. -/
def State.placeBytes (s : State) : Addr → List Byte → State
  | _, [] => s
  | a, b :: bs => (s.setMem (s.mem.poke a.toNat b)).placeBytes (a + 1) bs

/-- The host map without interception at the three addresses from `a` on. -/
def HostMap.clearAt (h : HostMap) (a : Addr) : HostMap :=
  let here (b : Addr) : Bool := b = a || b = a + 1 || b = a + 2
  h.filter fun e => !here e.1

/-- The state whose very next step fetches and runs the instruction with these bytes (log entry 33, DESIGN CHOICE): the bytes at PC, in plain memory,
the core running, the run not ended, and no interrupt to be taken first. -/
def State.placeInstr (s : State) (bytes : List Byte) : State :=
  let t := (s.setHost (s.host.clearAt s.pc)).placeBytes s.pc bytes
  (((t.setHalted false).setExit none).setNmi false).setIrq (s.irqPending && s.flag .i)

end Sys2Proof.Machine
end

