-- ==== Sys2Proof/Machine/Step.lean ====
section
/-! DEFINITION. The machine's step, and the placing of a word of the opcode table for the next fetch; both call
`Sys2Proof/Machine/Cycle.lean`. -/

namespace Sys2Proof.Machine

/-- One step of a run (R240, R253). -/
def step (s : State) : Host.Outcome State Fault Refusal := s.runStep

/-- `s` with the instruction whose bits are `w` placed where `step` fetches next. -/
def State.withFetchWord (s : State) (nbits w : Nat) : State := s.placeInstr (wordBytes nbits w)

end Sys2Proof.Machine
end

