-- ==== Sys2Proof/Safety.lean ====
section
/-! DEFINITION. The words the statements are written in: a run that goes on, the invariant, what a step may have written, and what an
instruction leaves unchanged. -/

namespace Sys2Proof.Machine

/-- A step is enabled: the core is not halted (R232) and the run has not ended by an exit (R253). -/
def State.Running (s : State) : Prop := s.halted = false ∧ s.exitCode = none

/-- No interrupt is taken at the start of this step (R239, R240). -/
def State.Uninterrupted (s : State) : Prop := s.nmiPending = false ∧ (s.irqPending = false ∨ getFlag .i s.p = true)

/-- The invariant: memory is in its canonical form, so equal memories are equal data, and the latest step or reset made at most six
bus accesses (R59). -/
def State.Inv (s : State) : Prop := s.mem.wf = true ∧ s.bus.length ≤ 6

/-- The bytes are exactly one instruction, `i`. -/
def Decodes (bytes : List Byte) (i : Instr) : Prop := decode bytes = .ok (i, [])

/-- The eight encodings of an operation with the modes of ADC (R103). -/
def AluEncodings (mk : Operand → Instr) (imm zp zpX abs absX absY indX indY : Byte) : Prop :=
  ∀ lo hi : Byte,
    Decodes [imm, lo] (mk (.imm lo)) ∧ Decodes [zp, lo] (mk (.zp lo)) ∧ Decodes [zpX, lo] (mk (.zpX lo)) ∧
    Decodes [abs, lo, hi] (mk (.abs (hi ++ lo))) ∧ Decodes [absX, lo, hi] (mk (.absX (hi ++ lo))) ∧
    Decodes [absY, lo, hi] (mk (.absY (hi ++ lo))) ∧
    Decodes [indX, lo] (mk (.indX lo)) ∧ Decodes [indY, lo] (mk (.indY lo))

/-- The five encodings of a shift or rotate (R103). -/
def ShiftEncodings (mk : Operand → Instr) (acc zp zpX abs absX : Byte) : Prop :=
  ∀ lo hi : Byte,
    Decodes [acc] (mk .acc) ∧ Decodes [zp, lo] (mk (.zp lo)) ∧ Decodes [zpX, lo] (mk (.zpX lo)) ∧
    Decodes [abs, lo, hi] (mk (.abs (hi ++ lo))) ∧ Decodes [absX, lo, hi] (mk (.absX (hi ++ lo)))

/-- Every flag but the written ones is unchanged between two status bytes (R26). -/
def KeepsFlags (written : List Flag) (p p' : Byte) : Prop := ∀ f, f ∉ written → getFlag f p' = getFlag f p

/-- Z and N of a status byte are those of the result byte `r` (R30). -/
def SetsZN (r p' : Byte) : Prop := getFlag .z p' = decide (r = 0) ∧ getFlag .n p' = r.getLsbD 7

/-- The location a stack pointer names (R23), written out: 0x0100 + SP. -/
def stackLoc (sp : Byte) : Addr := 0x0100 + sp.setWidth 16

/-- PC past an instruction whose operand is `o` (R31, R86). -/
def pcPast (s : State) (o : Operand) : Addr := s.pc + BitVec.ofNat 16 (modeLength o.mode)

/-- The byte of the last write to `a` in a record of the bus. -/
def lastWrite (a : Addr) : List BusAccess → Option Byte
  | [] => none
  | .read _ _ :: rest => lastWrite a rest
  | .write b v :: rest =>
    match lastWrite a rest with
    | some w => some w
    | none => if b = a then some v else none

/-- The byte of the last write, in a record of the bus, to an address whose action is the exit (R251). -/
def lastExit (h : HostMap) : List BusAccess → Option Byte
  | [] => none
  | .read _ _ :: rest => lastExit h rest
  | .write a v :: rest =>
    match lastExit h rest with
    | some w => some w
    | none => if h.actionAt a = some .exit then some v else none

/-- The accesses made since `s`, of a state `t` that an instruction has reached from it. -/
def State.since (t s : State) : List BusAccess := t.bus.drop s.bus.length

/-- None of the accesses is at an address where the host's action is open, and may be anything (R70; log entry 38). -/
def Quiet (h : HostMap) (new : List BusAccess) : Prop := ∀ x ∈ new, h.isDevice x.addr = false

/-- The host puts the byte `v` at `a` by an open action of its own, in one of the accesses `new` made from `s` on (R70; log entry
38). -/
def DeviceStores (s : State) (new : List BusAccess) (a : Addr) (v : Byte) : Prop :=
  ∃ before x after, new = before ++ x :: after ∧ s.host.isDevice x.addr = true ∧
    (a, v) ∈ Config.deviceStores s.epoch (s.bus ++ before) x

/-- The accesses `new` leave memory as it was in `s`, unless the host changes it by an open action. -/
def KeepsMemory (s t : State) (new : List BusAccess) : Prop := Quiet s.host new → t.mem = s.mem

/-- What the accesses `new`, made from `s` on, do to memory and the exit code, unless the host acts by an open action: no location but
the written ones changes; a written location the host does not intercept holds its last byte, and an intercepted one holds that byte
or what it held (R53; log entry 3, DESIGN CHOICE); the exit code is the byte of the last write to an exit address, if there was one
(R251). -/
def Stores (s t : State) (new : List BusAccess) : Prop :=
  Quiet s.host new →
    (∀ a : Addr, lastWrite a new = none → t.mem.peek a.toNat = s.mem.peek a.toNat) ∧
    (∀ (a : Addr) (v : Byte), lastWrite a new = some v →
      (s.host.intercepts a = false → t.mem.peek a.toNat = v) ∧
      (t.mem.peek a.toNat = v ∨ t.mem.peek a.toNat = s.mem.peek a.toNat)) ∧
    t.exitCode = (lastExit s.host new).or s.exitCode

/-- A conditional branch: taken when flag `f` has the value `on` (R190). -/
def BranchesOn (mk : Byte → Instr) (opcode : Byte) (f : Flag) (on : Bool) : Prop :=
  (∀ off, Decodes [opcode, off] (mk off)) ∧
  ∀ (off : Byte) (s : State), ∃ t, exec (mk off) s = .next t ∧ t = { s with pc := t.pc } ∧
    (t.pc.toNat : Int) = ((s.pc.toNat : Int) + 2 + (if getFlag f s.p = on then off.toInt else 0)) % 65536

/-- An Implied instruction that loads a register from another and sets Z and N: `t` is `s` with the register written, PC moved by one
and the flags of the value. -/
def FlaggedWrite (s t : State) (written : State) (v : Byte) : Prop :=
  t = { written with p := t.p, pc := s.pc + 1 } ∧ SetsZN v t.p ∧ KeepsFlags [.z, .n] s.p t.p

/-- A shift or rotate with result `r v c` and carry out `out v`, of A or of a location (R170). -/
def ShiftsBy (mk : Operand → Instr) (r : Byte → Bool → Byte) (out : Byte → Bool) : Prop :=
  (∀ s : State, ∃ t, exec (mk .acc) s = .next t ∧
    t = { s with a := r s.a (getFlag .c s.p), p := t.p, pc := s.pc + 1 } ∧
    getFlag .c t.p = out s.a ∧ SetsZN t.a t.p ∧ KeepsFlags [.c, .z, .n] s.p t.p) ∧
  (∀ (o : Operand) (s : State), (mk o).wellFormed = true → o ≠ .acc →
    let ea := (s.effAddr o).1
    let v := s.busByte ea
    let w := r v (getFlag .c s.p)
    let new : List BusAccess := [.read ea v, .write ea w]
    ∃ t, exec (mk o) s = .next t ∧
      t = { s with p := t.p, pc := pcPast s o, mem := t.mem, exitCode := t.exitCode, bus := s.bus ++ new } ∧
      Stores s t new ∧ getFlag .c t.p = out v ∧ SetsZN w t.p ∧ KeepsFlags [.c, .z, .n] s.p t.p)

/-- INC and DEC: a location read once and written once (R54). -/
def StepsMemoryBy (mk : Operand → Instr) (d : Byte) : Prop :=
  ∀ (o : Operand) (s : State), (mk o).wellFormed = true →
    let ea := (s.effAddr o).1
    let v := s.busByte ea
    let new : List BusAccess := [.read ea v, .write ea (v + d)]
    ∃ t, exec (mk o) s = .next t ∧
      t = { s with p := t.p, pc := pcPast s o, mem := t.mem, exitCode := t.exitCode, bus := s.bus ++ new } ∧
      Stores s t new ∧ SetsZN (v + d) t.p ∧ KeepsFlags [.z, .n] s.p t.p

/-- The flags each operation may write (R26, the complete list). -/
def flagsWritten : Op → List Flag
  | .lda | .ldx | .ldy | .tax | .tay | .txa | .tya | .tsx | .pla | .and | .ora | .eor => [.n, .z]
  | .inc | .inx | .iny | .dec | .dex | .dey => [.n, .z]
  | .asl | .lsr | .rol | .ror | .cmp | .cpx | .cpy => [.n, .z, .c]
  | .adc | .sbc => [.n, .v, .z, .c]
  | .bit => [.n, .v, .z]
  | .clc | .sec => [.c]
  | .cli | .sei | .brk => [.i]
  | .cld | .sed => [.d]
  | .clv => [.v]
  | .plp | .rti => [.c, .z, .i, .d, .b, .u, .v, .n]
  | .sta | .stx | .sty | .txs | .pha | .php | .jmp | .jsr | .rts | .nop | .illegal => []
  | .bcc | .bcs | .beq | .bne | .bmi | .bpl | .bvc | .bvs => []

/-- The reads of an access record, counted. -/
def readCount (b : List BusAccess) : Nat := (b.filter fun x => match x with | .read _ _ => true | .write _ _ => false).length

/-- The writes of an access record, counted. -/
def writeCount (b : List BusAccess) : Nat := (b.filter fun x => match x with | .read _ _ => false | .write _ _ => true).length

/-- How many pointer bytes a mode reads (R99 to R101). -/
def pointerReads : AddrMode → Nat
  | .indirect | .indirectX | .indirectY => 2
  | .implied | .accumulator | .immediate | .zeropage | .zeropageX | .zeropageY | .absolute | .absoluteX | .absoluteY => 0

/-- Whether a mode's operand is a location of memory that the operation itself accesses. -/
def operandAccess : AddrMode → Nat
  | .implied | .accumulator | .immediate => 0
  | .zeropage | .zeropageX | .zeropageY | .absolute | .absoluteX | .absoluteY | .indirect | .indirectX | .indirectY => 1

/-- The reads an operation makes after the fetch, by its mode (R54, R102 and the rules of files 40 to 45). -/
def readsOf (op : Op) (m : AddrMode) : Nat :=
  match op with
  | .sta | .stx | .sty | .jmp => pointerReads m
  | .pla | .plp => 1
  | .rts | .brk => 2
  | .rti => 3
  | .jsr => 0
  | .adc | .and | .asl | .bit | .cmp | .cpx | .cpy | .dec | .eor | .inc | .lda | .ldx | .ldy | .lsr | .ora | .rol | .ror | .sbc =>
    pointerReads m + operandAccess m
  | .bcc | .bcs | .beq | .bmi | .bne | .bpl | .bvc | .bvs | .clc | .cld | .cli | .clv | .dex | .dey | .inx | .iny | .nop => 0
  | .pha | .php | .sec | .sed | .sei | .tax | .tay | .tsx | .txa | .txs | .tya | .illegal => 0

/-- The writes an operation makes, by its mode (R54, R102). -/
def writesOf (op : Op) (m : AddrMode) : Nat :=
  match op with
  | .sta | .stx | .sty | .pha | .php => 1
  | .asl | .lsr | .rol | .ror | .inc | .dec => operandAccess m
  | .jsr => 2
  | .brk => 3
  | .adc | .and | .bit | .cmp | .cpx | .cpy | .eor | .lda | .ldx | .ldy | .ora | .sbc | .jmp | .pla | .plp | .rts | .rti => 0
  | .bcc | .bcs | .beq | .bmi | .bne | .bpl | .bvc | .bvs | .clc | .cld | .cli | .clv | .dex | .dey | .inx | .iny | .nop => 0
  | .sec | .sed | .sei | .tax | .tay | .tsx | .txa | .txs | .tya | .illegal => 0

/-- A state with its decimal flag inverted. -/
def State.flipD (s : State) : State := s.setP (s.p ^^^ 0x08)

/-- An outcome with the decimal flag of its next state inverted. -/
def Result.flipD : Result → Result
  | .next t => .next t.flipD
  | .fault r => .fault r
  | .refused r => .refused r

/-- The bytes of a list pushed one after another (R60). -/
def State.pushAll (s : State) (bs : List Byte) : State := bs.foldl State.push s

end Sys2Proof.Machine
end

