-- ==== Sys2Proof/Certificates/Slice0/Obligations.lean ====
section
/-! DEFINITION. The statements for the provers. Each says which rule of `spec/` it formalises; their words are in
`Sys2Proof/Safety.lean`. A clause that rests on a choice of the model names its entry of the assumption log; a rule that rests on a
decision of the spec (`92_eei_decisions.md`) names the entry that carries it, and every instruction's rule rests on D30 (entry 27)
and its bytes on D2 (entry 8). -/

open Sys2Proof Sys2Proof.Machine

/-! ### Encoding -/

/-- R80, R103, R106, R107: no bit of an encoding is dropped. -/
def Obligations.DecodeInvertsEncode : Prop :=
  ∀ (i : Instr) (rest : List Byte), i.wellFormed = true → decode (encode i ++ rest) = .ok (i, rest)

/-- R80, R103, R104: what the decoder reads is well-formed, and it has one encoding only, the bytes read. -/
def Obligations.EncodeInvertsDecode : Prop :=
  ∀ (bytes rest : List Byte) (i : Instr), decode bytes = .ok (i, rest) → i.wellFormed = true ∧ encode i ++ rest = bytes

/-- R85, R86, R87: every opcode byte begins an instruction, whose length the opcode alone decides. -/
def Obligations.OpcodeAloneDecidesLength : Prop :=
  ∀ (opcode lo hi : Byte) (tail : List Byte), ∃ i,
    decode (opcode :: lo :: hi :: tail) = .ok (i, (lo :: hi :: tail).drop (instrLength i - 1)) ∧
    (i.op, i.mode) = opcodeTable opcode ∧
    (instrLength i = 1 ↔ i.mode ∈ [.implied, .accumulator]) ∧
    (instrLength i = 3 ↔ i.mode ∈ [.absolute, .absoluteX, .absoluteY, .indirect]) ∧
    (instrLength i = 2 ↔ i.mode ∈ [.immediate, .zeropage, .zeropageX, .zeropageY, .indirectX, .indirectY])

/-- R2, R85, R89, R104, R106: 151 legal bytes, the 105 illegal ones of R106, every operation has a byte; and the branch class is the
eight conditional branches and JSR. -/
def Obligations.OpcodeTableHasTheIllegalBytes : Prop :=
  (∀ b : Byte, opcodeTable b = (.illegal, .implied) ↔ isIllegalByte b = true) ∧
  (∀ b : Byte, (opcodeTable b).1 = .illegal → opcodeTable b = (.illegal, .implied)) ∧
  ((List.range 256).filter fun b => (opcodeTable (BitVec.ofNat 8 b)).1 = .illegal).length = 105 ∧
  (∀ op : Op, ∃ b : Byte, (opcodeTable b).1 = op) ∧
  ∀ op : Op, isBranchClass op = true ↔ op ∈ [Op.bcc, .bcs, .beq, .bmi, .bne, .bpl, .bvc, .bvs, .jsr]

/-- R105: the bytes the source confirms, with their lengths; and that STA, JSR and JMP have an Absolute form. -/
def Obligations.ConfirmedBytesDecode : Prop :=
  Decodes [0xA0, 0x0A] (.ldy (.imm 10)) ∧ instrLength (.ldy (.imm 10)) = 2 ∧
  Decodes [0xE8] .inx ∧ instrLength .inx = 1 ∧ Decodes [0x88] .dey ∧ instrLength .dey = 1 ∧
  Decodes [0xD0, 0xFC] (.bne 0xFC) ∧ instrLength (.bne 0xFC) = 2 ∧ Decodes [0xEA] .nop ∧ instrLength .nop = 1 ∧
  ∀ w : Addr, (Instr.sta (.abs w)).wellFormed = true ∧ (Instr.jsr w).mode = .absolute ∧
    (Instr.jmp (.abs w)).wellFormed = true

/-! ### The step -/

/-- R111, R240: a step that takes no interrupt reads the opcode and its operand bytes at PC, one after another, and runs `exec` on
the instruction the decoder gives for them, in the state those reads leave (log entry 20). -/
def Obligations.StepRunsTheDecodedInstruction : Prop :=
  ∀ (s : State) (i : Instr) (rest : List Byte), s.Running → s.Uninterrupted →
    let s0 := { s with bus := [], epoch := s.epoch + 1 }
    let r0 := s0.busRead s.pc
    let r1 := r0.2.busRead (s.pc + 1)
    let r2 := r1.2.busRead (s.pc + 2)
    decode [r0.1, r1.1, r2.1] = .ok (i, rest) →
    step s = exec i (match formatOf i.mode with | .f1 => r0.2 | .f2 => r1.2 | .f3 => r2.2)

/-- R68, R111: where the host does not intercept the instruction's own bytes, they are the bytes memory holds at PC. -/
def Obligations.FetchReadsMemoryAtPC : Prop :=
  ∀ (s : State) (i : Instr), s.Running → s.Uninterrupted →
    let b (k : Nat) : Byte := s.mem.peek (s.pc + BitVec.ofNat 16 k).toNat
    decode ((List.range (instrLength i)).map b) = .ok (i, []) →
    (∀ k < instrLength i, s.host.intercepts (s.pc + BitVec.ofNat 16 k) = false) →
    step s = exec i { s with
      bus := (List.range (instrLength i)).map fun k => .read (s.pc + BitVec.ofNat 16 k) (b k), epoch := s.epoch + 1 }

/-- R230, R232, R239, R253: a step stops only in a halted core or after the exit; every other step completes, and none is refused
(log entries 6 and 7: the stops are named faults). -/
def Obligations.StepStopsOnlyWhenTheRunIsOver : Prop :=
  ∀ s : State,
    (s.halted = true → step s = .fault .halted) ∧
    (s.halted = false → ∀ code, s.exitCode = some code → step s = .fault (.exited code)) ∧
    (s.Running → ∃ t, step s = .next t)

/-- R241: NMI entry, in full, whatever `P.I` holds. Decisions: log entries 11, 12, 13.
Model's choice (log entries 3 and 37, DESIGN CHOICE): what a print or an exit leaves in memory; an open action of the host may leave
anything (R70, log entry 38). -/
def Obligations.NmiEntry : Prop :=
  ∀ s : State, s.Running → s.nmiPending = true → ∃ t lo hi, step s = .next t ∧
    t = { s with
      sp := s.sp - 3, p := t.p, pc := hi ++ lo, nmiPending := false, mem := t.mem, exitCode := t.exitCode, epoch := t.epoch,
      bus := [.write (stackLoc s.sp) (s.pc.extractLsb' 8 8), .write (stackLoc (s.sp - 1)) (s.pc.extractLsb' 0 8),
        .write (stackLoc (s.sp - 2)) (s.p &&& 0xEF), .read 0xFFFA lo, .read 0xFFFB hi] } ∧
    Stores s t t.bus ∧
    (Quiet s.host t.bus → s.host.intercepts 0xFFFA = false → lo = s.mem.peek 0xFFFA) ∧
    (Quiet s.host t.bus → s.host.intercepts 0xFFFB = false → hi = s.mem.peek 0xFFFB) ∧
    getFlag .i t.p = true ∧ KeepsFlags [.i] s.p t.p

/-- R242: IRQ entry, in full: as NMI entry, with the IRQ vector and the IRQ latch, when I is clear and no NMI is latched.
Decisions: log entries 11, 12, 13, 14.
Model's choice (log entries 3 and 37, DESIGN CHOICE): what a print or an exit leaves in memory; an open action of the host may leave
anything (R70, log entry 38). -/
def Obligations.IrqEntry : Prop :=
  ∀ s : State, s.Running → s.nmiPending = false → s.irqPending = true → getFlag .i s.p = false → ∃ t lo hi, step s = .next t ∧
    t = { s with
      sp := s.sp - 3, p := t.p, pc := hi ++ lo, irqPending := false, mem := t.mem, exitCode := t.exitCode, epoch := t.epoch,
      bus := [.write (stackLoc s.sp) (s.pc.extractLsb' 8 8), .write (stackLoc (s.sp - 1)) (s.pc.extractLsb' 0 8),
        .write (stackLoc (s.sp - 2)) (s.p &&& 0xEF), .read 0xFFFE lo, .read 0xFFFF hi] } ∧
    Stores s t t.bus ∧
    (Quiet s.host t.bus → s.host.intercepts 0xFFFE = false → lo = s.mem.peek 0xFFFE) ∧
    (Quiet s.host t.bus → s.host.intercepts 0xFFFF = false → hi = s.mem.peek 0xFFFF) ∧
    getFlag .i t.p = true ∧ KeepsFlags [.i] s.p t.p

/-- R238: with `P.I` set a latched IRQ is not taken and stays latched through the instruction; with `P.I` clear and no NMI it is
taken by the step and its latch cleared; `P.I` keeps neither NMI nor BRK from happening; after reset `P.I` is set.
Decisions: log entries 14, 15. -/
def Obligations.MaskedIrqStaysLatched : Prop :=
  (∀ s t : State, s.Running → s.nmiPending = false → s.irqPending = true → getFlag .i s.p = true → step s = .next t →
    t.irqPending = true ∧ ∃ v, t.bus.head? = some (.read s.pc v)) ∧
  (∀ s : State, s.Running → s.nmiPending = false → s.irqPending = true → getFlag .i s.p = false →
    ∃ t, step s = .next t ∧ t.irqPending = false ∧ t.nmiPending = false ∧
      t.bus.head? = some (.write (stackLoc s.sp) (s.pc.extractLsb' 8 8))) ∧
  (∀ s : State, s.Running → s.nmiPending = true →
    ∃ t, step s = .next t ∧ t.nmiPending = false ∧ t.irqPending = s.irqPending) ∧
  (∀ s : State, ∃ t, exec .brk s = .next t ∧ t.irqPending = s.irqPending ∧ t.nmiPending = s.nmiPending) ∧
  getFlag .i State.reset.p = true

/-- R213, R242, R245: `P.I` is sampled at the start of each step, so an IRQ that CLI, PLP or RTI has just unmasked is taken by the very
next step, before any other instruction: PC and P are pushed, with B clear in the pushed byte, I is set, the IRQ latch is cleared, and
PC is what the IRQ vector reads. Decisions: log entries 11, 12, 13, 14, 26. -/
def Obligations.UnmaskedIrqIsTakenNext : Prop :=
  ∀ s t : State, s.Running → s.nmiPending = false → s.irqPending = true → getFlag .i s.p = true →
    step s = .next t → getFlag .i t.p = false → t.Running →
    ∃ u lo hi, step t = .next u ∧ u.irqPending = false ∧ u.sp = t.sp - 3 ∧ u.a = t.a ∧ u.x = t.x ∧ u.y = t.y ∧ u.pc = hi ++ lo ∧
      getFlag .i u.p = true ∧ KeepsFlags [.i] t.p u.p ∧
      u.bus = [.write (stackLoc t.sp) (t.pc.extractLsb' 8 8), .write (stackLoc (t.sp - 1)) (t.pc.extractLsb' 0 8),
        .write (stackLoc (t.sp - 2)) (t.p &&& 0xEF), .read 0xFFFE lo, .read 0xFFFF hi]

/-! ### Invariants and whole-machine rules -/

/-- The reset state meets the invariant (log entry 4: its memory lists nothing). -/
def Obligations.ResetMeetsTheInvariant : Prop := State.reset.Inv

/-- Every step keeps the invariant: the canonical form of memory, and at most six bus accesses in a step (R59). -/
def Obligations.StepKeepsTheInvariant : Prop := ∀ s t : State, s.Inv → step s = .next t → t.Inv

/-- R59, R274: every host event and every run under any schedule of host events keeps the invariant. -/
def Obligations.RunsKeepTheInvariant : Prop :=
  (∀ (s : State) (e : HostEvent), s.Inv → (s.onEvent e).Inv) ∧
  ∀ (schedule : List (List HostEvent)) (s t : State), s.Inv → State.runWith schedule s = .next t → t.Inv

/-- Two memories in the canonical form that hold the same byte everywhere are the same data. -/
def Obligations.CanonicalMemoriesAreEqual : Prop :=
  ∀ m m' : Memory, m.wf = true → m'.wf = true → (∀ a < 0x10000, m.peek a = m'.peek a) → m = m'

/-- R53, R64, R70: after a step, a location no write of the step went to holds what it held, and one the host does not intercept holds
the byte of the step's last write to it; but for the bytes the host itself puts there by an open action, in an access to an address
where its map has one (R7, R70, log entry 38).
Model's choice (log entry 37, DESIGN CHOICE): a print or an exit changes no location but, for a write, the one addressed. -/
def Obligations.MemoryFollowsTheBus : Prop :=
  ∀ s t : State, step s = .next t → ∀ a : Addr,
    (lastWrite a t.bus = none →
      t.mem.peek a.toNat = s.mem.peek a.toNat ∨ ∃ w, DeviceStores { s with bus := [], epoch := t.epoch } t.bus a w) ∧
    (∀ v, lastWrite a t.bus = some v → s.host.intercepts a = false →
      t.mem.peek a.toNat = v ∨ ∃ w, DeviceStores { s with bus := [], epoch := t.epoch } t.bus a w)

/-- R52, R65, R68: every read of a step, fetch included, at an address the host does not intercept returns the latest earlier write:
the step's own, or what memory held when the step began; but for a byte the host itself has put there in an earlier access of the step,
by an open action (R70, log entry 38).
Model's choice (log entry 37, DESIGN CHOICE): a print or an exit changes no location but, for a write, the one addressed. -/
def Obligations.ReadsAreCoherent : Prop :=
  ∀ s t : State, step s = .next t → ∀ (before after : List BusAccess) (a : Addr) (v : Byte),
    t.bus = before ++ .read a v :: after → s.host.intercepts a = false →
    v = (lastWrite a before).getD (s.mem.peek a.toNat) ∨
      ∃ w, DeviceStores { s with bus := [], epoch := t.epoch } before a w

/-- R251, R252, R253: a step that writes to an address whose action is the exit ends the run, and nothing ends it so but a write to such
an address or to one with an open action; without an open action the exit code is the byte of the last such write; the core is not
halted by it, and no further step is taken. Log entries 6, 38. -/
def Obligations.ExitWriteEndsTheRun : Prop :=
  ∀ s t : State, step s = .next t →
    (∀ a v, .write a v ∈ t.bus → s.host.actionAt a = some .exit → ∃ code, t.exitCode = some code) ∧
    (∀ code, t.exitCode = some code →
      ∃ a v, .write a v ∈ t.bus ∧ (s.host.actionAt a = some .exit ∨ s.host.actionAt a = some .device)) ∧
    (Quiet s.host t.bus → t.exitCode = lastExit s.host t.bus) ∧
    ∀ code, t.exitCode = some code → t.halted = false ∧ step t = .fault (.exited code)

/-- R34, R35, R36, R39: no instruction reads or writes the interrupt latches; only ILLEGAL sets the halt latch, and no instruction
clears it; the host's address map is not an instruction's to change.
Two runs are compared, the host acting alike in both (log entries 2, 3, 38). -/
def Obligations.InstructionsLeaveTheLatchesAlone : Prop :=
  ∀ (i : Instr) (s t : State), exec i s = .next t →
    t.nmiPending = s.nmiPending ∧ t.irqPending = s.irqPending ∧ t.host = s.host ∧ t.epoch = s.epoch ∧
    (t.halted = true ↔ s.halted = true ∨ i.op = .illegal) ∧
    exec i { s with nmiPending := !s.nmiPending, irqPending := !s.irqPending } =
      .next { t with nmiPending := !t.nmiPending, irqPending := !t.irqPending }

/-- R26: which instructions write which flag, the complete list; an interrupt entry writes I; and INX writes Z and N but not C. -/
def Obligations.OnlyListedFlagsAreWritten : Prop :=
  (∀ (i : Instr) (s t : State), exec i s = .next t → KeepsFlags (flagsWritten i.op) s.p t.p) ∧
  (∀ s t : State, s.nmiPending = true ∨ (s.irqPending = true ∧ getFlag .i s.p = false) → step s = .next t →
    KeepsFlags [.i] s.p t.p ∧ getFlag .i t.p = true) ∧
  ∀ s : State, ∃ t, exec .inx s = .next t ∧ SetsZN (s.x + 1) t.p ∧ getFlag .c t.p = getFlag .c s.p

/-- R28: after reset B and U are 1; apart from reset they change only by PLP and RTI, which load them from bits 4 and 5 of the pulled
byte: no other instruction and no interrupt entry writes them; PHP and BRK set them, and an interrupt entry clears B, only in the byte
they push. Decisions: log entries 13, 16, 17. -/
def Obligations.OnlyPlpAndRtiWriteBAndU : Prop :=
  (∀ s : State, getFlag .b s.resetEvent.p = true ∧ getFlag .u s.resetEvent.p = true) ∧
  (∀ (i : Instr) (s t : State), exec i s = .next t → i ≠ .plp → i ≠ .rti →
    getFlag .b t.p = getFlag .b s.p ∧ getFlag .u t.p = getFlag .u s.p) ∧
  (∀ s : State, ∃ t u, exec .plp s = .next t ∧ exec .rti s = .next u ∧
    let pulled := s.busByte (stackLoc (s.sp + 1))
    getFlag .b t.p = pulled.getLsbD 4 ∧ getFlag .u t.p = pulled.getLsbD 5 ∧
    getFlag .b u.p = pulled.getLsbD 4 ∧ getFlag .u u.p = pulled.getLsbD 5) ∧
  (∀ s t : State, s.nmiPending = true ∨ (s.irqPending = true ∧ getFlag .i s.p = false) → step s = .next t →
    getFlag .b t.p = getFlag .b s.p ∧ getFlag .u t.p = getFlag .u s.p ∧
    t.bus[2]? = some (.write (stackLoc (s.sp - 2)) (s.p &&& 0xEF))) ∧
  ∀ s : State, ∃ t u, exec .php s = .next t ∧ exec .brk s = .next u ∧
    t.bus = s.bus ++ [.write (stackLoc s.sp) (s.p ||| 0x30)] ∧ t.p = s.p ∧
    u.bus[s.bus.length + 2]? = some (.write (stackLoc (s.sp - 2)) (s.p ||| 0x30))

/-- R27, R29, R152: the decimal flag changes no result: an instruction that neither writes D nor pushes P does the same with D
inverted. Two runs are compared, the host acting alike in both (log entries 2, 3, 38). Decision: log entry 23. -/
def Obligations.DecimalFlagIsInert : Prop :=
  ∀ (i : Instr) (s : State), i.op ∉ [Op.cld, .sed, .plp, .rti, .php, .brk] → exec i s.flipD = Result.flipD (exec i s)

/-- R21, R22, R23, R39: which instructions change A, X, Y and SP; every other instruction leaves the register alone. -/
def Obligations.OnlyListedRegistersAreWritten : Prop :=
  ∀ (i : Instr) (s t : State), i.wellFormed = true → exec i s = .next t →
    (i.op ∉ [Op.adc, .sbc, .and, .ora, .eor, .lda, .pla, .txa, .tya] →
      ¬ (i.op ∈ [Op.asl, .lsr, .rol, .ror] ∧ i.mode = .accumulator) → t.a = s.a) ∧
    (i.op ∉ [Op.ldx, .tax, .tsx, .inx, .dex] → t.x = s.x) ∧
    (i.op ∉ [Op.ldy, .tay, .iny, .dey] → t.y = s.y) ∧
    (i.op ∉ [Op.pha, .php, .pla, .plp, .jsr, .rts, .brk, .rti, .txs] → t.sp = s.sp)

/-- R31, R33: an operation that does not transfer control leaves PC at the byte after the instruction. -/
def Obligations.PcAdvancesByTheLength : Prop :=
  ∀ (i : Instr) (s t : State), exec i s = .next t →
    i.op ∉ [Op.bcc, .bcs, .beq, .bne, .bmi, .bpl, .bvc, .bvs, .jmp, .jsr, .rts, .rti, .brk] →
    t.pc.toNat = (s.pc.toNat + instrLength i) % 65536

/-- R54, R102: an instruction makes the reads and writes its rule lists and no other: one read of an operand that is read, none of
one that is only written, one of each of one that is modified; and it drops no access of the record. Decision: log entry 36. -/
def Obligations.OnlyListedAccessesAreMade : Prop :=
  ∀ (i : Instr) (s t : State), i.wellFormed = true → exec i s = .next t → ∃ new : List BusAccess,
    t.bus = s.bus ++ new ∧ readCount new = readsOf i.op i.mode ∧ writeCount new = writesOf i.op i.mode

/-- R221, R232, R248: a step that fetches an illegal byte halts the core, changes nothing but PC, and no step follows, whatever
request the host raises; an interrupt that can be taken is taken first. Decisions: log entries 7, 10. -/
def Obligations.IllegalByteHaltsForGood : Prop :=
  (∀ s : State, s.Running → s.Uninterrupted → s.host.intercepts s.pc = false →
    isIllegalByte (s.mem.peek s.pc.toNat) = true →
    ∃ t, t = { s with
        pc := s.pc + 1, halted := true, epoch := s.epoch + 1, bus := [.read s.pc (s.mem.peek s.pc.toNat)] } ∧
      step s = .next t ∧ step t = .fault .halted ∧ step t.raiseNmi = .fault .halted ∧ step t.raiseIrq = .fault .halted) ∧
  ∀ s t : State, s.Running → ¬ s.Uninterrupted → step s = .next t → t.halted = false

/-! ### The stack, entry and return -/

/-- R60, R61: Push writes where SP points and then decrements SP; Pull increments SP and then reads there; both modulo 256. What is
pushed on a stack the host does not intercept is pulled again. Decision: log entry 12.
Model's choice (log entries 3 and 37, DESIGN CHOICE): what a print or an exit leaves in memory; an open action of the host may leave
anything (R70, log entry 38). -/
def Obligations.PushAndPullMoveSP : Prop :=
  ∀ (s : State) (v : Byte),
    (let t := s.push v
     t = { s with sp := t.sp, mem := t.mem, exitCode := t.exitCode, bus := s.bus ++ [.write (stackLoc s.sp) v] } ∧
     t.sp.toNat = (s.sp.toNat + 255) % 256 ∧ Stores s t [.write (stackLoc s.sp) v]) ∧
    (let r := s.pull
     r.2 = { s with sp := r.2.sp, mem := r.2.mem, bus := s.bus ++ [.read (stackLoc r.2.sp) r.1] } ∧
     KeepsMemory s r.2 [.read (stackLoc r.2.sp) r.1] ∧
     r.2.sp.toNat = (s.sp.toNat + 1) % 256 ∧ r.1 = s.busByte (stackLoc r.2.sp)) ∧
    (s.host.intercepts (stackLoc s.sp) = false → (s.push v).pull.1 = v ∧ (s.push v).pull.2.sp = s.sp)

/-- R62: however many bytes are pushed, SP wraps and no byte outside 0x0100 to 0x01FF changes; where the stack page is not
intercepted, the 257th push overwrites the first.
Model's choice (log entry 37, DESIGN CHOICE): a print or an exit changes no memory; an open action of the host may (R70, log entry 38). -/
def Obligations.StackStaysInItsPage : Prop :=
  (∀ (s : State) (bs : List Byte),
    (s.pushAll bs).sp = s.sp - BitVec.ofNat 8 bs.length ∧
    ((∀ q, s.host.isDevice (stackLoc q) = false) → ∀ a : Nat, a < 0x100 ∨ 0x200 ≤ a →
      (s.pushAll bs).mem.peek a = s.mem.peek a)) ∧
  ∀ (s : State) (bs : List Byte) (v : Byte), bs.length = 256 → (∀ q, s.host.intercepts (stackLoc q) = false) →
    (s.pushAll (bs ++ [v])).mem.peek (stackLoc s.sp).toNat = v ∧ (s.pushAll (bs ++ [v])).sp = s.sp - 1

/-- R246: RTI undoes the three pushes of an interrupt entry: PC and SP are back, and P is the interrupted P with B clear.
Model's choice (log entry 37, DESIGN CHOICE): a print or an exit changes no memory; an open action of the host may (R70, log entry 38). -/
def Obligations.RtiUndoesInterruptEntry : Prop :=
  ∀ s : State, s.Running → s.nmiPending = true ∨ (s.irqPending = true ∧ getFlag .i s.p = false) →
    (∀ q, s.host.intercepts (stackLoc q) = false) →
    (∀ a ∈ [(0xFFFA : Addr), 0xFFFB, 0xFFFE, 0xFFFF], s.host.isDevice a = false) →
    ∃ t u, step s = .next t ∧ exec .rti t = .next u ∧
    u.pc = s.pc ∧ u.sp = s.sp ∧ u.p = s.p &&& 0xEF ∧ u.a = s.a ∧ u.x = s.x ∧ u.y = s.y ∧ u.mem = t.mem

/-- R200, R201: RTS after JSR goes to the instruction after the JSR, with SP back, on a stack the host does not intercept. -/
def Obligations.RtsReturnsPastJsr : Prop :=
  ∀ (s : State) (target : Addr), (∀ q, s.host.intercepts (stackLoc q) = false) →
    ∃ t u, exec (.jsr target) s = .next t ∧ t.pc = target ∧ exec .rts t = .next u ∧
      u.pc = s.pc + 3 ∧ u.sp = s.sp ∧ u.mem = t.mem ∧ u.a = s.a ∧ u.x = s.x ∧ u.y = s.y ∧ u.p = s.p

/-! ### Operand forms -/

/-- R92 to R98: the effective address of each mode that reads no pointer, and that finding it changes nothing but PC. The operand
bytes are the instruction's, read by the fetch. -/
def Obligations.DirectModesFindTheirAddress : Prop :=
  ∀ (s : State) (z : Byte) (w : Addr),
    (∀ v, (s.locate (.imm v)).1 = s.pc + 1 ∧ (s.locate (.imm v)).2 = { s with pc := s.pc + 2 }) ∧
    ((s.locate (.zp z)).1.toNat = z.toNat ∧ (s.locate (.zp z)).2 = { s with pc := s.pc + 2 }) ∧
    ((s.locate (.zpX z)).1.toNat = (z.toNat + s.x.toNat) % 256 ∧ (s.locate (.zpX z)).2 = { s with pc := s.pc + 2 }) ∧
    ((s.locate (.zpY z)).1.toNat = (z.toNat + s.y.toNat) % 256 ∧ (s.locate (.zpY z)).2 = { s with pc := s.pc + 2 }) ∧
    ((s.locate (.abs w)).1 = w ∧ (s.locate (.abs w)).2 = { s with pc := s.pc + 3 }) ∧
    ((s.locate (.absX w)).1.toNat = (w.toNat + s.x.toNat) % 65536 ∧ (s.locate (.absX w)).2 = { s with pc := s.pc + 3 }) ∧
    ((s.locate (.absY w)).1.toNat = (w.toNat + s.y.toNat) % 65536 ∧ (s.locate (.absY w)).2 = { s with pc := s.pc + 3 })

/-- R57, R100, R101: the pointer modes read their pointer's two bytes, both in the zero page, low byte first; IndirectX adds X to the
operand byte before, IndirectY adds Y to the pointer after. Decision: log entry 19.
Model's choice (log entry 37, DESIGN CHOICE): a print or an exit changes no memory; an open action of the host may (R70, log entry 38). -/
def Obligations.ZeroPagePointersStayInTheZeroPage : Prop :=
  ∀ (s : State) (z : Byte),
    let p := z + s.x
    let lo (q : Byte) : Byte := s.busByte (q.setWidth 16)
    let hi (q : Byte) : Byte := (s.busRead (q.setWidth 16)).2.busByte ((q + 1).setWidth 16)
    let new (q : Byte) : List BusAccess := [.read (q.setWidth 16) (lo q), .read ((q + 1).setWidth 16) (hi q)]
    let ex := s.locate (.indX z)
    let ey := s.locate (.indY z)
    ex.1 = hi p ++ lo p ∧ ex.2 = { s with pc := s.pc + 2, mem := ex.2.mem, bus := s.bus ++ new p } ∧ KeepsMemory s ex.2 (new p) ∧
    ey.1.toNat = ((hi z ++ lo z).toNat + s.y.toNat) % 65536 ∧
    ey.2 = { s with pc := s.pc + 2, mem := ey.2.mem, bus := s.bus ++ new z } ∧ KeepsMemory s ey.2 (new z)

/-- R99: Indirect mode, for both values of `JMP_IND_PAGE_WRAP`, which differ only when the pointer's low byte is 0xFF.
Log entry 1.
Model's choice (log entry 37, DESIGN CHOICE): a print or an exit changes no memory; an open action of the host may (R70, log entry 38). -/
def Obligations.IndirectModeReadsItsPointer : Prop :=
  ∀ (s : State) (ptrHi ptrLo : Byte),
    let ptr : Addr := ptrHi ++ ptrLo
    let second : Addr := if Config.jmpIndPageWrap = true then ptrHi ++ (ptrLo + 1) else ptr + 1
    let lo := s.busByte ptr
    let hi := (s.busRead ptr).2.busByte second
    let new : List BusAccess := [.read ptr lo, .read second hi]
    let e := s.locate (.ind ptr)
    e.1 = hi ++ lo ∧ e.2 = { s with pc := s.pc + 3, mem := e.2.mem, bus := s.bus ++ new } ∧ KeepsMemory s e.2 new ∧
    (ptrLo ≠ 0xFF → second = ptr + 1)

/-- R102: the operand value is A in Accumulator mode, the operand byte in Immediate mode, and else the byte of one read at the
effective address, made after the pointer reads.
Model's choice (log entry 37, DESIGN CHOICE): a print or an exit changes no memory; an open action of the host may (R70, log entry 38). -/
def Obligations.OperandValueIsReadOnce : Prop :=
  ∀ (s : State) (o : Operand),
    let r := s.readOperand o
    (o = .acc → r.1 = s.a ∧ r.2 = { s with pc := s.pc + 1 }) ∧
    (∀ v, o = .imm v → r.1 = v ∧ r.2 = { s with pc := s.pc + 2 }) ∧
    (o.mode ≠ .accumulator → o.mode ≠ .immediate →
      let e := s.locate o
      r.1 = e.2.busByte e.1 ∧ r.2 = { e.2 with mem := r.2.mem, bus := e.2.bus ++ [.read e.1 r.1] } ∧
      KeepsMemory s r.2 (r.2.since s) ∧
      (Quiet s.host (e.2.since s) → s.host.intercepts e.1 = false → r.1 = s.mem.peek e.1.toNat))

/-! ### Loads, stores, transfers -/

/-- R121, R122, R123: LDA, LDX and LDY.
Model's choice (log entry 37, DESIGN CHOICE): a print or an exit changes no memory; an open action of the host may (R70, log entry 38). -/
def Obligations.LoadsTakeTheOperand : Prop :=
  AluEncodings .lda 0xA9 0xA5 0xB5 0xAD 0xBD 0xB9 0xA1 0xB1 ∧
  (∀ lo hi : Byte, Decodes [0xA2, lo] (.ldx (.imm lo)) ∧ Decodes [0xA6, lo] (.ldx (.zp lo)) ∧
    Decodes [0xB6, lo] (.ldx (.zpY lo)) ∧ Decodes [0xAE, lo, hi] (.ldx (.abs (hi ++ lo))) ∧
    Decodes [0xBE, lo, hi] (.ldx (.absY (hi ++ lo)))) ∧
  (∀ lo hi : Byte, Decodes [0xA0, lo] (.ldy (.imm lo)) ∧ Decodes [0xA4, lo] (.ldy (.zp lo)) ∧
    Decodes [0xB4, lo] (.ldy (.zpX lo)) ∧ Decodes [0xAC, lo, hi] (.ldy (.abs (hi ++ lo))) ∧
    Decodes [0xBC, lo, hi] (.ldy (.absX (hi ++ lo)))) ∧
  ∀ (o : Operand) (s : State),
    let m := s.readOperand o
    (∃ t, exec (.lda o) s = .next t ∧ t = { s with a := m.1, p := t.p, pc := pcPast s o, mem := m.2.mem, bus := m.2.bus } ∧
      KeepsMemory s t (t.since s) ∧
      SetsZN m.1 t.p ∧ KeepsFlags [.z, .n] s.p t.p) ∧
    (∃ t, exec (.ldx o) s = .next t ∧ t = { s with x := m.1, p := t.p, pc := pcPast s o, mem := m.2.mem, bus := m.2.bus } ∧
      KeepsMemory s t (t.since s) ∧
      SetsZN m.1 t.p ∧ KeepsFlags [.z, .n] s.p t.p) ∧
    (∃ t, exec (.ldy o) s = .next t ∧ t = { s with y := m.1, p := t.p, pc := pcPast s o, mem := m.2.mem, bus := m.2.bus } ∧
      KeepsMemory s t (t.since s) ∧
      SetsZN m.1 t.p ∧ KeepsFlags [.z, .n] s.p t.p)

/-- R124, R125, R126: STA, STX and STY; no read of the target, no flag; a store to the exit address gives the host the exit code.
Model's choice (log entries 3 and 37, DESIGN CHOICE): what a print or an exit leaves in memory; an open action of the host may leave
anything (R70, log entry 38). -/
def Obligations.StoresWriteTheRegister : Prop :=
  (∀ lo hi : Byte, Decodes [0x85, lo] (.sta (.zp lo)) ∧ Decodes [0x95, lo] (.sta (.zpX lo)) ∧
    Decodes [0x8D, lo, hi] (.sta (.abs (hi ++ lo))) ∧ Decodes [0x9D, lo, hi] (.sta (.absX (hi ++ lo))) ∧
    Decodes [0x99, lo, hi] (.sta (.absY (hi ++ lo))) ∧ Decodes [0x81, lo] (.sta (.indX lo)) ∧
    Decodes [0x91, lo] (.sta (.indY lo)) ∧ Decodes [0x86, lo] (.stx (.zp lo)) ∧ Decodes [0x96, lo] (.stx (.zpY lo)) ∧
    Decodes [0x8E, lo, hi] (.stx (.abs (hi ++ lo))) ∧ Decodes [0x84, lo] (.sty (.zp lo)) ∧
    Decodes [0x94, lo] (.sty (.zpX lo)) ∧ Decodes [0x8C, lo, hi] (.sty (.abs (hi ++ lo)))) ∧
  ∀ (mk : Operand → Instr) (r : State → Byte),
    (mk, r) ∈ [(Instr.sta, State.a), (Instr.stx, State.x), (Instr.sty, State.y)] →
    ∀ (o : Operand) (s : State), (mk o).wellFormed = true →
      let e := s.effAddr o
      ∃ t, exec (mk o) s = .next t ∧
        t = { s with
          pc := pcPast s o, mem := t.mem, exitCode := t.exitCode, bus := e.2.bus ++ [.write e.1 (r s)] } ∧
        Stores s t (e.2.since s ++ [.write e.1 (r s)])

/-- R127 to R131: the five transfers that set Z and N. -/
def Obligations.TransfersCopyTheRegister : Prop :=
  Decodes [0xAA] .tax ∧ Decodes [0xA8] .tay ∧ Decodes [0x8A] .txa ∧ Decodes [0x98] .tya ∧ Decodes [0xBA] .tsx ∧
  ∀ s : State,
    (∃ t, exec .tax s = .next t ∧ FlaggedWrite s t { s with x := s.a } s.a) ∧
    (∃ t, exec .tay s = .next t ∧ FlaggedWrite s t { s with y := s.a } s.a) ∧
    (∃ t, exec .txa s = .next t ∧ FlaggedWrite s t { s with a := s.x } s.x) ∧
    (∃ t, exec .tya s = .next t ∧ FlaggedWrite s t { s with a := s.y } s.y) ∧
    (∃ t, exec .tsx s = .next t ∧ FlaggedWrite s t { s with x := s.sp } s.sp)

/-- R132: TXS, which leaves every flag alone; the next Push writes at 0x0100 + X. -/
def Obligations.TxsMovesXToSP : Prop :=
  Decodes [0x9A] .txs ∧ ∀ s : State, ∃ t, exec .txs s = .next t ∧ t = { s with sp := s.x, pc := s.pc + 1 } ∧
    ∀ v, (t.push v).bus = s.bus ++ [.write (0x0100 + s.x.setWidth 16) v]

/-! ### Stack -/

/-- R141, R142: PHA and PHP; PHP's byte has B and U set, and P is not changed. Decisions: log entries 12, 16.
Model's choice (log entries 3 and 37, DESIGN CHOICE): what a print or an exit leaves in memory; an open action of the host may leave
anything (R70, log entry 38). -/
def Obligations.PushesStoreOneByte : Prop :=
  Decodes [0x48] .pha ∧ Decodes [0x08] .php ∧
  ∀ s : State,
    (∃ t, exec .pha s = .next t ∧
      t = { s with
        sp := s.sp - 1, pc := s.pc + 1, mem := t.mem, exitCode := t.exitCode,
        bus := s.bus ++ [.write (stackLoc s.sp) s.a] } ∧
      Stores s t [.write (stackLoc s.sp) s.a]) ∧
    (∃ t, exec .php s = .next t ∧
      t = { s with
        sp := s.sp - 1, pc := s.pc + 1, mem := t.mem, exitCode := t.exitCode,
        bus := s.bus ++ [.write (stackLoc s.sp) (s.p ||| 0x30)] } ∧
      Stores s t [.write (stackLoc s.sp) (s.p ||| 0x30)])

/-- R143, R144: PLA sets Z and N of the byte; PLP loads all eight bits of P. Decisions: log entries 12, 17.
Model's choice (log entry 37, DESIGN CHOICE): a print or an exit changes no memory; an open action of the host may (R70, log entry 38). -/
def Obligations.PullsLoadOneByte : Prop :=
  Decodes [0x68] .pla ∧ Decodes [0x28] .plp ∧
  ∀ s : State,
    let v := s.busByte (stackLoc (s.sp + 1))
    let new : List BusAccess := [.read (stackLoc (s.sp + 1)) v]
    let back : State := { s with
      sp := s.sp + 1, pc := s.pc + 1, mem := (s.busRead (stackLoc (s.sp + 1))).2.mem, bus := s.bus ++ new }
    KeepsMemory s back new ∧
    (∃ t, exec .pla s = .next t ∧ t = { back with a := v, p := t.p } ∧ SetsZN v t.p ∧ KeepsFlags [.z, .n] s.p t.p) ∧
    exec .plp s = .next { back with p := v }

/-! ### Arithmetic, compare, increment and decrement -/

/-- R153, R152: ADC: the 9-bit sum, whatever D holds; V is the source's sign test, and is set exactly when the signed sum does not
fit. Decisions: log entries 22, 23.
Model's choice (log entry 37, DESIGN CHOICE): a print or an exit changes no memory; an open action of the host may (R70, log entry 38). -/
def Obligations.AdcAddsWithCarry : Prop :=
  AluEncodings .adc 0x69 0x65 0x75 0x6D 0x7D 0x79 0x61 0x71 ∧
  ∀ (o : Operand) (s : State),
    let m := s.readOperand o
    let c := (getFlag .c s.p).toNat
    let sum := s.a.toNat + m.1.toNat + c
    let signed := s.a.toInt + m.1.toInt + (c : Int)
    ∃ t, exec (.adc o) s = .next t ∧ t = { s with a := t.a, p := t.p, pc := pcPast s o, mem := m.2.mem, bus := m.2.bus } ∧
      KeepsMemory s t (t.since s) ∧
      t.a.toNat = sum % 256 ∧ getFlag .c t.p = decide (0xFF < sum) ∧
      getFlag .v t.p = decide (m.1.getLsbD 7 = s.a.getLsbD 7 ∧ t.a.getLsbD 7 ≠ s.a.getLsbD 7) ∧
      getFlag .v t.p = ((s.a ^^^ t.a) &&& (m.1 ^^^ t.a)).getLsbD 7 ∧
      (getFlag .v t.p = true ↔ signed < -128 ∨ 127 < signed) ∧
      SetsZN t.a t.p ∧ KeepsFlags [.c, .v, .z, .n] s.p t.p

/-- R154, R152: SBC: the difference with borrow, whatever D holds; V is the sign-mismatch test, and is set exactly when the signed
difference does not fit; the same results as ADC of the complemented operand. Decisions: log entries 22, 23.
Model's choice (log entry 37, DESIGN CHOICE): a print or an exit changes no memory; an open action of the host may (R70, log entry 38). -/
def Obligations.SbcSubtractsWithBorrow : Prop :=
  AluEncodings .sbc 0xE9 0xE5 0xF5 0xED 0xFD 0xF9 0xE1 0xF1 ∧
  (∀ (o : Operand) (s : State),
    let m := s.readOperand o
    let b : Int := 1 - ((getFlag .c s.p).toNat : Int)
    let d : Int := (s.a.toNat : Int) - m.1.toNat - b
    let signed := s.a.toInt - m.1.toInt - b
    ∃ t, exec (.sbc o) s = .next t ∧ t = { s with a := t.a, p := t.p, pc := pcPast s o, mem := m.2.mem, bus := m.2.bus } ∧
      KeepsMemory s t (t.since s) ∧
      (t.a.toNat : Int) = d % 256 ∧ getFlag .c t.p = decide (0 ≤ d) ∧
      getFlag .v t.p = decide (m.1.getLsbD 7 ≠ s.a.getLsbD 7 ∧ t.a.getLsbD 7 ≠ s.a.getLsbD 7) ∧
      getFlag .v t.p = ((s.a ^^^ m.1) &&& (s.a ^^^ t.a)).getLsbD 7 ∧
      (getFlag .v t.p = true ↔ signed < -128 ∨ 127 < signed) ∧
      SetsZN t.a t.p ∧ KeepsFlags [.c, .v, .z, .n] s.p t.p) ∧
  ∀ (v : Byte) (s t : State), exec (.sbc (.imm v)) s = .next t → exec (.adc (.imm (v ^^^ 0xFF))) s = .next t

/-- R155, R156, R157: CMP, CPX and CPY: the flags of the difference, no register, and C on entry not used.
Model's choice (log entry 37, DESIGN CHOICE): a print or an exit changes no memory; an open action of the host may (R70, log entry 38). -/
def Obligations.ComparesWriteFlagsOnly : Prop :=
  AluEncodings .cmp 0xC9 0xC5 0xD5 0xCD 0xDD 0xD9 0xC1 0xD1 ∧
  (∀ lo hi : Byte, Decodes [0xE0, lo] (.cpx (.imm lo)) ∧ Decodes [0xE4, lo] (.cpx (.zp lo)) ∧
    Decodes [0xEC, lo, hi] (.cpx (.abs (hi ++ lo))) ∧ Decodes [0xC0, lo] (.cpy (.imm lo)) ∧
    Decodes [0xC4, lo] (.cpy (.zp lo)) ∧ Decodes [0xCC, lo, hi] (.cpy (.abs (hi ++ lo)))) ∧
  ∀ (mk : Operand → Instr) (r : State → Byte),
    (mk, r) ∈ [(Instr.cmp, State.a), (Instr.cpx, State.x), (Instr.cpy, State.y)] →
    ∀ (o : Operand) (s : State),
      let m := s.readOperand o
      ∃ t, exec (mk o) s = .next t ∧ t = { s with p := t.p, pc := pcPast s o, mem := m.2.mem, bus := m.2.bus } ∧
        KeepsMemory s t (t.since s) ∧
        getFlag .c t.p = decide (m.1.toNat ≤ (r s).toNat) ∧ SetsZN (r s - m.1) t.p ∧ KeepsFlags [.c, .z, .n] s.p t.p

/-- R158 to R163: INC and DEC of a location, by one read and one write; INX, INY, DEX and DEY; all modulo 256.
Model's choice (log entries 3 and 37, DESIGN CHOICE): what a print or an exit leaves in memory; an open action of the host may leave
anything (R70, log entry 38). -/
def Obligations.IncrementsAndDecrementsWrap : Prop :=
  (∀ lo hi : Byte, Decodes [0xE6, lo] (.inc (.zp lo)) ∧ Decodes [0xF6, lo] (.inc (.zpX lo)) ∧
    Decodes [0xEE, lo, hi] (.inc (.abs (hi ++ lo))) ∧ Decodes [0xFE, lo, hi] (.inc (.absX (hi ++ lo))) ∧
    Decodes [0xC6, lo] (.dec (.zp lo)) ∧ Decodes [0xD6, lo] (.dec (.zpX lo)) ∧
    Decodes [0xCE, lo, hi] (.dec (.abs (hi ++ lo))) ∧ Decodes [0xDE, lo, hi] (.dec (.absX (hi ++ lo)))) ∧
  StepsMemoryBy .inc 0x01 ∧ StepsMemoryBy .dec 0xFF ∧
  Decodes [0xE8] .inx ∧ Decodes [0xC8] .iny ∧ Decodes [0xCA] .dex ∧ Decodes [0x88] .dey ∧
  ∀ s : State,
    (∃ t, exec .inx s = .next t ∧ FlaggedWrite s t { s with x := t.x } t.x ∧ t.x.toNat = (s.x.toNat + 1) % 256) ∧
    (∃ t, exec .iny s = .next t ∧ FlaggedWrite s t { s with y := t.y } t.y ∧ t.y.toNat = (s.y.toNat + 1) % 256) ∧
    (∃ t, exec .dex s = .next t ∧ FlaggedWrite s t { s with x := t.x } t.x ∧ t.x.toNat = (s.x.toNat + 255) % 256) ∧
    (∃ t, exec .dey s = .next t ∧ FlaggedWrite s t { s with y := t.y } t.y ∧ t.y.toNat = (s.y.toNat + 255) % 256)

/-! ### Logic, bit test, shifts and rotates -/

/-- R171, R172, R173: AND, ORA and EOR, bit by bit.
Model's choice (log entry 37, DESIGN CHOICE): a print or an exit changes no memory; an open action of the host may (R70, log entry 38). -/
def Obligations.LogicCombinesBits : Prop :=
  AluEncodings .and 0x29 0x25 0x35 0x2D 0x3D 0x39 0x21 0x31 ∧
  AluEncodings .ora 0x09 0x05 0x15 0x0D 0x1D 0x19 0x01 0x11 ∧
  AluEncodings .eor 0x49 0x45 0x55 0x4D 0x5D 0x59 0x41 0x51 ∧
  ∀ (mk : Operand → Instr) (f : Bool → Bool → Bool),
    (mk, f) ∈ [(Instr.and, Bool.and), (Instr.ora, Bool.or), (Instr.eor, Bool.xor)] →
    ∀ (o : Operand) (s : State),
      let m := s.readOperand o
      ∃ t, exec (mk o) s = .next t ∧ t = { s with a := t.a, p := t.p, pc := pcPast s o, mem := m.2.mem, bus := m.2.bus } ∧
        KeepsMemory s t (t.since s) ∧
        (∀ k < 8, t.a.getLsbD k = f (s.a.getLsbD k) (m.1.getLsbD k)) ∧ SetsZN t.a t.p ∧ KeepsFlags [.z, .n] s.p t.p

/-- R174: BIT: N and V from the operand, Z from `A & M`; A, C and memory unchanged.
Model's choice (log entry 37, DESIGN CHOICE): a print or an exit changes no memory; an open action of the host may (R70, log entry 38). -/
def Obligations.BitTestsTheOperand : Prop :=
  (∀ lo hi : Byte, Decodes [0x24, lo] (.bit (.zp lo)) ∧ Decodes [0x2C, lo, hi] (.bit (.abs (hi ++ lo)))) ∧
  (∀ b, Decodes [0x89] (.illegal b) ↔ b = 0x89) ∧
  ∀ (o : Operand) (s : State),
    let m := s.readOperand o
    ∃ t, exec (.bit o) s = .next t ∧ t = { s with p := t.p, pc := pcPast s o, mem := m.2.mem, bus := m.2.bus } ∧
      KeepsMemory s t (t.since s) ∧
      (getFlag .z t.p = true ↔ ∀ k < 8, (s.a.getLsbD k && m.1.getLsbD k) = false) ∧
      getFlag .n t.p = m.1.getLsbD 7 ∧ getFlag .v t.p = m.1.getLsbD 6 ∧ KeepsFlags [.n, .v, .z] s.p t.p

/-- R170, R175 to R178: ASL, LSR, ROL and ROR, of A or of a location: one bit position, the bit shifted out to C; a shift brings in 0,
a rotate the old C; LSR clears N.
Model's choice (log entries 3 and 37, DESIGN CHOICE): what a print or an exit leaves in memory; an open action of the host may leave
anything (R70, log entry 38). -/
def Obligations.ShiftsAndRotatesMoveOneBit : Prop :=
  ShiftEncodings .asl 0x0A 0x06 0x16 0x0E 0x1E ∧ ShiftEncodings .lsr 0x4A 0x46 0x56 0x4E 0x5E ∧
  ShiftsBy .asl (fun v _ => BitVec.ofNat 8 (2 * v.toNat)) (fun v => decide (128 ≤ v.toNat)) ∧
  ShiftsBy .lsr (fun v _ => BitVec.ofNat 8 (v.toNat / 2)) (fun v => decide (v.toNat % 2 = 1)) ∧
  ShiftEncodings .rol 0x2A 0x26 0x36 0x2E 0x3E ∧ ShiftEncodings .ror 0x6A 0x66 0x76 0x6E 0x7E ∧
  ShiftsBy .rol (fun v c => BitVec.ofNat 8 (2 * v.toNat + c.toNat)) (fun v => decide (128 ≤ v.toNat)) ∧
  ShiftsBy .ror (fun v c => BitVec.ofNat 8 (v.toNat / 2 + 128 * c.toNat)) (fun v => decide (v.toNat % 2 = 1)) ∧
  ∀ (o : Operand) (s t : State), (Instr.lsr o).wellFormed = true → exec (.lsr o) s = .next t → getFlag .n t.p = false

/-! ### Control flow -/

/-- R191 to R198: the eight conditional branches: the flag each tests, and the target, from the byte after the instruction. -/
def Obligations.BranchesTestTheirFlag : Prop :=
  BranchesOn .bcc 0x90 .c false ∧ BranchesOn .bcs 0xB0 .c true ∧ BranchesOn .beq 0xF0 .z true ∧
  BranchesOn .bne 0xD0 .z false ∧ BranchesOn .bmi 0x30 .n true ∧ BranchesOn .bpl 0x10 .n false ∧
  BranchesOn .bvc 0x50 .v false ∧ BranchesOn .bvs 0x70 .v true

/-- R190: a step of any conditional branch reads the displacement byte whether or not the branch is taken, changes PC only, and goes
to the signed displacement from the byte after the instruction, modulo 0x10000, if its condition holds.
Decisions: log entries 34, 36. -/
def Obligations.BranchStepReadsItsDisplacement : Prop :=
  ∀ (s : State) (opcode off : Byte) (f : Flag) (on : Bool), s.Running → s.Uninterrupted →
    (opcode, f, on) ∈ [(0x90, Flag.c, false), (0xB0, .c, true), (0xF0, .z, true), (0xD0, .z, false), (0x30, .n, true),
      (0x10, .n, false), (0x50, .v, false), (0x70, .v, true)] →
    s.host.intercepts s.pc = false → s.host.intercepts (s.pc + 1) = false →
    s.mem.peek s.pc.toNat = opcode → s.mem.peek (s.pc + 1).toNat = off →
    ∃ t, step s = .next t ∧
      t = { s with pc := t.pc, epoch := t.epoch, bus := [.read s.pc opcode, .read (s.pc + 1) off] } ∧
      (t.pc.toNat : Int) = ((s.pc.toNat : Int) + 2 + (if getFlag f s.p = on then off.toInt else 0)) % 65536

/-- R199: JMP: PC becomes the effective address, and nothing else changes but the record of the pointer's reads; in plain memory the
Indirect target's high byte comes from where `JMP_IND_PAGE_WRAP` says (R99). Log entry 1.
Model's choice (log entry 37, DESIGN CHOICE): a print or an exit changes no memory; an open action of the host may (R70, log entry 38). -/
def Obligations.JmpGoesToTheAddress : Prop :=
  (∀ lo hi : Byte, Decodes [0x4C, lo, hi] (.jmp (.abs (hi ++ lo))) ∧ Decodes [0x6C, lo, hi] (.jmp (.ind (hi ++ lo)))) ∧
  ∀ (s : State) (w : Addr),
    exec (.jmp (.abs w)) s = .next { s with pc := w } ∧
    (let e := s.effAddr (.ind w)
     exec (.jmp (.ind w)) s = .next { s with pc := e.1, mem := e.2.mem, bus := e.2.bus } ∧ KeepsMemory s e.2 (e.2.since s)) ∧
    let second : Addr := if Config.jmpIndPageWrap = true then w.extractLsb' 8 8 ++ (w.extractLsb' 0 8 + 1) else w + 1
    (s.host.intercepts w = false → s.host.intercepts second = false →
      ∃ t, exec (.jmp (.ind w)) s = .next t ∧ t.pc = s.mem.peek second.toNat ++ s.mem.peek w.toNat)

/-- R200: JSR pushes the address of its own last byte, high byte first, and goes to its target. Decision: log entry 21.
Model's choice (log entries 3 and 37, DESIGN CHOICE): what a print or an exit leaves in memory; an open action of the host may leave
anything (R70, log entry 38). -/
def Obligations.JsrPushesItsLastByte : Prop :=
  (∀ lo hi : Byte, Decodes [0x20, lo, hi] (.jsr (hi ++ lo))) ∧
  ∀ (s : State) (target : Addr),
    let ret := s.pc + 2
    let new : List BusAccess :=
      [.write (stackLoc s.sp) (ret.extractLsb' 8 8), .write (stackLoc (s.sp - 1)) (ret.extractLsb' 0 8)]
    ∃ t, exec (.jsr target) s = .next t ∧
      t = { s with sp := s.sp - 2, pc := target, mem := t.mem, exitCode := t.exitCode, bus := s.bus ++ new } ∧
      Stores s t new

/-- R201: RTS pulls an address, low byte first, and goes one past it. Decision: log entry 21.
Model's choice (log entry 37, DESIGN CHOICE): a print or an exit changes no memory; an open action of the host may (R70, log entry 38). -/
def Obligations.RtsPullsAndAddsOne : Prop :=
  Decodes [0x60] .rts ∧
  ∀ s : State,
    let lo := s.busRead (stackLoc (s.sp + 1))
    let hi := lo.2.busRead (stackLoc (s.sp + 2))
    let new : List BusAccess := [.read (stackLoc (s.sp + 1)) lo.1, .read (stackLoc (s.sp + 2)) hi.1]
    exec .rts s = .next { s with
      sp := s.sp + 2, pc := (hi.1 ++ lo.1) + 1, mem := hi.2.mem, bus := s.bus ++ new } ∧
    KeepsMemory s hi.2 new

/-! ### Flags, no operation, break, return, illegal -/

/-- R211 to R218: each flag instruction writes its one flag; NOP advances PC and does nothing else. -/
def Obligations.FlagInstructionsAndNop : Prop :=
  Decodes [0x18] .clc ∧ Decodes [0x38] .sec ∧ Decodes [0x58] .cli ∧ Decodes [0x78] .sei ∧ Decodes [0xD8] .cld ∧
  Decodes [0xF8] .sed ∧ Decodes [0xB8] .clv ∧ Decodes [0xEA] .nop ∧
  (∀ s : State, exec .nop s = .next { s with pc := s.pc + 1 }) ∧
  ∀ (i : Instr) (f : Flag) (v : Bool),
    (i, f, v) ∈ [(Instr.clc, Flag.c, false), (.sec, .c, true), (.cli, .i, false), (.sei, .i, true), (.cld, .d, false),
      (.sed, .d, true), (.clv, .v, false)] →
    ∀ s : State, ∃ t, exec i s = .next t ∧ t = { s with p := t.p, pc := s.pc + 1 } ∧
      getFlag f t.p = v ∧ KeepsFlags [f] s.p t.p

/-- R219: BRK: return address two past the opcode, status with B and U set, I set, through the IRQ vector.
Decisions: log entries 11, 16, 18.
Model's choice (log entries 3 and 37, DESIGN CHOICE): what a print or an exit leaves in memory; an open action of the host may leave
anything (R70, log entry 38). -/
def Obligations.BrkEntersThroughTheIrqVector : Prop :=
  Decodes [0x00] .brk ∧
  ∀ s : State,
    let ret := s.pc + 2
    ∃ (t : State) (lo hi : Byte),
      let new : List BusAccess := [.write (stackLoc s.sp) (ret.extractLsb' 8 8), .write (stackLoc (s.sp - 1)) (ret.extractLsb' 0 8),
        .write (stackLoc (s.sp - 2)) (s.p ||| 0x30), .read 0xFFFE lo, .read 0xFFFF hi]
      exec .brk s = .next t ∧
      t = { s with sp := s.sp - 3, p := t.p, pc := hi ++ lo, mem := t.mem, exitCode := t.exitCode, bus := s.bus ++ new } ∧
      Stores s t new ∧
      (Quiet s.host new → s.host.intercepts 0xFFFE = false → lo = s.mem.peek 0xFFFE) ∧
      (Quiet s.host new → s.host.intercepts 0xFFFF = false → hi = s.mem.peek 0xFFFF) ∧
      getFlag .i t.p = true ∧ KeepsFlags [.i] s.p t.p

/-- R220: RTI pulls P, all eight bits, then PC, to which nothing is added. Decision: log entry 17.
Model's choice (log entry 37, DESIGN CHOICE): a print or an exit changes no memory; an open action of the host may (R70, log entry 38). -/
def Obligations.RtiPullsStatusAndPC : Prop :=
  Decodes [0x40] .rti ∧
  ∀ s : State,
    let p := s.busRead (stackLoc (s.sp + 1))
    let lo := p.2.busRead (stackLoc (s.sp + 2))
    let hi := lo.2.busRead (stackLoc (s.sp + 3))
    let new : List BusAccess :=
      [.read (stackLoc (s.sp + 1)) p.1, .read (stackLoc (s.sp + 2)) lo.1, .read (stackLoc (s.sp + 3)) hi.1]
    exec .rti s = .next { s with
      sp := s.sp + 3, p := p.1, pc := hi.1 ++ lo.1, mem := hi.2.mem, bus := s.bus ++ new } ∧
    KeepsMemory s hi.2 new

/-- R221: ILLEGAL sets the halt latch, leaves PC past the opcode byte and changes nothing else; it reads no operand byte; and the
state it leaves takes no step. Decisions: log entries 7, 10. -/
def Obligations.IllegalHaltsTheCore : Prop :=
  (∀ b : Byte, isIllegalByte b = true → ∀ tail, decode (b :: tail) = .ok (.illegal b, tail)) ∧
  ∀ (b : Byte) (s : State), exec (.illegal b) s = .next { s with pc := s.pc + 1, halted := true } ∧
    ∀ u, step { s with pc := s.pc + 1, halted := true } ≠ .next u

/-! ### Reset and the host's requests -/

/-- R270, with the values of R40: reset, from any state: the table's values, PC from the reset vector by two reads, low byte first, and
no write, so that memory is unchanged where the host does not intercept the vector (R70: there its own action may change it).
Decisions: log entries 25, 29. -/
def Obligations.ResetLeavesTheTablesValues : Prop :=
  ∀ s : State, ∃ t lo hi, s.resetEvent = t ∧
    t = {
      a := 0x00, x := 0x00, y := 0x00, sp := 0xFD, p := 0x34, pc := hi ++ lo, halted := false, nmiPending := false,
      irqPending := false, mem := t.mem, host := s.host, exitCode := t.exitCode, epoch := t.epoch,
      bus := [.read 0xFFFC lo, .read 0xFFFD hi] } ∧
    (s.host.intercepts 0xFFFC = false → lo = s.mem.peek 0xFFFC) ∧
    (s.host.intercepts 0xFFFC = false → s.host.intercepts 0xFFFD = false → hi = s.mem.peek 0xFFFD ∧ t.mem = s.mem)

/-- R272, and the model's choices for it (log entries 4, 5, 29): `State.reset` is what the reset event leaves of any state with no
byte of memory listed and the source's address map, but for the number of the step; a reset begins a run, in which no exit has been
seen; I, B and U are the flags that are set. -/
def Obligations.ResetStateIsTheResetEvents : Prop :=
  (∀ s : State, s.mem = [] → s.host = HostMap.default → s.resetEvent = { State.reset with epoch := s.epoch + 1 }) ∧
  (∀ s : State, s.resetEvent.exitCode = none ∧ s.resetEvent.epoch = s.epoch + 1) ∧
  (∀ f, getFlag f State.reset.p = true ↔ f ∈ [Flag.i, .b, .u]) ∧ State.reset.Running ∧ State.reset.Uninterrupted

/-- R236, R237: RaiseNMI and RaiseIRQ set their latch and nothing else, and are not counted; the IRQ latch stays set until the IRQ is
taken or reset clears it. Decisions: log entries 14, 15. -/
def Obligations.RaisedRequestsAreLatchedOnce : Prop :=
  (∀ s : State, s.raiseNmi = { s with nmiPending := true } ∧ s.raiseNmi.raiseNmi = s.raiseNmi ∧
    s.raiseIrq = { s with irqPending := true } ∧ s.raiseIrq.raiseIrq = s.raiseIrq ∧ s.resetEvent.irqPending = false) ∧
  ∀ s t : State, s.irqPending = true → step s = .next t →
    t.irqPending = true ∨ (s.nmiPending = false ∧ getFlag .i s.p = false)
end

