-- ==== Sys2Proof/Laws/Memory.lean ====
section
/-! SUPPORT. Memory: a read after a write, in any memory, and that every memory operation keeps the canonical form. -/

namespace Sys2Proof.Machine

theorem peek_without_same (m : Memory) (a : Nat) : (m.without a).peek a = unlistedByte := by
  induction m with
  | nil => rfl
  | cons c rest ih =>
    obtain ⟨b, w⟩ := c
    by_cases h : a = b <;> simp [Memory.without, Memory.peek, h]
    · simpa [h] using ih
    · simpa using ih

theorem peek_without_other (m : Memory) {a b : Nat} (h : b ≠ a) : (m.without a).peek b = m.peek b := by
  induction m with
  | nil => rfl
  | cons c rest ih =>
    obtain ⟨k, w⟩ := c
    by_cases hk : a = k
    · have hb : b ≠ k := fun e => h (e.trans hk.symm)
      simpa [Memory.without, Memory.peek, hk, hb] using hk ▸ ih
    · by_cases hb : b = k <;> simp [Memory.without, Memory.peek, hk, hb]
      exact ih

theorem peek_withCell (m : Memory) (a b : Nat) (v : Byte) (h : m.peek a = unlistedByte ∨ b ≠ a) (hm : ∀ c ∈ m, c.1 ≠ a) :
    (m.withCell a v).peek b = if b = a then v else m.peek b := by
  induction m with
  | nil => by_cases hb : b = a <;> simp [Memory.withCell, Memory.peek, hb]
  | cons c rest ih =>
    obtain ⟨k, w⟩ := c
    have hk : k ≠ a := hm (k, w) (by simp)
    by_cases hlt : a < k
    · by_cases hb : b = a <;> simp [Memory.withCell, Memory.peek, hlt, hb]
    · simp only [Memory.withCell, hlt, if_false, Memory.peek]
      by_cases hbk : b = k
      · simp [hbk, hk]
      · simp only [hbk, if_false]
        refine ih ?_ (fun c hc => hm c (by simp [hc]))
        simpa [Memory.peek, hk.symm] using h

theorem without_keys (m : Memory) (a : Nat) : ∀ c ∈ m.without a, c.1 ≠ a ∧ c ∈ m := by
  induction m with
  | nil => simp [Memory.without]
  | cons c rest ih =>
    obtain ⟨b, w⟩ := c
    intro d hd
    by_cases h : a = b
    · rw [Memory.without, if_pos h] at hd
      exact ⟨(ih d hd).1, by simp [(ih d hd).2]⟩
    · rw [Memory.without, if_neg h, List.mem_cons] at hd
      rcases hd with rfl | hd
      · exact ⟨fun e => h e.symm, by simp⟩
      · exact ⟨(ih d hd).1, by simp [(ih d hd).2]⟩

/-- What every location holds after a write to one, in any memory. -/
theorem peek_poke (m : Memory) (a b : Nat) (v : Byte) : (m.poke a v).peek b = if b = a then v else m.peek b := by
  unfold Memory.poke
  by_cases hv : v = unlistedByte
  · by_cases hb : b = a
    · subst hb; simp [hv, peek_without_same]
    · simp [hv, hb, peek_without_other m hb]
  · rw [if_neg hv, peek_withCell _ a b v (.inl (peek_without_same m a)) (fun c hc => (without_keys m a c hc).1)]
    by_cases hb : b = a
    · simp [hb]
    · simp [hb, peek_without_other m hb]

@[simp] theorem peek_poke_same (m : Memory) (a : Nat) (v : Byte) : (m.poke a v).peek a = v := by simp [peek_poke]

theorem peek_poke_other (m : Memory) {a b : Nat} (v : Byte) (h : b ≠ a) : (m.poke a v).peek b = m.peek b := by
  simp [peek_poke, h]

/-- The canonical form, cell by cell. -/
theorem wf_cons (a : Nat) (v : Byte) (rest : Memory) :
    Memory.wf ((a, v) :: rest) = true ↔
      a < 0x10000 ∧ v ≠ unlistedByte ∧ (∀ c ∈ rest, a < c.1) ∧ Memory.wf rest = true := by
  simp [Memory.wf, and_assoc]

theorem wf_without (m : Memory) (a : Nat) (h : m.wf = true) : (m.without a).wf = true := by
  induction m with
  | nil => rfl
  | cons c rest ih =>
    obtain ⟨b, w⟩ := c
    obtain ⟨hb, hw, hr, hrest⟩ := (wf_cons b w rest).1 h
    by_cases hk : a = b
    · simpa [Memory.without, hk] using hk ▸ ih hrest
    · rw [Memory.without, if_neg hk]
      exact (wf_cons _ _ _).2 ⟨hb, hw, fun c hc => hr c (without_keys rest a c hc).2, ih hrest⟩

theorem withCell_keys (m : Memory) (a : Nat) (v : Byte) : ∀ c ∈ m.withCell a v, c = (a, v) ∨ c ∈ m := by
  induction m with
  | nil => simp [Memory.withCell]
  | cons c rest ih =>
    obtain ⟨b, w⟩ := c
    intro d hd
    by_cases h : a < b
    · rw [Memory.withCell, if_pos h, List.mem_cons] at hd
      exact hd
    · rw [Memory.withCell, if_neg h, List.mem_cons] at hd
      rcases hd with rfl | hd
      · exact .inr (by simp)
      · rcases ih d hd with rfl | hd
        · exact .inl rfl
        · exact .inr (by simp [hd])

theorem wf_withCell (m : Memory) (a : Nat) (v : Byte) (h : m.wf = true) (ha : a < 0x10000) (hv : v ≠ unlistedByte)
    (hm : ∀ c ∈ m, c.1 ≠ a) : (m.withCell a v).wf = true := by
  induction m with
  | nil => exact (wf_cons _ _ _).2 ⟨ha, hv, by simp, rfl⟩
  | cons c rest ih =>
    obtain ⟨b, w⟩ := c
    obtain ⟨hb, hw, hr, hrest⟩ := (wf_cons b w rest).1 h
    by_cases hlt : a < b
    · rw [Memory.withCell, if_pos hlt]
      refine (wf_cons _ _ _).2 ⟨ha, hv, ?_, h⟩
      intro c hc
      rcases List.mem_cons.1 hc with rfl | hc
      · exact hlt
      · exact hlt.trans (hr c hc)
    · rw [Memory.withCell, if_neg hlt]
      have hba : b < a := lt_of_le_of_ne (not_lt.1 hlt) (hm (b, w) (by simp))
      refine (wf_cons _ _ _).2 ⟨hb, hw, ?_, ih hrest (fun c hc => hm c (by simp [hc]))⟩
      intro c hc
      rcases withCell_keys rest a v c hc with rfl | hc
      · exact hba
      · exact hr c hc

/-- A write keeps the canonical form. -/
theorem wf_poke (m : Memory) (a : Addr) (v : Byte) (h : m.wf = true) : (m.poke a.toNat v).wf = true := by
  unfold Memory.poke
  split
  · exact wf_without m _ h
  · next hv =>
    exact wf_withCell _ _ v (wf_without m _ h) a.isLt hv (fun c hc => (without_keys m _ c hc).1)

/-- Writes one after another keep the canonical form. -/
theorem wf_pokeAll (m : Memory) (cells : List (Addr × Byte)) (h : m.wf = true) : (m.pokeAll cells).wf = true := by
  induction cells generalizing m with
  | nil => exact h
  | cons c rest ih => exact ih _ (wf_poke m c.1 c.2 h)

/-- A location that writes one after another change is among the written ones. -/
theorem peek_pokeAll (m : Memory) (cells : List (Addr × Byte)) (a : Addr) :
    (m.pokeAll cells).peek a.toNat = m.peek a.toNat ∨ ∃ v, (a, v) ∈ cells := by
  induction cells generalizing m with
  | nil => exact .inl rfl
  | cons c rest ih =>
    rcases ih (m.poke c.1.toNat c.2) with h | ⟨v, h⟩
    · by_cases hc : a = c.1
      · exact .inr ⟨c.2, by simp [hc]⟩
      · refine .inl (h.trans (peek_poke_other m c.2 fun e => hc (BitVec.eq_of_toNat_eq e)))
    · exact .inr ⟨v, List.mem_cons_of_mem _ h⟩

end Sys2Proof.Machine
end

