-- ==== Sys2Proof/Laws/State.lean ====
section
/-! SUPPORT. For each update of the state, what each field is afterwards: one lemma for each pair, true by `rfl`. -/

namespace Sys2Proof.Machine

variable (s : State)

@[simp] theorem setA_a (v : Byte) : (s.setA v).a = v := rfl
@[simp] theorem setA_x (v : Byte) : (s.setA v).x = s.x := rfl
@[simp] theorem setA_y (v : Byte) : (s.setA v).y = s.y := rfl
@[simp] theorem setA_sp (v : Byte) : (s.setA v).sp = s.sp := rfl
@[simp] theorem setA_p (v : Byte) : (s.setA v).p = s.p := rfl
@[simp] theorem setA_pc (v : Byte) : (s.setA v).pc = s.pc := rfl
@[simp] theorem setA_halted (v : Byte) : (s.setA v).halted = s.halted := rfl
@[simp] theorem setA_nmiPending (v : Byte) : (s.setA v).nmiPending = s.nmiPending := rfl
@[simp] theorem setA_irqPending (v : Byte) : (s.setA v).irqPending = s.irqPending := rfl
@[simp] theorem setA_mem (v : Byte) : (s.setA v).mem = s.mem := rfl
@[simp] theorem setA_host (v : Byte) : (s.setA v).host = s.host := rfl
@[simp] theorem setA_exitCode (v : Byte) : (s.setA v).exitCode = s.exitCode := rfl
@[simp] theorem setA_bus (v : Byte) : (s.setA v).bus = s.bus := rfl
@[simp] theorem setA_epoch (v : Byte) : (s.setA v).epoch = s.epoch := rfl

@[simp] theorem setX_a (v : Byte) : (s.setX v).a = s.a := rfl
@[simp] theorem setX_x (v : Byte) : (s.setX v).x = v := rfl
@[simp] theorem setX_y (v : Byte) : (s.setX v).y = s.y := rfl
@[simp] theorem setX_sp (v : Byte) : (s.setX v).sp = s.sp := rfl
@[simp] theorem setX_p (v : Byte) : (s.setX v).p = s.p := rfl
@[simp] theorem setX_pc (v : Byte) : (s.setX v).pc = s.pc := rfl
@[simp] theorem setX_halted (v : Byte) : (s.setX v).halted = s.halted := rfl
@[simp] theorem setX_nmiPending (v : Byte) : (s.setX v).nmiPending = s.nmiPending := rfl
@[simp] theorem setX_irqPending (v : Byte) : (s.setX v).irqPending = s.irqPending := rfl
@[simp] theorem setX_mem (v : Byte) : (s.setX v).mem = s.mem := rfl
@[simp] theorem setX_host (v : Byte) : (s.setX v).host = s.host := rfl
@[simp] theorem setX_exitCode (v : Byte) : (s.setX v).exitCode = s.exitCode := rfl
@[simp] theorem setX_bus (v : Byte) : (s.setX v).bus = s.bus := rfl
@[simp] theorem setX_epoch (v : Byte) : (s.setX v).epoch = s.epoch := rfl

@[simp] theorem setY_a (v : Byte) : (s.setY v).a = s.a := rfl
@[simp] theorem setY_x (v : Byte) : (s.setY v).x = s.x := rfl
@[simp] theorem setY_y (v : Byte) : (s.setY v).y = v := rfl
@[simp] theorem setY_sp (v : Byte) : (s.setY v).sp = s.sp := rfl
@[simp] theorem setY_p (v : Byte) : (s.setY v).p = s.p := rfl
@[simp] theorem setY_pc (v : Byte) : (s.setY v).pc = s.pc := rfl
@[simp] theorem setY_halted (v : Byte) : (s.setY v).halted = s.halted := rfl
@[simp] theorem setY_nmiPending (v : Byte) : (s.setY v).nmiPending = s.nmiPending := rfl
@[simp] theorem setY_irqPending (v : Byte) : (s.setY v).irqPending = s.irqPending := rfl
@[simp] theorem setY_mem (v : Byte) : (s.setY v).mem = s.mem := rfl
@[simp] theorem setY_host (v : Byte) : (s.setY v).host = s.host := rfl
@[simp] theorem setY_exitCode (v : Byte) : (s.setY v).exitCode = s.exitCode := rfl
@[simp] theorem setY_bus (v : Byte) : (s.setY v).bus = s.bus := rfl
@[simp] theorem setY_epoch (v : Byte) : (s.setY v).epoch = s.epoch := rfl

@[simp] theorem setSP_a (v : Byte) : (s.setSP v).a = s.a := rfl
@[simp] theorem setSP_x (v : Byte) : (s.setSP v).x = s.x := rfl
@[simp] theorem setSP_y (v : Byte) : (s.setSP v).y = s.y := rfl
@[simp] theorem setSP_sp (v : Byte) : (s.setSP v).sp = v := rfl
@[simp] theorem setSP_p (v : Byte) : (s.setSP v).p = s.p := rfl
@[simp] theorem setSP_pc (v : Byte) : (s.setSP v).pc = s.pc := rfl
@[simp] theorem setSP_halted (v : Byte) : (s.setSP v).halted = s.halted := rfl
@[simp] theorem setSP_nmiPending (v : Byte) : (s.setSP v).nmiPending = s.nmiPending := rfl
@[simp] theorem setSP_irqPending (v : Byte) : (s.setSP v).irqPending = s.irqPending := rfl
@[simp] theorem setSP_mem (v : Byte) : (s.setSP v).mem = s.mem := rfl
@[simp] theorem setSP_host (v : Byte) : (s.setSP v).host = s.host := rfl
@[simp] theorem setSP_exitCode (v : Byte) : (s.setSP v).exitCode = s.exitCode := rfl
@[simp] theorem setSP_bus (v : Byte) : (s.setSP v).bus = s.bus := rfl
@[simp] theorem setSP_epoch (v : Byte) : (s.setSP v).epoch = s.epoch := rfl

@[simp] theorem setP_a (v : Byte) : (s.setP v).a = s.a := rfl
@[simp] theorem setP_x (v : Byte) : (s.setP v).x = s.x := rfl
@[simp] theorem setP_y (v : Byte) : (s.setP v).y = s.y := rfl
@[simp] theorem setP_sp (v : Byte) : (s.setP v).sp = s.sp := rfl
@[simp] theorem setP_p (v : Byte) : (s.setP v).p = v := rfl
@[simp] theorem setP_pc (v : Byte) : (s.setP v).pc = s.pc := rfl
@[simp] theorem setP_halted (v : Byte) : (s.setP v).halted = s.halted := rfl
@[simp] theorem setP_nmiPending (v : Byte) : (s.setP v).nmiPending = s.nmiPending := rfl
@[simp] theorem setP_irqPending (v : Byte) : (s.setP v).irqPending = s.irqPending := rfl
@[simp] theorem setP_mem (v : Byte) : (s.setP v).mem = s.mem := rfl
@[simp] theorem setP_host (v : Byte) : (s.setP v).host = s.host := rfl
@[simp] theorem setP_exitCode (v : Byte) : (s.setP v).exitCode = s.exitCode := rfl
@[simp] theorem setP_bus (v : Byte) : (s.setP v).bus = s.bus := rfl
@[simp] theorem setP_epoch (v : Byte) : (s.setP v).epoch = s.epoch := rfl

@[simp] theorem setPC_a (v : Addr) : (s.setPC v).a = s.a := rfl
@[simp] theorem setPC_x (v : Addr) : (s.setPC v).x = s.x := rfl
@[simp] theorem setPC_y (v : Addr) : (s.setPC v).y = s.y := rfl
@[simp] theorem setPC_sp (v : Addr) : (s.setPC v).sp = s.sp := rfl
@[simp] theorem setPC_p (v : Addr) : (s.setPC v).p = s.p := rfl
@[simp] theorem setPC_pc (v : Addr) : (s.setPC v).pc = v := rfl
@[simp] theorem setPC_halted (v : Addr) : (s.setPC v).halted = s.halted := rfl
@[simp] theorem setPC_nmiPending (v : Addr) : (s.setPC v).nmiPending = s.nmiPending := rfl
@[simp] theorem setPC_irqPending (v : Addr) : (s.setPC v).irqPending = s.irqPending := rfl
@[simp] theorem setPC_mem (v : Addr) : (s.setPC v).mem = s.mem := rfl
@[simp] theorem setPC_host (v : Addr) : (s.setPC v).host = s.host := rfl
@[simp] theorem setPC_exitCode (v : Addr) : (s.setPC v).exitCode = s.exitCode := rfl
@[simp] theorem setPC_bus (v : Addr) : (s.setPC v).bus = s.bus := rfl
@[simp] theorem setPC_epoch (v : Addr) : (s.setPC v).epoch = s.epoch := rfl

@[simp] theorem setHalted_a (v : Bool) : (s.setHalted v).a = s.a := rfl
@[simp] theorem setHalted_x (v : Bool) : (s.setHalted v).x = s.x := rfl
@[simp] theorem setHalted_y (v : Bool) : (s.setHalted v).y = s.y := rfl
@[simp] theorem setHalted_sp (v : Bool) : (s.setHalted v).sp = s.sp := rfl
@[simp] theorem setHalted_p (v : Bool) : (s.setHalted v).p = s.p := rfl
@[simp] theorem setHalted_pc (v : Bool) : (s.setHalted v).pc = s.pc := rfl
@[simp] theorem setHalted_halted (v : Bool) : (s.setHalted v).halted = v := rfl
@[simp] theorem setHalted_nmiPending (v : Bool) : (s.setHalted v).nmiPending = s.nmiPending := rfl
@[simp] theorem setHalted_irqPending (v : Bool) : (s.setHalted v).irqPending = s.irqPending := rfl
@[simp] theorem setHalted_mem (v : Bool) : (s.setHalted v).mem = s.mem := rfl
@[simp] theorem setHalted_host (v : Bool) : (s.setHalted v).host = s.host := rfl
@[simp] theorem setHalted_exitCode (v : Bool) : (s.setHalted v).exitCode = s.exitCode := rfl
@[simp] theorem setHalted_bus (v : Bool) : (s.setHalted v).bus = s.bus := rfl
@[simp] theorem setHalted_epoch (v : Bool) : (s.setHalted v).epoch = s.epoch := rfl

@[simp] theorem setNmi_a (v : Bool) : (s.setNmi v).a = s.a := rfl
@[simp] theorem setNmi_x (v : Bool) : (s.setNmi v).x = s.x := rfl
@[simp] theorem setNmi_y (v : Bool) : (s.setNmi v).y = s.y := rfl
@[simp] theorem setNmi_sp (v : Bool) : (s.setNmi v).sp = s.sp := rfl
@[simp] theorem setNmi_p (v : Bool) : (s.setNmi v).p = s.p := rfl
@[simp] theorem setNmi_pc (v : Bool) : (s.setNmi v).pc = s.pc := rfl
@[simp] theorem setNmi_halted (v : Bool) : (s.setNmi v).halted = s.halted := rfl
@[simp] theorem setNmi_nmiPending (v : Bool) : (s.setNmi v).nmiPending = v := rfl
@[simp] theorem setNmi_irqPending (v : Bool) : (s.setNmi v).irqPending = s.irqPending := rfl
@[simp] theorem setNmi_mem (v : Bool) : (s.setNmi v).mem = s.mem := rfl
@[simp] theorem setNmi_host (v : Bool) : (s.setNmi v).host = s.host := rfl
@[simp] theorem setNmi_exitCode (v : Bool) : (s.setNmi v).exitCode = s.exitCode := rfl
@[simp] theorem setNmi_bus (v : Bool) : (s.setNmi v).bus = s.bus := rfl
@[simp] theorem setNmi_epoch (v : Bool) : (s.setNmi v).epoch = s.epoch := rfl

@[simp] theorem setIrq_a (v : Bool) : (s.setIrq v).a = s.a := rfl
@[simp] theorem setIrq_x (v : Bool) : (s.setIrq v).x = s.x := rfl
@[simp] theorem setIrq_y (v : Bool) : (s.setIrq v).y = s.y := rfl
@[simp] theorem setIrq_sp (v : Bool) : (s.setIrq v).sp = s.sp := rfl
@[simp] theorem setIrq_p (v : Bool) : (s.setIrq v).p = s.p := rfl
@[simp] theorem setIrq_pc (v : Bool) : (s.setIrq v).pc = s.pc := rfl
@[simp] theorem setIrq_halted (v : Bool) : (s.setIrq v).halted = s.halted := rfl
@[simp] theorem setIrq_nmiPending (v : Bool) : (s.setIrq v).nmiPending = s.nmiPending := rfl
@[simp] theorem setIrq_irqPending (v : Bool) : (s.setIrq v).irqPending = v := rfl
@[simp] theorem setIrq_mem (v : Bool) : (s.setIrq v).mem = s.mem := rfl
@[simp] theorem setIrq_host (v : Bool) : (s.setIrq v).host = s.host := rfl
@[simp] theorem setIrq_exitCode (v : Bool) : (s.setIrq v).exitCode = s.exitCode := rfl
@[simp] theorem setIrq_bus (v : Bool) : (s.setIrq v).bus = s.bus := rfl
@[simp] theorem setIrq_epoch (v : Bool) : (s.setIrq v).epoch = s.epoch := rfl

@[simp] theorem setMem_a (v : Memory) : (s.setMem v).a = s.a := rfl
@[simp] theorem setMem_x (v : Memory) : (s.setMem v).x = s.x := rfl
@[simp] theorem setMem_y (v : Memory) : (s.setMem v).y = s.y := rfl
@[simp] theorem setMem_sp (v : Memory) : (s.setMem v).sp = s.sp := rfl
@[simp] theorem setMem_p (v : Memory) : (s.setMem v).p = s.p := rfl
@[simp] theorem setMem_pc (v : Memory) : (s.setMem v).pc = s.pc := rfl
@[simp] theorem setMem_halted (v : Memory) : (s.setMem v).halted = s.halted := rfl
@[simp] theorem setMem_nmiPending (v : Memory) : (s.setMem v).nmiPending = s.nmiPending := rfl
@[simp] theorem setMem_irqPending (v : Memory) : (s.setMem v).irqPending = s.irqPending := rfl
@[simp] theorem setMem_mem (v : Memory) : (s.setMem v).mem = v := rfl
@[simp] theorem setMem_host (v : Memory) : (s.setMem v).host = s.host := rfl
@[simp] theorem setMem_exitCode (v : Memory) : (s.setMem v).exitCode = s.exitCode := rfl
@[simp] theorem setMem_bus (v : Memory) : (s.setMem v).bus = s.bus := rfl
@[simp] theorem setMem_epoch (v : Memory) : (s.setMem v).epoch = s.epoch := rfl

@[simp] theorem setHost_a (v : HostMap) : (s.setHost v).a = s.a := rfl
@[simp] theorem setHost_x (v : HostMap) : (s.setHost v).x = s.x := rfl
@[simp] theorem setHost_y (v : HostMap) : (s.setHost v).y = s.y := rfl
@[simp] theorem setHost_sp (v : HostMap) : (s.setHost v).sp = s.sp := rfl
@[simp] theorem setHost_p (v : HostMap) : (s.setHost v).p = s.p := rfl
@[simp] theorem setHost_pc (v : HostMap) : (s.setHost v).pc = s.pc := rfl
@[simp] theorem setHost_halted (v : HostMap) : (s.setHost v).halted = s.halted := rfl
@[simp] theorem setHost_nmiPending (v : HostMap) : (s.setHost v).nmiPending = s.nmiPending := rfl
@[simp] theorem setHost_irqPending (v : HostMap) : (s.setHost v).irqPending = s.irqPending := rfl
@[simp] theorem setHost_mem (v : HostMap) : (s.setHost v).mem = s.mem := rfl
@[simp] theorem setHost_host (v : HostMap) : (s.setHost v).host = v := rfl
@[simp] theorem setHost_exitCode (v : HostMap) : (s.setHost v).exitCode = s.exitCode := rfl
@[simp] theorem setHost_bus (v : HostMap) : (s.setHost v).bus = s.bus := rfl
@[simp] theorem setHost_epoch (v : HostMap) : (s.setHost v).epoch = s.epoch := rfl

@[simp] theorem setExit_a (v : Option Byte) : (s.setExit v).a = s.a := rfl
@[simp] theorem setExit_x (v : Option Byte) : (s.setExit v).x = s.x := rfl
@[simp] theorem setExit_y (v : Option Byte) : (s.setExit v).y = s.y := rfl
@[simp] theorem setExit_sp (v : Option Byte) : (s.setExit v).sp = s.sp := rfl
@[simp] theorem setExit_p (v : Option Byte) : (s.setExit v).p = s.p := rfl
@[simp] theorem setExit_pc (v : Option Byte) : (s.setExit v).pc = s.pc := rfl
@[simp] theorem setExit_halted (v : Option Byte) : (s.setExit v).halted = s.halted := rfl
@[simp] theorem setExit_nmiPending (v : Option Byte) : (s.setExit v).nmiPending = s.nmiPending := rfl
@[simp] theorem setExit_irqPending (v : Option Byte) : (s.setExit v).irqPending = s.irqPending := rfl
@[simp] theorem setExit_mem (v : Option Byte) : (s.setExit v).mem = s.mem := rfl
@[simp] theorem setExit_host (v : Option Byte) : (s.setExit v).host = s.host := rfl
@[simp] theorem setExit_exitCode (v : Option Byte) : (s.setExit v).exitCode = v := rfl
@[simp] theorem setExit_bus (v : Option Byte) : (s.setExit v).bus = s.bus := rfl
@[simp] theorem setExit_epoch (v : Option Byte) : (s.setExit v).epoch = s.epoch := rfl

@[simp] theorem setBus_a (v : List BusAccess) : (s.setBus v).a = s.a := rfl
@[simp] theorem setBus_x (v : List BusAccess) : (s.setBus v).x = s.x := rfl
@[simp] theorem setBus_y (v : List BusAccess) : (s.setBus v).y = s.y := rfl
@[simp] theorem setBus_sp (v : List BusAccess) : (s.setBus v).sp = s.sp := rfl
@[simp] theorem setBus_p (v : List BusAccess) : (s.setBus v).p = s.p := rfl
@[simp] theorem setBus_pc (v : List BusAccess) : (s.setBus v).pc = s.pc := rfl
@[simp] theorem setBus_halted (v : List BusAccess) : (s.setBus v).halted = s.halted := rfl
@[simp] theorem setBus_nmiPending (v : List BusAccess) : (s.setBus v).nmiPending = s.nmiPending := rfl
@[simp] theorem setBus_irqPending (v : List BusAccess) : (s.setBus v).irqPending = s.irqPending := rfl
@[simp] theorem setBus_mem (v : List BusAccess) : (s.setBus v).mem = s.mem := rfl
@[simp] theorem setBus_host (v : List BusAccess) : (s.setBus v).host = s.host := rfl
@[simp] theorem setBus_exitCode (v : List BusAccess) : (s.setBus v).exitCode = s.exitCode := rfl
@[simp] theorem setBus_bus (v : List BusAccess) : (s.setBus v).bus = v := rfl
@[simp] theorem setBus_epoch (v : List BusAccess) : (s.setBus v).epoch = s.epoch := rfl

@[simp] theorem setEpoch_a (v : Nat) : (s.setEpoch v).a = s.a := rfl
@[simp] theorem setEpoch_x (v : Nat) : (s.setEpoch v).x = s.x := rfl
@[simp] theorem setEpoch_y (v : Nat) : (s.setEpoch v).y = s.y := rfl
@[simp] theorem setEpoch_sp (v : Nat) : (s.setEpoch v).sp = s.sp := rfl
@[simp] theorem setEpoch_p (v : Nat) : (s.setEpoch v).p = s.p := rfl
@[simp] theorem setEpoch_pc (v : Nat) : (s.setEpoch v).pc = s.pc := rfl
@[simp] theorem setEpoch_halted (v : Nat) : (s.setEpoch v).halted = s.halted := rfl
@[simp] theorem setEpoch_nmiPending (v : Nat) : (s.setEpoch v).nmiPending = s.nmiPending := rfl
@[simp] theorem setEpoch_irqPending (v : Nat) : (s.setEpoch v).irqPending = s.irqPending := rfl
@[simp] theorem setEpoch_mem (v : Nat) : (s.setEpoch v).mem = s.mem := rfl
@[simp] theorem setEpoch_host (v : Nat) : (s.setEpoch v).host = s.host := rfl
@[simp] theorem setEpoch_exitCode (v : Nat) : (s.setEpoch v).exitCode = s.exitCode := rfl
@[simp] theorem setEpoch_bus (v : Nat) : (s.setEpoch v).bus = s.bus := rfl
@[simp] theorem setEpoch_epoch (v : Nat) : (s.setEpoch v).epoch = v := rfl

end Sys2Proof.Machine
end

