-- ==== Sys2Proof/Laws/Bus.lean ====
section
/-! SUPPORT. One lemma for each operation on the bus, the stack and the interrupt entry, that says everything it can do. -/

namespace Sys2Proof.Machine

theorem logged_eq (s : State) (x : BusAccess) : s.logged x = s.setBus (s.bus ++ [x]) := rfl

@[simp] theorem busRead_fst (s : State) (a : Addr) : (s.busRead a).1 = s.busByte a := rfl

/-! ### The host's action -/

/-- An address the host does not intercept has no open action. -/
theorem isDevice_plain {h : HostMap} {a : Addr} (hi : h.intercepts a = false) : h.isDevice a = false := by
  simp only [HostMap.intercepts, Option.isSome_eq_false_iff, Option.isNone_iff_eq_none] at hi
  simp [HostMap.isDevice, hi]

/-- Without an open action the host does nothing more to memory. -/
theorem memAfterAction_quiet {s : State} {x : BusAccess} (h : s.host.isDevice x.addr = false) (m : Memory) :
    s.memAfterAction x m = m := by
  simp [State.memAfterAction, h]

/-- All the host's action can do to a location: put a byte of its own there, by an open action. -/
theorem peek_memAfterAction (s : State) (x : BusAccess) (m : Memory) (a : Addr) :
    (s.memAfterAction x m).peek a.toNat = m.peek a.toNat ∨
      s.host.isDevice x.addr = true ∧ ∃ v, (a, v) ∈ Config.deviceStores s.epoch s.bus x := by
  unfold State.memAfterAction
  split
  · next h => exact (peek_pokeAll m _ a).imp id fun hv => ⟨h, hv⟩
  · exact .inl rfl

/-- The host's action keeps the canonical form. -/
theorem wf_memAfterAction (s : State) (x : BusAccess) (m : Memory) (h : m.wf = true) : (s.memAfterAction x m).wf = true := by
  unfold State.memAfterAction
  split
  · exact wf_pokeAll m _ h
  · exact h

/-! ### Reads and writes -/

/-- A read changes the record of the bus and, by an open action of the host, memory (R52, R70). -/
@[simp] theorem busRead_snd (s : State) (a : Addr) :
    (s.busRead a).2 = (s.setMem (s.memAfterRead a)).setBus (s.bus ++ [.read a (s.busByte a)]) := rfl

/-- At an address the host does not intercept a read returns the location's byte (R52). -/
theorem busByte_plain {s : State} {a : Addr} (h : s.host.intercepts a = false) : s.busByte a = s.mem.peek a.toNat := by
  simp [State.busByte, h]

/-- A read without an open action of the host leaves memory alone (R70). -/
theorem memAfterRead_quiet {s : State} {a : Addr} (h : s.host.isDevice a = false) : s.memAfterRead a = s.mem :=
  memAfterAction_quiet h _

/-- A write changes memory, the record of the bus and, at an address that ends the run, the exit code (R53, R251). -/
theorem busWrite_eq (s : State) (a : Addr) (v : Byte) :
    s.busWrite a v =
      { s with mem := s.memAfterWrite a v, exitCode := s.exitAfterWrite a v, bus := s.bus ++ [.write a v] } := rfl

/-- A write to an address the host does not intercept (R53). -/
theorem memAfterWrite_plain {s : State} {a : Addr} (h : s.host.intercepts a = false) (v : Byte) :
    s.memAfterWrite a v = s.mem.poke a.toNat v := by
  rw [State.memAfterWrite, memAfterAction_quiet (by exact isDevice_plain h)]
  simp [h]

/-- A write without an open action of the host leaves every other location alone. -/
theorem memAfterWrite_other {s : State} {a : Addr} {b : Nat} (hd : s.host.isDevice a = false) (v : Byte) (h : b ≠ a.toNat) :
    (s.memAfterWrite a v).peek b = s.mem.peek b := by
  rw [State.memAfterWrite, memAfterAction_quiet (by exact hd)]
  split
  · rfl
  · exact peek_poke_other _ v h

/-- A read keeps the canonical form. -/
theorem memAfterRead_wf (s : State) (a : Addr) (h : s.mem.wf = true) : (s.memAfterRead a).wf = true := wf_memAfterAction s _ _ h

/-- A write keeps the canonical form. -/
theorem memAfterWrite_wf (s : State) (a : Addr) (v : Byte) (h : s.mem.wf = true) : (s.memAfterWrite a v).wf = true := by
  refine wf_memAfterAction s _ _ ?_
  split
  · exact h
  · exact wf_poke _ a v h

/-- A write ends the run at an exit address (R251), and nowhere but there and at an open action. -/
theorem exitAfterWrite_quiet {s : State} {a : Addr} (h : s.host.isDevice a = false) (v : Byte) :
    s.exitAfterWrite a v = if s.host.actionAt a = some .exit then some v else s.exitCode := by
  unfold State.exitAfterWrite
  cases ha : s.host.actionAt a with
  | none => simp
  | some x => cases x <;> simp_all [HostMap.isDevice]

/-- `MemRead16` (R56). -/
theorem busRead16_eq (s : State) (a : Addr) :
    s.busRead16 a =
      let t := (s.busRead a).2
      (pair (t.busByte (a + 1)) (s.busByte a),
        (s.setMem (t.memAfterRead (a + 1))).setBus (s.bus ++ [.read a (s.busByte a), .read (a + 1) (t.busByte (a + 1))])) := by
  simp [State.busRead16, State.setBus, State.setMem]

/-- `MemRead16ZP` (R57). -/
theorem busRead16ZP_eq (s : State) (z : Byte) :
    s.busRead16ZP z =
      let t := (s.busRead (zeroPage z)).2
      (pair (t.busByte (zeroPage (z + 1))) (s.busByte (zeroPage z)),
        (s.setMem (t.memAfterRead (zeroPage (z + 1)))).setBus (s.bus ++
          [.read (zeroPage z) (s.busByte (zeroPage z)), .read (zeroPage (z + 1)) (t.busByte (zeroPage (z + 1)))])) := by
  simp [State.busRead16ZP, State.setBus, State.setMem]

/-- `Push` (R60). -/
theorem push_eq (s : State) (v : Byte) :
    s.push v =
      { s with
        sp := s.sp - 1
        mem := s.memAfterWrite (stackAddr s.sp) v
        exitCode := s.exitAfterWrite (stackAddr s.sp) v
        bus := s.bus ++ [.write (stackAddr s.sp) v] } := rfl

/-- `Pull` (R61). -/
theorem pull_eq (s : State) :
    s.pull =
      (s.busByte (stackAddr (s.sp + 1)),
        { s with
          sp := s.sp + 1
          mem := s.memAfterRead (stackAddr (s.sp + 1))
          bus := s.bus ++ [.read (stackAddr (s.sp + 1)) (s.busByte (stackAddr (s.sp + 1)))] }) := rfl

/-- A read does not look at SP, P, PC or the other registers: only at the host, memory and the history. -/
theorem busByte_congr {s t : State} (hh : t.host = s.host) (hm : t.mem = s.mem) (he : t.epoch = s.epoch) (hb : t.bus = s.bus)
    (a : Addr) : t.busByte a = s.busByte a := by
  simp [State.busByte, hh, hm, he, hb]

/-- Nor does what the host does during it. -/
theorem memAfterRead_congr {s t : State} (hh : t.host = s.host) (hm : t.mem = s.mem) (he : t.epoch = s.epoch) (hb : t.bus = s.bus)
    (a : Addr) : t.memAfterRead a = s.memAfterRead a := by
  simp [State.memAfterRead, State.memAfterAction, busByte_congr hh hm he hb, hh, hm, he, hb]

/-- A 16-bit pull (R201): the low byte, then the high byte. -/
theorem pull16_eq (s : State) :
    let t := (s.busRead (stackAddr (s.sp + 1))).2
    let lo := s.busByte (stackAddr (s.sp + 1))
    let hi := t.busByte (stackAddr (s.sp + 1 + 1))
    s.pull16 =
      (pair hi lo,
        { s with
          sp := s.sp + 1 + 1
          mem := t.memAfterRead (stackAddr (s.sp + 1 + 1))
          bus := s.bus ++ [.read (stackAddr (s.sp + 1)) lo, .read (stackAddr (s.sp + 1 + 1)) hi] }) := by
  intro t lo hi
  have hb (a : Addr) : s.pull.2.busByte a = t.busByte a := busByte_congr rfl rfl rfl rfl a
  have hm (a : Addr) : s.pull.2.memAfterRead a = t.memAfterRead a := memAfterRead_congr rfl rfl rfl rfl a
  have h : s.pull16 = (pair s.pull.2.pull.1 s.pull.1, s.pull.2.pull.2) := rfl
  rw [h, pull_eq s.pull.2, hb, hm]
  simp [pull_eq, hi, lo]

/-- The stack location is in the stack page (R62). -/
theorem stackAddr_toNat (sp : Byte) : (stackAddr sp).toNat = 0x100 + sp.toNat := by
  have h := sp.isLt
  simp [stackAddr, stackPage, BitVec.toNat_add, BitVec.toNat_setWidth]
  omega

theorem stackAddr_inj {p q : Byte} (h : stackAddr p = stackAddr q) : p = q := by
  have := congrArg BitVec.toNat h
  rw [stackAddr_toNat, stackAddr_toNat] at this
  exact BitVec.eq_of_toNat_eq (by omega)

theorem getLsbD_pair (hi lo : Byte) (i : Nat) :
    (pair hi lo).getLsbD i = if i < 8 then lo.getLsbD i else hi.getLsbD (i - 8) :=
  BitVec.getLsbD_append

/-- Two bytes make one address, and an address is its two bytes. -/
@[simp] theorem pair_hi_lo (w : Addr) : pair (hiByte w) (loByte w) = w := by
  refine BitVec.eq_of_getLsbD_eq fun i hi => ?_
  rw [getLsbD_pair]
  simp only [hiByte, loByte, BitVec.getLsbD_extractLsb']
  by_cases h : i < 8
  · simp [h]
  · simp [h, show i - 8 < 8 by omega, show 8 + (i - 8) = i by omega]

@[simp] theorem loByte_pair (hi lo : Byte) : loByte (pair hi lo) = lo := by
  refine BitVec.eq_of_getLsbD_eq fun i h => ?_
  rw [loByte, BitVec.getLsbD_extractLsb', getLsbD_pair]
  simp [h]

@[simp] theorem hiByte_pair (hi lo : Byte) : hiByte (pair hi lo) = hi := by
  refine BitVec.eq_of_getLsbD_eq fun i h => ?_
  rw [hiByte, BitVec.getLsbD_extractLsb', getLsbD_pair]
  simp [h]

end Sys2Proof.Machine
end

