-- ==== Sys2Proof/Laws/Flags.lean ====
section
/-! SUPPORT. What each flag is after each flag computation. -/

namespace Sys2Proof.Machine

theorem getFlag_putFlag (f g : Flag) (v : Bool) (p : Byte) :
    getFlag g (putFlag f v p) = if g = f then v else getFlag g p := by
  cases v <;> cases f <;> cases g <;> simp [getFlag, putFlag, flagMask, flagBit]

@[simp] theorem getFlag_putFlag_same (f : Flag) (v : Bool) (p : Byte) : getFlag f (putFlag f v p) = v := by
  simp [getFlag_putFlag]

@[simp] theorem getFlag_putFlag_other {f g : Flag} (h : g ≠ f) (v : Bool) (p : Byte) :
    getFlag g (putFlag f v p) = getFlag g p := by
  simp [getFlag_putFlag, h]

/-- Two status bytes with the same eight flags are equal. -/
theorem status_ext {p q : Byte} (h : ∀ f, getFlag f p = getFlag f q) : p = q := by
  apply BitVec.eq_of_getLsbD_eq
  intro k hk
  have hc := h .c; have hz := h .z; have hi := h .i; have hd := h .d
  have hb := h .b; have hu := h .u; have hv := h .v; have hn := h .n
  simp only [getFlag, flagBit] at hc hz hi hd hb hu hv hn
  rcases k with _ | _ | _ | _ | _ | _ | _ | _ | k <;> first | assumption | omega

theorem getFlag_zn (f : Flag) (r p : Byte) :
    getFlag f (zn r p) = if f = .n then r.getLsbD 7 else if f = .z then decide (r = 0) else getFlag f p := by
  simp [zn, getFlag_putFlag]

theorem getFlag_aluFlags (f : Flag) (o : AluOut) (p : Byte) :
    getFlag f (aluFlags o p) =
      if f = .n then o.r.getLsbD 7 else if f = .z then decide (o.r = 0)
      else if f = .v then o.v else if f = .c then o.c else getFlag f p := by
  simp [aluFlags, getFlag_zn, getFlag_putFlag]

theorem getFlag_compareFlags (f : Flag) (reg m p : Byte) :
    getFlag f (compareFlags reg m p) =
      if f = .n then (reg - m).getLsbD 7 else if f = .z then decide (reg - m = 0)
      else if f = .c then decide (m.toNat ≤ reg.toNat) else getFlag f p := by
  simp [compareFlags, getFlag_zn, getFlag_putFlag]

theorem getFlag_bitFlags (f : Flag) (a m p : Byte) :
    getFlag f (bitFlags a m p) =
      if f = .v then m.getLsbD 6 else if f = .n then m.getLsbD 7
      else if f = .z then decide (a &&& m = 0) else getFlag f p := by
  simp [bitFlags, getFlag_putFlag]

theorem getFlag_shiftFlags (f : Flag) (o : ShiftOut) (p : Byte) :
    getFlag f (shiftFlags o p) =
      if f = .n then o.r.getLsbD 7 else if f = .z then decide (o.r = 0) else if f = .c then o.c else getFlag f p := by
  simp [shiftFlags, getFlag_zn, getFlag_putFlag]

/-- What PHP and BRK push: B and U set, the rest as stored. -/
theorem getFlag_softwarePush (f : Flag) (p : Byte) : getFlag f (softwarePush p) = (f == .b || f == .u || getFlag f p) := by
  cases f <;> simp [softwarePush, getFlag, flagBit]

/-- What an interrupt entry pushes: B clear, the rest as stored. -/
theorem getFlag_interruptPush (f : Flag) (p : Byte) : getFlag f (interruptPush p) = (f != .b && getFlag f p) := by
  cases f <;> simp [interruptPush, getFlag, flagBit]

end Sys2Proof.Machine
end

