-- ==== Sys2Proof/Laws/Operands.lean ====
section
/-! SUPPORT. One lemma for each way an operation reaches its operand, that says everything it can do. -/

namespace Sys2Proof.Machine

/-- Finding the effective address makes at most two reads, and changes nothing but what the host changes in memory during them (R70,
R99 to R101). -/
theorem effAddr_snd (s : State) (o : Operand) :
    ∃ (m : Memory) (reads : List BusAccess), (s.effAddr o).2 = (s.setMem m).setBus (s.bus ++ reads) ∧ reads.length ≤ 2 ∧
      ∀ x ∈ reads, ∃ a v, x = .read a v := by
  have none : ∃ (m : Memory) (reads : List BusAccess), s = (s.setMem m).setBus (s.bus ++ reads) ∧ reads.length ≤ 2 ∧
      ∀ x ∈ reads, ∃ a v, x = .read a v := ⟨s.mem, [], by rw [List.append_nil]; rfl, by simp, by simp⟩
  have two (m : Memory) (a b : Addr) (v w : Byte) :
      ∃ (m' : Memory) (reads : List BusAccess),
        (s.setMem m).setBus (s.bus ++ [.read a v, .read b w]) = (s.setMem m').setBus (s.bus ++ reads) ∧ reads.length ≤ 2 ∧
          ∀ x ∈ reads, ∃ a v, x = .read a v := ⟨m, [.read a v, .read b w], rfl, by simp, by simp⟩
  cases o with
  | acc | imm v | zp z | zpX z | zpY z | abs w | absX w | absY w => exact none
  | ind w =>
    have h : (s.effAddr (.ind w)).2 = (s.setMem ((s.busRead w).2.memAfterRead (indirectHigh w))).setBus
        (s.bus ++ [.read w (s.busByte w), .read (indirectHigh w) ((s.busRead w).2.busByte (indirectHigh w))]) := by
      simp [State.effAddr, State.setBus, State.setMem]
    rw [h]
    exact two _ _ _ _ _
  | indX z =>
    simp only [State.effAddr, busRead16ZP_eq]
    exact two _ _ _ _ _
  | indY z =>
    simp only [State.effAddr, busRead16ZP_eq]
    exact two _ _ _ _ _

/-- The addressing-mode routine moves PC past the instruction, and reads at most two bytes. -/
theorem locate_snd (s : State) (o : Operand) :
    ∃ (m : Memory) (reads : List BusAccess),
      (s.locate o).2 =
        ((s.setMem m).setBus (s.bus ++ reads)).setPC (s.pc + BitVec.ofNat 16 (modeLength o.mode)) ∧ reads.length ≤ 2 ∧
      ∀ x ∈ reads, ∃ a v, x = .read a v := by
  obtain ⟨m, reads, h, hl, hr⟩ := effAddr_snd s o
  exact ⟨m, reads, by simp [State.locate, State.pastOperand, State.advance, h], hl, hr⟩

@[simp] theorem locate_fst (s : State) (o : Operand) : (s.locate o).1 = (s.effAddr o).1 := rfl

/-- The operand is a location of memory: neither A nor the operand byte itself. -/
def Operand.inMemory (o : Operand) : Prop := o.mode ≠ .accumulator ∧ o.mode ≠ .immediate

theorem readOperand_mem (s : State) {o : Operand} (h : Operand.inMemory o) :
    s.readOperand o = (s.locate o).2.busRead (s.locate o).1 := by
  cases o <;> first | rfl | exact absurd rfl h.1 | exact absurd rfl h.2

theorem writeOperand_mem (s : State) {o : Operand} (h : o.mode ≠ .accumulator) (v : Byte) :
    s.writeOperand o v = (s.locate o).2.busWrite (s.locate o).1 v := by
  cases o <;> first | rfl | exact absurd rfl h

theorem modifyOperand_mem (s : State) {o : Operand} (h : o.mode ≠ .accumulator) (f : Byte → Byte) :
    s.modifyOperand o f =
      (((s.locate o).2.busRead (s.locate o).1).1,
        ((s.locate o).2.busRead (s.locate o).1).2.busWrite (s.locate o).1 (f ((s.locate o).2.busRead (s.locate o).1).1)) := by
  cases o <;> first | rfl | exact absurd rfl h

/-- Reading an operand moves PC past the instruction and makes at most three reads, and changes nothing but what the host changes in
memory during them (R70, R102). -/
theorem readOperand_snd (s : State) (o : Operand) :
    ∃ (m : Memory) (reads : List BusAccess),
      (s.readOperand o).2 =
        ((s.setMem m).setBus (s.bus ++ reads)).setPC (s.pc + BitVec.ofNat 16 (modeLength o.mode)) ∧ reads.length ≤ 3 ∧
      ∀ x ∈ reads, ∃ a v, x = .read a v := by
  by_cases hm : Operand.inMemory o
  · obtain ⟨m, reads, h, hl, hr⟩ := locate_snd s o
    refine ⟨(s.locate o).2.memAfterRead (s.locate o).1,
      reads ++ [.read (s.locate o).1 ((s.locate o).2.busByte (s.locate o).1)], ?_, by simp; omega, ?_⟩
    · rw [readOperand_mem s hm, busRead_snd, h]
      simp [State.setBus, State.setPC, State.setMem]
    · intro x hx
      rcases List.mem_append.1 hx with hx | hx
      · exact hr x hx
      · exact ⟨_, _, List.mem_singleton.1 hx⟩
  · refine ⟨s.mem, [], ?_, by simp, by simp⟩
    have : o.mode = .accumulator ∨ o.mode = .immediate := by
      simpa [Operand.inMemory, or_iff_not_imp_left] using hm
    cases o <;> simp [Operand.mode] at this <;>
      simp [State.readOperand, State.pastOperand, State.advance, State.setBus, State.setMem]

end Sys2Proof.Machine
end

