-- ==== Sys2Proof/Laws/Frames.lean ====
section
/-! SUPPORT. What the shared operations leave unchanged, in the words of `Sys2Proof/Safety.lean`: the flags each flag computation
keeps, the state after an operand is found, read, written or modified, and what one write to the bus stores. -/

namespace Sys2Proof.Machine

/-! ### Flags -/

theorem keepsFlags_putFlag (f : Flag) (v : Bool) (p : Byte) : KeepsFlags [f] p (putFlag f v p) := by
  intro g hg
  rw [getFlag_putFlag, if_neg (by simpa using hg)]

theorem setsZN_zn (r p : Byte) : SetsZN r (zn r p) := by simp [SetsZN, getFlag_zn]

theorem keepsFlags_zn (r p : Byte) : KeepsFlags [.z, .n] p (zn r p) := by
  intro g hg
  simp only [List.mem_cons, List.not_mem_nil, or_false, not_or] at hg
  simp [getFlag_zn, hg]

theorem setsZN_aluFlags (o : AluOut) (p : Byte) : SetsZN o.r (aluFlags o p) := by simp [SetsZN, getFlag_aluFlags]

theorem keepsFlags_aluFlags (o : AluOut) (p : Byte) : KeepsFlags [.c, .v, .z, .n] p (aluFlags o p) := by
  intro g hg
  simp only [List.mem_cons, List.not_mem_nil, or_false, not_or] at hg
  simp [getFlag_aluFlags, hg]

theorem setsZN_compareFlags (reg m p : Byte) : SetsZN (reg - m) (compareFlags reg m p) := by
  simp [SetsZN, getFlag_compareFlags]

theorem keepsFlags_compareFlags (reg m p : Byte) : KeepsFlags [.c, .z, .n] p (compareFlags reg m p) := by
  intro g hg
  simp only [List.mem_cons, List.not_mem_nil, or_false, not_or] at hg
  simp [getFlag_compareFlags, hg]

theorem keepsFlags_bitFlags (a m p : Byte) : KeepsFlags [.n, .v, .z] p (bitFlags a m p) := by
  intro g hg
  simp only [List.mem_cons, List.not_mem_nil, or_false, not_or] at hg
  simp [getFlag_bitFlags, hg]

theorem setsZN_shiftFlags (o : ShiftOut) (p : Byte) : SetsZN o.r (shiftFlags o p) := by simp [SetsZN, getFlag_shiftFlags]

theorem keepsFlags_shiftFlags (o : ShiftOut) (p : Byte) : KeepsFlags [.c, .z, .n] p (shiftFlags o p) := by
  intro g hg
  simp only [List.mem_cons, List.not_mem_nil, or_false, not_or] at hg
  simp [getFlag_shiftFlags, hg]

theorem stackLoc_eq (sp : Byte) : stackLoc sp = stackAddr sp := rfl

/-! ### Operands -/

/-- Finding the effective address changes only the record of the bus and what the host changes in memory. -/
theorem effAddr_state (s : State) (o : Operand) :
    (s.effAddr o).2 = { s with mem := (s.effAddr o).2.mem, bus := (s.effAddr o).2.bus } := by
  obtain ⟨m, reads, h, -⟩ := effAddr_snd s o
  rw [h]
  rfl

/-- The addressing-mode routine changes only PC, the record of the bus and what the host changes in memory. -/
theorem locate_state (s : State) (o : Operand) :
    (s.locate o).2 = { s with pc := pcPast s o, mem := (s.effAddr o).2.mem, bus := (s.effAddr o).2.bus } := by
  obtain ⟨m, reads, h, -⟩ := effAddr_snd s o
  simp only [State.locate, State.pastOperand, State.advance, h]
  rfl

/-- Reading an operand changes only PC, the record of the bus and what the host changes in memory. -/
theorem readOperand_state (s : State) (o : Operand) :
    (s.readOperand o).2 =
      { s with pc := pcPast s o, mem := (s.readOperand o).2.mem, bus := (s.readOperand o).2.bus } := by
  obtain ⟨m, reads, h, -⟩ := readOperand_snd s o
  rw [h]
  rfl

/-! ### The words of `Sys2Proof/Safety.lean` about accesses -/

@[simp] theorem since_append {s t : State} {new : List BusAccess} (h : t.bus = s.bus ++ new) : t.since s = new := by
  simp [State.since, h]

theorem quiet_append {h : HostMap} {b c : List BusAccess} : Quiet h (b ++ c) ↔ Quiet h b ∧ Quiet h c := by
  simp [Quiet, or_imp, forall_and]

theorem quiet_cons {h : HostMap} {x : BusAccess} {b : List BusAccess} :
    Quiet h (x :: b) ↔ h.isDevice x.addr = false ∧ Quiet h b := by
  simp [Quiet]

/-- Without an open action the host puts no byte of its own in memory. -/
theorem Quiet.no_store {s : State} {new : List BusAccess} (h : Quiet s.host new) (a : Addr) (v : Byte) :
    ¬ DeviceStores s new a v := by
  rintro ⟨before, x, after, rfl, hd, -⟩
  exact Bool.noConfusion (hd.symm.trans (h x (by simp)))

/-- What the host stores in some of the accesses it stores in all of them. -/
theorem DeviceStores.left {s : State} {b : List BusAccess} {a : Addr} {v : Byte} (h : DeviceStores s b a v) (c : List BusAccess) :
    DeviceStores s (b ++ c) a v := by
  obtain ⟨before, x, after, rfl, hd, hm⟩ := h
  exact ⟨before, x, after ++ c, by simp, hd, hm⟩

theorem DeviceStores.right {s t : State} {b c : List BusAccess} {a : Addr} {v : Byte} (hh : t.host = s.host)
    (he : t.epoch = s.epoch) (hb : t.bus = s.bus ++ b) (h : DeviceStores t c a v) : DeviceStores s (b ++ c) a v := by
  obtain ⟨before, x, after, rfl, hd, hm⟩ := h
  rw [hh] at hd
  rw [he, hb, List.append_assoc] at hm
  exact ⟨b ++ before, x, after, by simp, hd, hm⟩

end Sys2Proof.Machine
end

