-- ==== Sys2Proof/Laws/PerInstr.lean ====
section
/-! SUPPORT. The family `Encoding` of facts about every instruction: a well-formed instruction has an opcode byte, the opcode table
reads that byte back as its operation and mode (R103 against R104, R106), and its bytes are as many as its mode says (R86). -/

/-- A well-formed instruction's opcode byte is its own entry of the opcode table, and its length is its mode's. -/
def Sys2Proof.Laws.Encoding.Statement (i : Sys2Proof.Instr) : Prop :=
  i.wellFormed = true →
    ∃ b, i.opcodeByte = some b ∧ Sys2Proof.opcodeTable b = (i.op, i.mode) ∧
      (Sys2Proof.encode i).length = Sys2Proof.instrLength i

namespace Sys2Proof.Laws

theorem Encoding.lda (o : Operand) : Encoding.Statement (.lda o) := by
  intro h
  cases o <;> first | exact Bool.noConfusion (show false = true from h) | exact ⟨_, rfl, rfl, rfl⟩

theorem Encoding.ldx (o : Operand) : Encoding.Statement (.ldx o) := by
  intro h
  cases o <;> first | exact Bool.noConfusion (show false = true from h) | exact ⟨_, rfl, rfl, rfl⟩

theorem Encoding.ldy (o : Operand) : Encoding.Statement (.ldy o) := by
  intro h
  cases o <;> first | exact Bool.noConfusion (show false = true from h) | exact ⟨_, rfl, rfl, rfl⟩

theorem Encoding.sta (o : Operand) : Encoding.Statement (.sta o) := by
  intro h
  cases o <;> first | exact Bool.noConfusion (show false = true from h) | exact ⟨_, rfl, rfl, rfl⟩

theorem Encoding.stx (o : Operand) : Encoding.Statement (.stx o) := by
  intro h
  cases o <;> first | exact Bool.noConfusion (show false = true from h) | exact ⟨_, rfl, rfl, rfl⟩

theorem Encoding.sty (o : Operand) : Encoding.Statement (.sty o) := by
  intro h
  cases o <;> first | exact Bool.noConfusion (show false = true from h) | exact ⟨_, rfl, rfl, rfl⟩

theorem Encoding.tax : Encoding.Statement .tax := fun _ => ⟨_, rfl, rfl, rfl⟩

theorem Encoding.tay : Encoding.Statement .tay := fun _ => ⟨_, rfl, rfl, rfl⟩

theorem Encoding.txa : Encoding.Statement .txa := fun _ => ⟨_, rfl, rfl, rfl⟩

theorem Encoding.tya : Encoding.Statement .tya := fun _ => ⟨_, rfl, rfl, rfl⟩

theorem Encoding.tsx : Encoding.Statement .tsx := fun _ => ⟨_, rfl, rfl, rfl⟩

theorem Encoding.txs : Encoding.Statement .txs := fun _ => ⟨_, rfl, rfl, rfl⟩

theorem Encoding.pha : Encoding.Statement .pha := fun _ => ⟨_, rfl, rfl, rfl⟩

theorem Encoding.php : Encoding.Statement .php := fun _ => ⟨_, rfl, rfl, rfl⟩

theorem Encoding.pla : Encoding.Statement .pla := fun _ => ⟨_, rfl, rfl, rfl⟩

theorem Encoding.plp : Encoding.Statement .plp := fun _ => ⟨_, rfl, rfl, rfl⟩

theorem Encoding.adc (o : Operand) : Encoding.Statement (.adc o) := by
  intro h
  cases o <;> first | exact Bool.noConfusion (show false = true from h) | exact ⟨_, rfl, rfl, rfl⟩

theorem Encoding.sbc (o : Operand) : Encoding.Statement (.sbc o) := by
  intro h
  cases o <;> first | exact Bool.noConfusion (show false = true from h) | exact ⟨_, rfl, rfl, rfl⟩

theorem Encoding.cmp (o : Operand) : Encoding.Statement (.cmp o) := by
  intro h
  cases o <;> first | exact Bool.noConfusion (show false = true from h) | exact ⟨_, rfl, rfl, rfl⟩

theorem Encoding.cpx (o : Operand) : Encoding.Statement (.cpx o) := by
  intro h
  cases o <;> first | exact Bool.noConfusion (show false = true from h) | exact ⟨_, rfl, rfl, rfl⟩

theorem Encoding.cpy (o : Operand) : Encoding.Statement (.cpy o) := by
  intro h
  cases o <;> first | exact Bool.noConfusion (show false = true from h) | exact ⟨_, rfl, rfl, rfl⟩

theorem Encoding.inc (o : Operand) : Encoding.Statement (.inc o) := by
  intro h
  cases o <;> first | exact Bool.noConfusion (show false = true from h) | exact ⟨_, rfl, rfl, rfl⟩

theorem Encoding.inx : Encoding.Statement .inx := fun _ => ⟨_, rfl, rfl, rfl⟩

theorem Encoding.iny : Encoding.Statement .iny := fun _ => ⟨_, rfl, rfl, rfl⟩

theorem Encoding.dec (o : Operand) : Encoding.Statement (.dec o) := by
  intro h
  cases o <;> first | exact Bool.noConfusion (show false = true from h) | exact ⟨_, rfl, rfl, rfl⟩

theorem Encoding.dex : Encoding.Statement .dex := fun _ => ⟨_, rfl, rfl, rfl⟩

theorem Encoding.dey : Encoding.Statement .dey := fun _ => ⟨_, rfl, rfl, rfl⟩

theorem Encoding.and (o : Operand) : Encoding.Statement (.and o) := by
  intro h
  cases o <;> first | exact Bool.noConfusion (show false = true from h) | exact ⟨_, rfl, rfl, rfl⟩

theorem Encoding.ora (o : Operand) : Encoding.Statement (.ora o) := by
  intro h
  cases o <;> first | exact Bool.noConfusion (show false = true from h) | exact ⟨_, rfl, rfl, rfl⟩

theorem Encoding.eor (o : Operand) : Encoding.Statement (.eor o) := by
  intro h
  cases o <;> first | exact Bool.noConfusion (show false = true from h) | exact ⟨_, rfl, rfl, rfl⟩

theorem Encoding.bit (o : Operand) : Encoding.Statement (.bit o) := by
  intro h
  cases o <;> first | exact Bool.noConfusion (show false = true from h) | exact ⟨_, rfl, rfl, rfl⟩

theorem Encoding.asl (o : Operand) : Encoding.Statement (.asl o) := by
  intro h
  cases o <;> first | exact Bool.noConfusion (show false = true from h) | exact ⟨_, rfl, rfl, rfl⟩

theorem Encoding.lsr (o : Operand) : Encoding.Statement (.lsr o) := by
  intro h
  cases o <;> first | exact Bool.noConfusion (show false = true from h) | exact ⟨_, rfl, rfl, rfl⟩

theorem Encoding.rol (o : Operand) : Encoding.Statement (.rol o) := by
  intro h
  cases o <;> first | exact Bool.noConfusion (show false = true from h) | exact ⟨_, rfl, rfl, rfl⟩

theorem Encoding.ror (o : Operand) : Encoding.Statement (.ror o) := by
  intro h
  cases o <;> first | exact Bool.noConfusion (show false = true from h) | exact ⟨_, rfl, rfl, rfl⟩

theorem Encoding.bcc (off : Byte) : Encoding.Statement (.bcc off) := fun _ => ⟨_, rfl, rfl, rfl⟩

theorem Encoding.bcs (off : Byte) : Encoding.Statement (.bcs off) := fun _ => ⟨_, rfl, rfl, rfl⟩

theorem Encoding.beq (off : Byte) : Encoding.Statement (.beq off) := fun _ => ⟨_, rfl, rfl, rfl⟩

theorem Encoding.bne (off : Byte) : Encoding.Statement (.bne off) := fun _ => ⟨_, rfl, rfl, rfl⟩

theorem Encoding.bmi (off : Byte) : Encoding.Statement (.bmi off) := fun _ => ⟨_, rfl, rfl, rfl⟩

theorem Encoding.bpl (off : Byte) : Encoding.Statement (.bpl off) := fun _ => ⟨_, rfl, rfl, rfl⟩

theorem Encoding.bvc (off : Byte) : Encoding.Statement (.bvc off) := fun _ => ⟨_, rfl, rfl, rfl⟩

theorem Encoding.bvs (off : Byte) : Encoding.Statement (.bvs off) := fun _ => ⟨_, rfl, rfl, rfl⟩

theorem Encoding.jmp (o : Operand) : Encoding.Statement (.jmp o) := by
  intro h
  cases o <;> first | exact Bool.noConfusion (show false = true from h) | exact ⟨_, rfl, rfl, rfl⟩

theorem Encoding.jsr (target : Addr) : Encoding.Statement (.jsr target) := fun _ => ⟨_, rfl, rfl, rfl⟩

theorem Encoding.rts : Encoding.Statement .rts := fun _ => ⟨_, rfl, rfl, rfl⟩

theorem Encoding.clc : Encoding.Statement .clc := fun _ => ⟨_, rfl, rfl, rfl⟩

theorem Encoding.sec : Encoding.Statement .sec := fun _ => ⟨_, rfl, rfl, rfl⟩

theorem Encoding.cli : Encoding.Statement .cli := fun _ => ⟨_, rfl, rfl, rfl⟩

theorem Encoding.sei : Encoding.Statement .sei := fun _ => ⟨_, rfl, rfl, rfl⟩

theorem Encoding.cld : Encoding.Statement .cld := fun _ => ⟨_, rfl, rfl, rfl⟩

theorem Encoding.sed : Encoding.Statement .sed := fun _ => ⟨_, rfl, rfl, rfl⟩

theorem Encoding.clv : Encoding.Statement .clv := fun _ => ⟨_, rfl, rfl, rfl⟩

theorem Encoding.nop : Encoding.Statement .nop := fun _ => ⟨_, rfl, rfl, rfl⟩

theorem Encoding.brk : Encoding.Statement .brk := fun _ => ⟨_, rfl, rfl, rfl⟩

theorem Encoding.rti : Encoding.Statement .rti := fun _ => ⟨_, rfl, rfl, rfl⟩

/-- No byte of the list of illegal bytes has a legal entry (R106). -/
theorem illegal_entry : ∀ b : Byte, isIllegalByte b = true → opcodeTable b = (.illegal, .implied) := by
  set_option maxRecDepth 8000 in decide

theorem Encoding.illegal (opcode : Byte) : Encoding.Statement (.illegal opcode) := by
  intro h
  have hb : isIllegalByte opcode = true := by simpa [Instr.wellFormed, Instr.opcodeOk] using (Bool.and_eq_true _ _ ▸ h).2
  refine ⟨opcode, by simp [Instr.opcodeByte, hb], illegal_entry opcode hb, ?_⟩
  simp [encode, Instr.opcodeByte, hb, Instr.argBytes]
  rfl

end Sys2Proof.Laws
end

