-- ==== Sys2Proof/Laws/Trace.lean ====
section
/-! SUPPORT. What any sequence of bus accesses does to memory, the exit code and the bytes read, in terms of the accesses made: one
relation, which the shared operations keep and which composes. -/

namespace Sys2Proof.Machine

/-- Everything about `t` that the accesses `new`, made from `s` on, decide (R52, R53, R65, R70, R251); and that they change no latch. -/
structure Follows (s t : State) (new : List BusAccess) : Prop where
  host : t.host = s.host
  epoch : t.epoch = s.epoch
  nmi : t.nmiPending = s.nmiPending
  irq : t.irqPending = s.irqPending
  halted : t.halted = s.halted
  bus : t.bus = s.bus ++ new
  wf : s.mem.wf = true → t.mem.wf = true
  kept : ∀ a : Addr, lastWrite a new = none → t.mem.peek a.toNat = s.mem.peek a.toNat ∨ ∃ w, DeviceStores s new a w
  written : ∀ (a : Addr) (v : Byte), lastWrite a new = some v → s.host.intercepts a = false →
    t.mem.peek a.toNat = v ∨ ∃ w, DeviceStores s new a w
  reads : ∀ (before after : List BusAccess) (a : Addr) (v : Byte), new = before ++ .read a v :: after →
    s.host.intercepts a = false → v = (lastWrite a before).getD (s.mem.peek a.toNat) ∨ ∃ w, DeviceStores s before a w
  same : writeCount new = 0 → KeepsMemory s t new
  exit : Quiet s.host new → t.exitCode = (lastExit s.host new).or s.exitCode
  exitKept : s.exitCode.isSome = true → t.exitCode.isSome = true
  exitSome : ∀ (a : Addr) (v : Byte), .write a v ∈ new → s.host.actionAt a = some .exit → t.exitCode.isSome = true
  exitOnly : t.exitCode = s.exitCode ∨
    ∃ a v, .write a v ∈ new ∧ (s.host.actionAt a = some .exit ∨ s.host.isDevice a = true)

theorem lastWrite_append (a : Addr) (b c : List BusAccess) : lastWrite a (b ++ c) = (lastWrite a c).or (lastWrite a b) := by
  induction b with
  | nil => simp [lastWrite]
  | cons x rest ih =>
    cases x with
    | read _ _ => simpa [lastWrite] using ih
    | write d v =>
      simp only [List.cons_append, lastWrite, ih]
      cases lastWrite a c <;> cases lastWrite a rest <;> simp

theorem lastExit_append (h : HostMap) (b c : List BusAccess) : lastExit h (b ++ c) = (lastExit h c).or (lastExit h b) := by
  induction b with
  | nil => simp [lastExit]
  | cons x rest ih =>
    cases x with
    | read _ _ => simpa [lastExit] using ih
    | write d v =>
      simp only [List.cons_append, lastExit, ih]
      cases lastExit h c <;> cases lastExit h rest <;> simp

@[simp] theorem readCount_append (b c : List BusAccess) : readCount (b ++ c) = readCount b + readCount c := by
  simp [readCount]

@[simp] theorem writeCount_append (b c : List BusAccess) : writeCount (b ++ c) = writeCount b + writeCount c := by
  simp [writeCount]

/-- The reads and writes are all the accesses. -/
theorem readCount_add_writeCount (b : List BusAccess) : readCount b + writeCount b = b.length := by
  induction b with
  | nil => rfl
  | cons x rest ih => cases x <;> simp [readCount, writeCount] at ih ⊢ <;> omega

namespace Follows

/-- No access: registers may change. -/
theorem of_regs {s t : State} (hh : t.host = s.host) (he : t.epoch = s.epoch) (hn : t.nmiPending = s.nmiPending)
    (hi : t.irqPending = s.irqPending) (hl : t.halted = s.halted) (hb : t.bus = s.bus) (hm : t.mem = s.mem)
    (hx : t.exitCode = s.exitCode) : Follows s t [] where
  host := hh
  epoch := he
  nmi := hn
  irq := hi
  halted := hl
  bus := by simp [hb]
  wf h := by rw [hm]; exact h
  kept a _ := .inl (by rw [hm])
  written a v h := by simp [lastWrite] at h
  reads b c a v h := by simp at h
  same _ _ := hm
  exit _ := by simp [lastExit, hx]
  exitKept h := by rw [hx]; exact h
  exitSome a v h := by simp at h
  exitOnly := .inl hx

theorem setPC (s : State) (w : Addr) : Follows s (s.setPC w) [] := of_regs rfl rfl rfl rfl rfl rfl rfl rfl

theorem setP (s : State) (v : Byte) : Follows s (s.setP v) [] := of_regs rfl rfl rfl rfl rfl rfl rfl rfl

theorem refl (s : State) : Follows s s [] := of_regs rfl rfl rfl rfl rfl rfl rfl rfl

theorem trans {s t u : State} {b c : List BusAccess} (h : Follows s t b) (k : Follows t u c) : Follows s u (b ++ c) where
  host := k.host.trans h.host
  epoch := k.epoch.trans h.epoch
  nmi := k.nmi.trans h.nmi
  irq := k.irq.trans h.irq
  halted := k.halted.trans h.halted
  bus := by rw [k.bus, h.bus, List.append_assoc]
  wf hw := k.wf (h.wf hw)
  kept a ha := by
    rw [lastWrite_append, Option.or_eq_none_iff] at ha
    rcases k.kept a ha.1 with e | ⟨w, d⟩
    · rcases h.kept a ha.2 with e' | ⟨w, d⟩
      · exact .inl (e.trans e')
      · exact .inr ⟨w, d.left c⟩
    · exact .inr ⟨w, d.right h.host h.epoch h.bus⟩
  written a v ha hi := by
    rw [lastWrite_append] at ha
    cases hc : lastWrite a c with
    | none =>
      rw [hc, Option.none_or] at ha
      rcases k.kept a hc with e | ⟨w, d⟩
      · rcases h.written a v ha hi with e' | ⟨w, d⟩
        · exact .inl (e.trans e')
        · exact .inr ⟨w, d.left c⟩
      · exact .inr ⟨w, d.right h.host h.epoch h.bus⟩
    | some w =>
      rw [hc, Option.some_or] at ha
      exact (k.written a v (hc.trans ha) (by rw [h.host]; exact hi)).imp id
        fun ⟨w, d⟩ => ⟨w, d.right h.host h.epoch h.bus⟩
  reads pre post a v e hi := by
    have second (m : List BusAccess) (hv : v = (lastWrite a m).getD (t.mem.peek a.toNat) ∨ ∃ w, DeviceStores t m a w) :
        v = (lastWrite a (b ++ m)).getD (s.mem.peek a.toNat) ∨ ∃ w, DeviceStores s (b ++ m) a w := by
      rcases hv with hv | ⟨w, d⟩
      · rw [hv, lastWrite_append]
        cases lastWrite a m with
        | some w => exact .inl (by simp)
        | none =>
          cases hb : lastWrite a b with
          | none => exact (h.kept a hb).imp (by simp) fun ⟨w, d⟩ => ⟨w, d.left m⟩
          | some w => exact (h.written a w hb hi).imp (by simp) fun ⟨w, d⟩ => ⟨w, d.left m⟩
      · exact .inr ⟨w, d.right h.host h.epoch h.bus⟩
    rcases List.append_eq_append_iff.1 e with ⟨m, hm, hc⟩ | ⟨m, hb, hm⟩
    · subst hm
      exact second m (k.reads m post a v hc (by rw [h.host]; exact hi))
    · cases m with
      | nil =>
        simp only [List.nil_append, List.append_nil] at hm hb
        subst hb
        simpa using second [] (k.reads [] post a v (by simpa using hm.symm) (by rw [h.host]; exact hi))
      | cons x m =>
        simp only [List.cons_append, List.cons.injEq] at hm
        obtain ⟨rfl, -⟩ := hm
        exact h.reads pre m a v hb hi
  same hw hq := by
    rw [writeCount_append] at hw
    rw [quiet_append] at hq
    exact (k.same (by omega) (by rw [h.host]; exact hq.2)).trans (h.same (by omega) hq.1)
  exit hq := by
    rw [quiet_append] at hq
    rw [k.exit (by rw [h.host]; exact hq.2), h.exit hq.1, h.host, lastExit_append, Option.or_assoc]
  exitKept hx := k.exitKept (h.exitKept hx)
  exitSome a v hm ha := by
    rcases List.mem_append.1 hm with hm | hm
    · exact k.exitKept (h.exitSome a v hm ha)
    · exact k.exitSome a v hm (by rw [h.host]; exact ha)
  exitOnly := by
    rcases k.exitOnly with e | ⟨a, v, hm, ha⟩
    · rcases h.exitOnly with e' | ⟨a, v, hm, ha⟩
      · exact .inl (e.trans e')
      · exact .inr ⟨a, v, List.mem_append_left _ hm, ha⟩
    · exact .inr ⟨a, v, List.mem_append_right _ hm, by rw [h.host] at ha; exact ha⟩

/-- One read (R52). -/
theorem busRead (s : State) (a : Addr) : Follows s (s.busRead a).2 [.read a (s.busByte a)] where
  host := rfl
  epoch := rfl
  nmi := rfl
  irq := rfl
  halted := rfl
  bus := rfl
  wf h := memAfterRead_wf s a h
  kept b _ := by
    refine (peek_memAfterAction s (.read a (s.busByte a)) s.mem b).imp id fun ⟨hd, w, hw⟩ => ⟨w, [], _, [], rfl, hd, ?_⟩
    simpa using hw
  written b v h := by simp [lastWrite] at h
  reads pre post b v e hi := by
    cases pre with
    | nil =>
      simp only [List.nil_append, List.cons.injEq, BusAccess.read.injEq] at e
      obtain ⟨⟨rfl, rfl⟩, -⟩ := e
      exact .inl (by simp [lastWrite, busByte_plain hi])
    | cons x pre => simp at e
  same _ hq := memAfterRead_quiet (hq (.read a (s.busByte a)) (by simp))
  exit _ := by simp [lastExit]
  exitKept h := h
  exitSome b v h := by simp at h
  exitOnly := .inl rfl

/-- One write (R53, R251). -/
theorem busWrite (s : State) (a : Addr) (v : Byte) : Follows s (s.busWrite a v) [.write a v] where
  host := rfl
  epoch := rfl
  nmi := rfl
  irq := rfl
  halted := rfl
  bus := rfl
  wf h := memAfterWrite_wf s a v h
  kept b hb := by
    have hne : b ≠ a := fun e => by simp [lastWrite, e] at hb
    refine (peek_memAfterAction s (.write a v) _ b).imp (fun e => e.trans ?_) fun ⟨hd, w, hw⟩ => ⟨w, [], _, [], rfl, hd, ?_⟩
    · split
      · rfl
      · exact peek_poke_other _ v fun e => hne (BitVec.eq_of_toNat_eq e)
    · simpa using hw
  written b w hb hi := by
    simp only [lastWrite, Option.ite_none_right_eq_some, Option.some.injEq] at hb
    obtain ⟨rfl, rfl⟩ := hb
    exact .inl (by simp [busWrite_eq, memAfterWrite_plain hi])
  reads pre post b w e hi := by
    cases pre with
    | nil => simp at e
    | cons x pre => simp at e
  same h := by simp [writeCount] at h
  exit hq := by
    have hd : s.host.isDevice a = false := hq (.write a v) (by simp)
    rw [busWrite_eq, exitAfterWrite_quiet hd]
    by_cases h : s.host.actionAt a = some .exit <;> simp [lastExit, h]
  exitKept h := by
    simp only [busWrite_eq, State.exitAfterWrite]
    split <;> simp [h]
  exitSome b w hm hb := by
    simp only [List.mem_singleton, BusAccess.write.injEq] at hm
    obtain ⟨rfl, rfl⟩ := hm
    simp [busWrite_eq, State.exitAfterWrite, hb]
  exitOnly := by
    simp only [busWrite_eq, State.exitAfterWrite]
    split
    · next h => exact .inr ⟨a, v, by simp, .inl h⟩
    · next h => exact .inr ⟨a, v, by simp, .inr (by simp [HostMap.isDevice, h])⟩
    · exact .inl rfl
    · exact .inl rfl

/-- Push (R60). -/
theorem push (s : State) (v : Byte) : Follows s (s.push v) [.write (stackAddr s.sp) v] :=
  (busWrite s (stackAddr s.sp) v).trans (of_regs rfl rfl rfl rfl rfl rfl rfl rfl)

/-- Pull (R61). -/
theorem pull (s : State) : Follows s s.pull.2 [.read (stackAddr (s.sp + 1)) s.pull.1] :=
  (of_regs (s := s) (t := s.setSP (s.sp + 1)) rfl rfl rfl rfl rfl rfl rfl rfl).trans
    (busRead (s.setSP (s.sp + 1)) (stackAddr (s.sp + 1)))

/-- A 16-bit push (R200). -/
theorem push16 (s : State) (w : Addr) :
    Follows s (s.push16 w) [.write (stackAddr s.sp) (hiByte w), .write (stackAddr (s.sp - 1)) (loByte w)] :=
  (push s _).trans (push _ _)

/-- A 16-bit pull (R201). -/
theorem pull16 (s : State) :
    Follows s s.pull16.2 [.read (stackAddr (s.sp + 1)) s.pull.1, .read (stackAddr (s.sp + 1 + 1)) s.pull.2.pull.1] :=
  (pull s).trans (pull _)

/-- Finding an effective address: the pointer reads of the mode (R99 to R101). -/
theorem effAddr (s : State) (o : Operand) :
    ∃ new, Follows s (s.effAddr o).2 new ∧ readCount new = pointerReads o.mode ∧ writeCount new = 0 := by
  cases o with
  | acc | imm _ | zp _ | zpX _ | zpY _ | abs _ | absX _ | absY _ => exact ⟨[], refl s, rfl, rfl⟩
  | ind w => exact ⟨_, (busRead s w).trans (busRead _ (indirectHigh w)), rfl, rfl⟩
  | indX z => exact ⟨_, (busRead s (zeroPage (z + s.x))).trans (busRead _ (zeroPage (z + s.x + 1))), rfl, rfl⟩
  | indY z => exact ⟨_, (busRead s (zeroPage z)).trans (busRead _ (zeroPage (z + 1))), rfl, rfl⟩

/-- The addressing-mode routine: the pointer reads of the mode. -/
theorem locate (s : State) (o : Operand) :
    ∃ new, Follows s (s.locate o).2 new ∧ readCount new = pointerReads o.mode ∧ writeCount new = 0 := by
  obtain ⟨new, h, hr, hw⟩ := effAddr s o
  exact ⟨new ++ [], h.trans (of_regs rfl rfl rfl rfl rfl rfl rfl rfl), by simpa using hr, by simpa using hw⟩

/-- An operand that is read (R102). -/
theorem readOperand (s : State) (o : Operand) :
    ∃ new, Follows s (s.readOperand o).2 new ∧ readCount new = pointerReads o.mode + operandAccess o.mode ∧ writeCount new = 0 := by
  by_cases hm : Operand.inMemory o
  · obtain ⟨new, h, hr, hw⟩ := locate s o
    rw [readOperand_mem s hm]
    refine ⟨_, h.trans (busRead _ _), ?_, ?_⟩
    · have : operandAccess o.mode = 1 := by cases o <;> simp_all [Operand.inMemory, Operand.mode, operandAccess]
      rw [readCount_append, hr, this]
      rfl
    · rw [writeCount_append, hw]
      rfl
  · have h : o.mode = .accumulator ∨ o.mode = .immediate := by simpa [Operand.inMemory, or_iff_not_imp_left] using hm
    cases o <;> simp [Operand.mode] at h <;> exact ⟨[], of_regs rfl rfl rfl rfl rfl rfl rfl rfl, rfl, rfl⟩

/-- An operand that is written and not read (R54). -/
theorem writeOperand (s : State) {o : Operand} (ho : Operand.inMemory o) (v : Byte) :
    ∃ new, Follows s (s.writeOperand o v) new ∧ readCount new = pointerReads o.mode ∧ writeCount new = 1 := by
  obtain ⟨new, h, hr, hw⟩ := locate s o
  rw [writeOperand_mem s ho.1]
  refine ⟨_, h.trans (busWrite _ _ _), ?_, ?_⟩
  · rw [readCount_append, hr]
    rfl
  · rw [writeCount_append, hw]
    rfl

/-- An operand that is read once and then written once (R54, R170). -/
theorem modifyOperand (s : State) {o : Operand} (ho : o.mode ≠ .immediate) (f : Byte → Byte) :
    ∃ new, Follows s (s.modifyOperand o f).2 new ∧ readCount new = pointerReads o.mode + operandAccess o.mode ∧
      writeCount new = operandAccess o.mode := by
  by_cases hm : o.mode = .accumulator
  · cases o <;> simp [Operand.mode] at hm
    exact ⟨[], of_regs rfl rfl rfl rfl rfl rfl rfl rfl, rfl, rfl⟩
  · obtain ⟨new, h, hr, hw⟩ := locate s o
    have : operandAccess o.mode = 1 := by cases o <;> simp_all [Operand.mode, operandAccess]
    rw [modifyOperand_mem s hm]
    refine ⟨_, (h.trans (busRead _ _)).trans (busWrite _ _ _), ?_, ?_⟩
    · rw [readCount_append, readCount_append, hr, this]
      rfl
    · rw [writeCount_append, writeCount_append, hw, this]
      rfl

/-- An interrupt entry or BRK: three writes and two reads (R219, R240). -/
theorem enter (s : State) (vector ret : Addr) (status : Byte) :
    ∃ lo hi, Follows s (s.enter vector ret status)
      [.write (stackAddr s.sp) (hiByte ret), .write (stackAddr (s.sp - 1)) (loByte ret),
        .write (stackAddr (s.sp - 1 - 1)) status, .read vector lo, .read (vector + 1) hi] := by
  have h1 := (push16 s ret).trans (push (s.push16 ret) status)
  have h2 := h1.trans (setP _ (Machine.putFlag .i true ((s.push16 ret).push status).p))
  have h3 := (h2.trans (busRead _ vector)).trans (busRead _ (vector + 1))
  exact ⟨_, _, h3.trans (setPC _ _)⟩

/-- The fetch: the opcode byte and the operand bytes of its format, one after another (R31, R111). -/
theorem fetch (s : State) :
    ∃ new, Follows s s.fetch.2 new ∧ readCount new = modeLength (opcodeTable (s.busByte s.pc)).2 ∧ writeCount new = 0 := by
  unfold State.fetch
  simp only [opcodeFormat, busRead_fst, modeLength]
  generalize formatOf (opcodeTable (s.busByte s.pc)).2 = f
  cases f
  · exact ⟨_, busRead s s.pc, rfl, rfl⟩
  · exact ⟨_, (busRead s s.pc).trans (busRead _ (s.pc + 1)), rfl, rfl⟩
  · exact ⟨_, ((busRead s s.pc).trans (busRead _ (s.pc + 1))).trans (busRead _ (s.pc + 2)),
      rfl, rfl⟩

end Follows

end Sys2Proof.Machine
end

