-- ==== Sys2Proof/Laws/Step.lean ====
section
/-! SUPPORT. What a step can do, once and for all, and what the operations a step begins with leave. -/

namespace Sys2Proof.Machine

theorem newEpoch_eq (s : State) : s.newEpoch = { s with bus := [], epoch := s.epoch + 1 } := rfl

/-- A step that completes is a step of a running core (R232, R253): NMI entry, else IRQ entry, else one instruction (R239, R240). -/
theorem step_cases {s t : State} (h : step s = .next t) :
    s.Running ∧
      ((s.nmiPending = true ∧ t = s.newEpoch.takeNmi) ∨
        (s.nmiPending = false ∧ s.irqPending = true ∧ getFlag .i s.p = false ∧ t = s.newEpoch.takeIrq) ∨
        (s.Uninterrupted ∧ exec s.newEpoch.fetch.1 s.newEpoch.fetch.2 = .next t)) := by
  simp only [step, State.runStep] at h
  split at h
  · cases h
  · rename_i hh
    split at h
    · cases h
    · rename_i hx
      refine ⟨⟨by simpa using hh, hx⟩, ?_⟩
      simp only [State.coreStep] at h
      split at h
      · rename_i hn
        exact .inl ⟨hn, by simpa using h.symm⟩
      · rename_i hn
        split at h
        · rename_i hi
          have hi' : s.irqPending = true ∧ getFlag .i s.p = false := by
            simpa [State.irqTakeable, newEpoch_eq, State.flag] using hi
          exact .inr (.inl ⟨by simpa [newEpoch_eq] using hn, hi'.1, hi'.2, by simpa using h.symm⟩)
        · rename_i hi
          refine .inr (.inr ⟨⟨by simpa [newEpoch_eq] using hn, ?_⟩, h⟩)
          cases hp : s.irqPending
          · exact .inl rfl
          · exact .inr (by simpa [State.irqTakeable, newEpoch_eq, State.flag, hp] using hi)

theorem step_nmi {s : State} (hr : s.Running) (hn : s.nmiPending = true) : step s = .next s.newEpoch.takeNmi := by
  simp [step, State.runStep, State.coreStep, hr.1, hr.2, newEpoch_eq, hn]

theorem step_irq {s : State} (hr : s.Running) (hn : s.nmiPending = false) (hi : s.irqPending = true)
    (hf : getFlag .i s.p = false) : step s = .next s.newEpoch.takeIrq := by
  simp [step, State.runStep, State.coreStep, State.irqTakeable, State.flag, hr.1, hr.2, newEpoch_eq, hn, hi, hf]

theorem step_instruction {s : State} (hr : s.Running) (hu : s.Uninterrupted) :
    step s = exec s.newEpoch.fetch.1 s.newEpoch.fetch.2 := by
  have hn : s.nmiPending = false := hu.1
  rcases hu.2 with hi | hi <;>
    simp [step, State.runStep, State.coreStep, State.instruction, State.irqTakeable, State.flag, hr.1, hr.2, newEpoch_eq, hn, hi]

/-- The state a fetch leaves differs only in the record of the bus and what the host changes in memory. -/
theorem fetch_snd (s : State) : s.fetch.2 = { s with mem := s.fetch.2.mem, bus := s.fetch.2.bus } := by
  unfold State.fetch
  simp only
  split <;> simp [State.setBus, State.setMem]

/-! ### What accesses store -/

/-- Accesses that write nothing store nothing. -/
theorem Follows.stores_reads {s t : State} {new : List BusAccess} (h : Follows s t new) (hw : writeCount new = 0) :
    Stores s t new := by
  have hl (a : Addr) : lastWrite a new = none := by
    clear h
    induction new with
    | nil => rfl
    | cons x rest ih =>
      cases x with
      | read b v => exact ih (by simpa [writeCount] using hw)
      | write b v => simp [writeCount] at hw
  intro hq
  refine ⟨fun a _ => by rw [h.same hw hq], fun a v hv => ?_, h.exit hq⟩
  rw [hl a] at hv
  cases hv

/-- What `MemWrite(a, 1, v)` does to memory and the exit code (R53, R251). -/
theorem stores_busWrite (s : State) (a : Addr) (v : Byte) : Stores s (s.busWrite a v) [.write a v] := by
  intro hq
  have hd : s.host.isDevice a = false := hq (.write a v) (by simp)
  have f := Follows.busWrite s a v
  refine ⟨fun b hb => (f.kept b hb).resolve_right fun ⟨w, d⟩ => hq.no_store b w d, fun b w hb => ⟨fun hi => ?_, ?_⟩, f.exit hq⟩
  · exact (f.written b w hb hi).resolve_right fun ⟨u, d⟩ => hq.no_store b u d
  · simp only [lastWrite, Option.ite_none_right_eq_some, Option.some.injEq] at hb
    obtain ⟨rfl, rfl⟩ := hb
    rw [busWrite_eq, State.memAfterWrite, memAfterAction_quiet hd]
    split
    · exact .inr rfl
    · exact .inl (peek_poke_same _ _ _)

/-- What is stored is seen from any state that has the same memory, host and exit code. -/
theorem Stores.congr {s s' t t' : State} {new : List BusAccess} (h : Stores s t new) (hm : s'.mem = s.mem)
    (hh : s'.host = s.host) (he : s'.exitCode = s.exitCode) (hm' : t'.mem = t.mem) (he' : t'.exitCode = t.exitCode) :
    Stores s' t' new := by
  unfold Stores at *
  rw [hm, hh, he, hm', he']
  exact h

/-- Accesses that write no location twice, one after the other. -/
theorem Stores.append {s t u : State} {b c : List BusAccess} (h : Stores s t b) (k : Stores t u c) (hh : t.host = s.host)
    (apart : ∀ a, lastWrite a b = none ∨ lastWrite a c = none) : Stores s u (b ++ c) := by
  intro hq
  rw [quiet_append] at hq
  obtain ⟨h1, h2, h3⟩ := h hq.1
  obtain ⟨k1, k2, k3⟩ := k (by rw [hh]; exact hq.2)
  refine ⟨fun a ha => ?_, fun a v ha => ?_, ?_⟩
  · rw [lastWrite_append, Option.or_eq_none_iff] at ha
    rw [k1 a ha.1, h1 a ha.2]
  · rw [lastWrite_append] at ha
    rcases apart a with e | e
    · rw [e, Option.or_none] at ha
      rw [← h1 a e, ← hh]
      exact k2 a v ha
    · rw [e, Option.none_or] at ha
      rw [k1 a e]
      exact h2 a v ha
  · rw [k3, h3, hh, lastExit_append, Option.or_assoc]

/-- What a push stores (R60). -/
theorem stores_push (s : State) (v : Byte) : Stores s (s.push v) [.write (stackAddr s.sp) v] :=
  (stores_busWrite s _ v).congr rfl rfl rfl rfl rfl

theorem stackAddr_ne {p q : Byte} (h : p ≠ q) : stackAddr p ≠ stackAddr q := fun e => h (stackAddr_inj e)

theorem sp_ne_1 (p : Byte) : p ≠ p - 1 := by
  intro e
  have := congrArg BitVec.toNat e
  rw [BitVec.toNat_sub] at this
  simp at this
  omega

theorem sp_ne_2 (p : Byte) : p ≠ p - 1 - 1 := by
  intro e
  have := congrArg BitVec.toNat e
  rw [BitVec.toNat_sub, BitVec.toNat_sub] at this
  simp at this
  omega

/-- What a 16-bit push leaves (R200). -/
theorem push16_eq (s : State) (w : Addr) :
    let new : List BusAccess := [.write (stackAddr s.sp) (hiByte w), .write (stackAddr (s.sp - 1)) (loByte w)]
    s.push16 w =
        { s with
          sp := s.sp - 1 - 1, mem := (s.push16 w).mem, exitCode := (s.push16 w).exitCode, bus := s.bus ++ new } ∧
      Stores s (s.push16 w) new := by
  refine ⟨by simp [State.push16, push_eq], ?_⟩
  refine (stores_push s (hiByte w)).append (stores_push (s.push (hiByte w)) (loByte w)) rfl fun a => ?_
  by_cases h : stackAddr s.sp = a
  · subst h
    exact .inr (if_neg (Ne.symm (stackAddr_ne (sp_ne_1 s.sp))))
  · exact .inl (if_neg h)

/-- What a 16-bit push and a push leave: the three bytes of an entry (R219, R240). -/
theorem push16_push_eq (s : State) (w : Addr) (v : Byte) :
    let new : List BusAccess := [.write (stackAddr s.sp) (hiByte w), .write (stackAddr (s.sp - 1)) (loByte w),
      .write (stackAddr (s.sp - 1 - 1)) v]
    let t := (s.push16 w).push v
    t = { s with sp := s.sp - 1 - 1 - 1, mem := t.mem, exitCode := t.exitCode, bus := s.bus ++ new } ∧ Stores s t new := by
  obtain ⟨h, hs⟩ := push16_eq s w
  have k := stores_push (s.push16 w) v
  have hsp : (s.push16 w).sp = s.sp - 1 - 1 := by rw [h]
  rw [hsp] at k
  refine ⟨by simp [State.push16, push_eq], ?_⟩
  refine hs.append k (by rw [h]) fun a => ?_
  by_cases h : stackAddr (s.sp - 1 - 1) = a
  · subst h
    refine .inl ?_
    simp only [lastWrite]
    rw [if_neg (stackAddr_ne (sp_ne_1 (s.sp - 1)))]
    exact if_neg (stackAddr_ne (sp_ne_2 s.sp))
  · exact .inr (if_neg h)

/-- Going where a vector points, with I set (R240). -/
theorem vector_eq (w : State) (vector : Addr) :
    let r := (w.putFlag .i true).busRead16 vector
    let t := r.2.setPC r.1
    ∃ lo hi : Byte,
      let new : List BusAccess := [.read vector lo, .read (vector + 1) hi]
      t = { w with p := putFlag .i true w.p, pc := pair hi lo, mem := t.mem, bus := w.bus ++ new } ∧ Follows w t new := by
  intro r t
  refine ⟨(w.putFlag .i true).busByte vector, ((w.putFlag .i true).busRead vector).2.busByte (vector + 1), ?_, ?_⟩
  · simp only [t, r, busRead16_eq]
    rfl
  · exact (Follows.setP w (Machine.putFlag .i true w.p)).trans
      (((Follows.busRead (w.putFlag .i true) vector).trans (Follows.busRead _ (vector + 1))).trans (Follows.setPC _ r.1))

/-- What an interrupt entry or BRK leaves (R219, R240). -/
theorem enter_eq (s : State) (vector ret : Addr) (status : Byte) :
    let t := s.enter vector ret status
    ∃ lo hi : Byte,
      let new : List BusAccess := [.write (stackAddr s.sp) (hiByte ret), .write (stackAddr (s.sp - 1)) (loByte ret),
        .write (stackAddr (s.sp - 1 - 1)) status, .read vector lo, .read (vector + 1) hi]
      t = { s with
        sp := s.sp - 1 - 1 - 1, p := putFlag .i true s.p, pc := pair hi lo, mem := t.mem, exitCode := t.exitCode,
        bus := s.bus ++ new } ∧
      Stores s t new ∧ Follows s t new := by
  intro t
  obtain ⟨h, hs⟩ := push16_push_eq s ret status
  obtain ⟨lo, hi, e, f⟩ := vector_eq ((s.push16 ret).push status) vector
  have g : Follows s ((s.push16 ret).push status) _ := (Follows.push16 s ret).trans (Follows.push _ status)
  refine ⟨lo, hi, ?_, hs.append (f.stores_reads rfl) (by rw [h]) fun a => .inr rfl, g.trans f⟩
  have e : t = _ := e
  have hx : t.exitCode = ((s.push16 ret).push status).exitCode := by rw [e]
  rw [hx, e, h]
  simp

/-- What the return from an interrupt leaves (R220). -/
theorem returnFromInterrupt_eq (s : State) :
    let p := s.busRead (stackAddr (s.sp + 1))
    let lo := p.2.busRead (stackAddr (s.sp + 1 + 1))
    let hi := lo.2.busRead (stackAddr (s.sp + 1 + 1 + 1))
    s.returnFromInterrupt =
      { s with
        sp := s.sp + 1 + 1 + 1, p := p.1, pc := pair hi.1 lo.1, mem := hi.2.mem
        bus := s.bus ++ [.read (stackAddr (s.sp + 1)) p.1, .read (stackAddr (s.sp + 1 + 1)) lo.1,
          .read (stackAddr (s.sp + 1 + 1 + 1)) hi.1] } := by
  intro p lo hi
  have h : s.returnFromInterrupt = (s.pull.2.setP s.pull.1).pull16.2.setPC (s.pull.2.setP s.pull.1).pull16.1 := rfl
  have hb (u v : State) (h1 : u.host = v.host) (h2 : u.mem = v.mem) (h3 : u.epoch = v.epoch) (h4 : u.bus = v.bus) (a : Addr) :
      u.busByte a = v.busByte a ∧ u.memAfterRead a = v.memAfterRead a :=
    ⟨busByte_congr h1 h2 h3 h4 a, memAfterRead_congr h1 h2 h3 h4 a⟩
  rw [h, pull16_eq]
  have h1 (a : Addr) := hb (s.pull.2.setP s.pull.1) p.2 rfl rfl rfl rfl a
  have h2 (a b : Addr) := hb ((s.pull.2.setP s.pull.1).busRead a).2 (p.2.busRead a).2 rfl (h1 a).2 rfl
    (congrArg (fun v => p.2.bus ++ [.read a v]) (h1 a).1) b
  simp only [(h1 _).1, (h2 _ _).1, (h2 _ _).2]
  simp [State.setPC, State.setP, pull_eq, p, lo, hi]

end Sys2Proof.Machine
end

