-- ==== Sys2Proof/Tests/Slice0.lean ====
section
/-! SUPPORT. The model's own tests: ill-formed terms, words written out from the opcode map (R103, R104), one-step vectors of
`spec/95_test_vectors.md` (cited V2.<n>), and a witness for the hypotheses of each statement that has any. The expected values are
the spec's. -/

namespace Sys2Proof.Tests

open Sys2Proof Sys2Proof.Machine

/-! ### Small states -/

/-- The state after reset with PC at `pc`, these bytes there, and these locations set (the conventions of `95_test_vectors.md`). -/
def start (pc : Addr) (bytes : List Byte) (cells : List (Addr × Byte)) : State :=
  cells.foldl (fun s c => s.placeBytes c.1 [c.2]) ((State.reset.setPC pc).placeBytes pc bytes)

/-- Whether the next step completes with these registers, PC and halt latch, these locations and this record of the bus. -/
def ends (s : State) (a x y sp p : Byte) (pc : Addr) (halted : Bool) (cells : List (Addr × Byte)) (bus : List BusAccess) : Bool :=
  match step s with
  | .next t =>
    t.a == a && t.x == x && t.y == y && t.sp == sp && t.p == p && t.pc == pc && t.halted == halted && t.bus == bus &&
      cells.all fun c => t.mem.peek c.1.toNat == c.2
  | .fault _ => false
  | .refused _ => false

/-- Whether an outcome is a next state with a property. -/
def next (r : Result) (p : State → Bool) : Bool :=
  match r with
  | .next t => p t
  | .fault _ => false
  | .refused _ => false

theorem of_next {r : Result} {p : State → Bool} (h : next r p = true) : ∃ t, r = .next t ∧ p t = true := by
  cases r with
  | next t => exact ⟨t, rfl, h⟩
  | fault _ => cases h
  | refused _ => cases h

/-- Whether an outcome is this fault. -/
def stops (r : Result) (f : Fault) : Bool :=
  match r with
  | .next _ => false
  | .fault g => g == f
  | .refused _ => false

/-! ### Well-formedness: one ill-formed term for each check -/

/-- STA has no Immediate form, LDX no ZeropageX form, BIT no Immediate form, JMP no AbsoluteX form (R103). -/
theorem test_wf_mode :
    (Instr.sta (.imm 0x00)).wellFormed = false ∧ (Instr.ldx (.zpX 0x00)).wellFormed = false ∧
      (Instr.bit (.imm 0x00)).wellFormed = false ∧ (Instr.jmp (.absX 0x0000)).wellFormed = false ∧
      (Instr.inc .acc).wellFormed = false ∧ (Instr.jmp (.ind 0x0000)).wellFormed = true := by decide

/-- 0xEA is NOP's byte, 0x89 none's (R106, R174). -/
theorem test_wf_opcode : (Instr.illegal 0xEA).wellFormed = false ∧ (Instr.illegal 0x89).wellFormed = true := by decide

/-- The table of R106 has 105 bytes, in rising order, and 151 are legal (R2). -/
theorem test_illegal_count :
    (illegalLow ++ illegalHigh).length = 105 ∧ ((illegalLow ++ illegalHigh).zip ((illegalLow ++ illegalHigh).drop 1)).all
      (fun p => p.1 < p.2) = true := by decide

/-- The decoder's only errors: bytes that end too early (R80 to R83). -/
theorem test_decode_errors :
    decode [] = .error .noBytes ∧ decode [0xA9] = .error .truncated ∧ decode [0x4C, 0x00] = .error .truncated :=
  ⟨rfl, rfl, rfl⟩

/-! ### Decoding: words written out from R103 and R104, every constructor -/

theorem test_decode_loads_stores_transfers :
    decodeTableWord 16 0b1000000110110001 = some (.lda (.indY 0x81)) ∧
    decodeTableWord 24 0b010000101000000110111110 = some (.ldx (.absY 0x4281)) ∧
    decodeTableWord 16 0b1000000110110100 = some (.ldy (.zpX 0x81)) ∧
    decodeTableWord 16 0b1000000110000001 = some (.sta (.indX 0x81)) ∧
    decodeTableWord 16 0b1000000110010110 = some (.stx (.zpY 0x81)) ∧
    decodeTableWord 24 0b010000101000000110001100 = some (.sty (.abs 0x4281)) ∧
    decodeTableWord 8 0b10101010 = some .tax ∧
    decodeTableWord 8 0b10101000 = some .tay ∧
    decodeTableWord 8 0b10001010 = some .txa ∧
    decodeTableWord 8 0b10011000 = some .tya ∧
    decodeTableWord 8 0b10111010 = some .tsx ∧
    decodeTableWord 8 0b10011010 = some .txs := by decide

theorem test_decode_stack :
    decodeTableWord 8 0b01001000 = some .pha ∧
    decodeTableWord 8 0b00001000 = some .php ∧
    decodeTableWord 8 0b01101000 = some .pla ∧
    decodeTableWord 8 0b00101000 = some .plp := by decide

theorem test_decode_arithmetic :
    decodeTableWord 24 0b010000101000000101111001 = some (.adc (.absY 0x4281)) ∧
    decodeTableWord 16 0b1000000111110101 = some (.sbc (.zpX 0x81)) ∧
    decodeTableWord 16 0b1000000111000101 = some (.cmp (.zp 0x81)) ∧
    decodeTableWord 16 0b1000000111100000 = some (.cpx (.imm 0x81)) ∧
    decodeTableWord 24 0b010000101000000111001100 = some (.cpy (.abs 0x4281)) ∧
    decodeTableWord 24 0b010000101000000111111110 = some (.inc (.absX 0x4281)) ∧
    decodeTableWord 8 0b11101000 = some .inx ∧
    decodeTableWord 8 0b11001000 = some .iny ∧
    decodeTableWord 16 0b1000000111000110 = some (.dec (.zp 0x81)) ∧
    decodeTableWord 8 0b11001010 = some .dex ∧
    decodeTableWord 8 0b10001000 = some .dey := by decide

theorem test_decode_logic_shift :
    decodeTableWord 24 0b010000101000000100101101 = some (.and (.abs 0x4281)) ∧
    decodeTableWord 24 0b010000101000000100011101 = some (.ora (.absX 0x4281)) ∧
    decodeTableWord 16 0b1000000101000001 = some (.eor (.indX 0x81)) ∧
    decodeTableWord 16 0b1000000100100100 = some (.bit (.zp 0x81)) ∧
    decodeTableWord 8 0b00001010 = some (.asl .acc) ∧
    decodeTableWord 24 0b010000101000000101001110 = some (.lsr (.abs 0x4281)) ∧
    decodeTableWord 16 0b1000000100110110 = some (.rol (.zpX 0x81)) ∧
    decodeTableWord 8 0b01101010 = some (.ror .acc) := by decide

theorem test_decode_control_flow :
    decodeTableWord 16 0b1000000110010000 = some (.bcc 0x81) ∧
    decodeTableWord 16 0b1000000110110000 = some (.bcs 0x81) ∧
    decodeTableWord 16 0b1000000111110000 = some (.beq 0x81) ∧
    decodeTableWord 16 0b1000000111010000 = some (.bne 0x81) ∧
    decodeTableWord 16 0b1000000100110000 = some (.bmi 0x81) ∧
    decodeTableWord 16 0b1000000100010000 = some (.bpl 0x81) ∧
    decodeTableWord 16 0b1000000101010000 = some (.bvc 0x81) ∧
    decodeTableWord 16 0b1000000101110000 = some (.bvs 0x81) ∧
    decodeTableWord 24 0b010000101000000101101100 = some (.jmp (.ind 0x4281)) ∧
    decodeTableWord 24 0b010000101000000100100000 = some (.jsr 0x4281) ∧
    decodeTableWord 8 0b01100000 = some .rts := by decide

theorem test_decode_flags_system :
    decodeTableWord 8 0b00011000 = some .clc ∧
    decodeTableWord 8 0b00111000 = some .sec ∧
    decodeTableWord 8 0b01011000 = some .cli ∧
    decodeTableWord 8 0b01111000 = some .sei ∧
    decodeTableWord 8 0b11011000 = some .cld ∧
    decodeTableWord 8 0b11111000 = some .sed ∧
    decodeTableWord 8 0b10111000 = some .clv ∧
    decodeTableWord 8 0b11101010 = some .nop ∧
    decodeTableWord 8 0b00000000 = some .brk ∧
    decodeTableWord 8 0b01000000 = some .rti ∧
    decodeTableWord 8 0b00000010 = some (.illegal 0x02) := by decide

/-! ### One-step vectors of `95_test_vectors.md`, at most two for an instruction -/

/-! ### Loads, stores, transfers (file 40) -/

/-- V2.4: R121, R100. -/
theorem test_v2_4_lda :
    ends ((start 0x8000 [0xA1, 0xFE] [(0x0000, 0x12), (0x00FF, 0x34), (0x0100, 0x77), (0x1234, 0xAB), (0x7734, 0xCD)]).setX 0x01)
      0xAB 0x01 0x00 0xFD 0xB4 0x8002 false []
      [.read 0x8000 0xA1, .read 0x8001 0xFE, .read 0x00FF 0x34, .read 0x0000 0x12, .read 0x1234 0xAB] = true := by decide

/-- V2.5: R121, R101. -/
theorem test_v2_5_lda :
    ends ((start 0x8000 [0xB1, 0xFF] [(0x0000, 0xFF), (0x0008, 0x42), (0x00FF, 0xF8), (0x0100, 0x20)]).setY 0x10)
      0x42 0x00 0x10 0xFD 0x34 0x8002 false []
      [.read 0x8000 0xB1, .read 0x8001 0xFF, .read 0x00FF 0xF8, .read 0x0000 0xFF, .read 0x0008 0x42] = true := by decide

/-- V2.6: R122, R95. -/
theorem test_v2_6_ldx :
    ends ((start 0x8000 [0xB6, 0x80] [(0x0010, 0x80)]).setY 0x90)
      0x00 0x80 0x90 0xFD 0xB4 0x8002 false []
      [.read 0x8000 0xB6, .read 0x8001 0x80, .read 0x0010 0x80] = true := by decide

/-- V2.7: R123, R97. -/
theorem test_v2_7_ldy :
    ends (((start 0x8000 [0xBC, 0x00, 0x03] [(0x0305, 0x00)]).setX 0x05).setY 0x09)
      0x00 0x05 0x00 0xFD 0x36 0x8003 false []
      [.read 0x8000 0xBC, .read 0x8001 0x00, .read 0x8002 0x03, .read 0x0305 0x00] = true := by decide

/-- V2.8: R124, R101. -/
theorem test_v2_8_sta :
    ends (((start 0x8000 [0x91, 0x20] [(0x0020, 0xFF), (0x0021, 0x02)]).setA 0x5A).setY 0x01)
      0x5A 0x00 0x01 0xFD 0x34 0x8002 false [(0x0300, 0x5A)]
      [.read 0x8000 0x91, .read 0x8001 0x20, .read 0x0020 0xFF, .read 0x0021 0x02, .write 0x0300 0x5A] = true := by decide

/-- V2.9: R124, R251. -/
theorem test_v2_9_sta :
    ends ((start 0x8000 [0x8D, 0x0F, 0x20] []).setA 0x2A)
      0x2A 0x00 0x00 0xFD 0x34 0x8003 false []
      [.read 0x8000 0x8D, .read 0x8001 0x0F, .read 0x8002 0x20, .write 0x200F 0x2A] = true := by decide

/-- V2.10: R125, R95. -/
theorem test_v2_10_stx :
    ends (((start 0x8000 [0x96, 0xFF] []).setX 0x07).setY 0x01)
      0x00 0x07 0x01 0xFD 0x34 0x8002 false [(0x0000, 0x07)]
      [.read 0x8000 0x96, .read 0x8001 0xFF, .write 0x0000 0x07] = true := by decide

/-- V2.11: R126. -/
theorem test_v2_11_sty :
    ends ((start 0x8000 [0x84, 0x10] []).setY 0xFF)
      0x00 0x00 0xFF 0xFD 0x34 0x8002 false [(0x0010, 0xFF)]
      [.read 0x8000 0x84, .read 0x8001 0x10, .write 0x0010 0xFF] = true := by decide

/-- V2.12: R127. -/
theorem test_v2_12_tax :
    ends (((start 0x8000 [0xAA] []).setA 0x00).setX 0x33)
      0x00 0x00 0x00 0xFD 0x36 0x8001 false []
      [.read 0x8000 0xAA] = true := by decide

/-- V2.13: R128. -/
theorem test_v2_13_tay :
    ends ((start 0x8000 [0xA8] []).setA 0x90)
      0x90 0x00 0x90 0xFD 0xB4 0x8001 false []
      [.read 0x8000 0xA8] = true := by decide

/-- V2.14: R129. -/
theorem test_v2_14_txa :
    ends (((start 0x8000 [0x8A] []).setA 0xFF).setX 0x7F)
      0x7F 0x7F 0x00 0xFD 0x34 0x8001 false []
      [.read 0x8000 0x8A] = true := by decide

/-- V2.15: R130. -/
theorem test_v2_15_tya :
    ends (((start 0x8000 [0x98] []).setA 0x01).setY 0x00)
      0x00 0x00 0x00 0xFD 0x36 0x8001 false []
      [.read 0x8000 0x98] = true := by decide

/-- V2.16: R131. -/
theorem test_v2_16_tsx :
    ends (start 0x8000 [0xBA] [])
      0x00 0xFD 0x00 0xFD 0xB4 0x8001 false []
      [.read 0x8000 0xBA] = true := by decide

/-- V2.17: R132. -/
theorem test_v2_17_txs :
    ends (((start 0x8000 [0x9A] []).setX 0x00).setP 0xB4)
      0x00 0x00 0x00 0x00 0xB4 0x8001 false []
      [.read 0x8000 0x9A] = true := by decide

/-! ### Stack (file 41) -/

/-- V2.20: R141, R62. -/
theorem test_v2_20_pha :
    ends (((start 0x8000 [0x48] []).setA 0x42).setSP 0x00)
      0x42 0x00 0x00 0xFF 0x34 0x8001 false [(0x0100, 0x42)]
      [.read 0x8000 0x48, .write 0x0100 0x42] = true := by decide

/-- V2.21: R143, R62. -/
theorem test_v2_21_pla :
    ends ((start 0x8000 [0x68] [(0x0100, 0x80), (0x0200, 0x11)]).setSP 0xFF)
      0x80 0x00 0x00 0x00 0xB4 0x8001 false []
      [.read 0x8000 0x68, .read 0x0100 0x80] = true := by decide

/-- V2.22: R142. -/
theorem test_v2_22_php :
    ends ((start 0x8000 [0x08] []).setP 0x00)
      0x00 0x00 0x00 0xFC 0x00 0x8001 false [(0x01FD, 0x30)]
      [.read 0x8000 0x08, .write 0x01FD 0x30] = true := by decide

/-- V2.23: R142. -/
theorem test_v2_23_php :
    ends ((start 0x8000 [0x08] []).setP 0xCF)
      0x00 0x00 0x00 0xFC 0xCF 0x8001 false [(0x01FD, 0xFF)]
      [.read 0x8000 0x08, .write 0x01FD 0xFF] = true := by decide

/-- V2.24: R144. -/
theorem test_v2_24_plp :
    ends ((start 0x8000 [0x28] [(0x01FD, 0x00)]).setSP 0xFC)
      0x00 0x00 0x00 0xFD 0x00 0x8001 false []
      [.read 0x8000 0x28, .read 0x01FD 0x00] = true := by decide

/-- V2.25: R144. -/
theorem test_v2_25_plp :
    ends ((start 0x8000 [0x28] [(0x01FD, 0xFF)]).setSP 0xFC)
      0x00 0x00 0x00 0xFD 0xFF 0x8001 false []
      [.read 0x8000 0x28, .read 0x01FD 0xFF] = true := by decide

/-! ### Arithmetic (file 42) -/

/-- V2.30: R153. -/
theorem test_v2_30_adc :
    ends (((start 0x8000 [0x69, 0x7F] []).setA 0x7F).setP 0x35)
      0xFF 0x00 0x00 0xFD 0xF4 0x8002 false []
      [.read 0x8000 0x69, .read 0x8001 0x7F] = true := by decide

/-- V2.32: R153, R152. -/
theorem test_v2_32_adc :
    ends (((start 0x8000 [0x69, 0x01] []).setA 0x09).setP 0x3C)
      0x0A 0x00 0x00 0xFD 0x3C 0x8002 false []
      [.read 0x8000 0x69, .read 0x8001 0x01] = true := by decide

/-- V2.38: R154. -/
theorem test_v2_38_sbc :
    ends (((start 0x8000 [0xE9, 0x7F] []).setA 0x80).setP 0x34)
      0x00 0x00 0x00 0xFD 0x77 0x8002 false []
      [.read 0x8000 0xE9, .read 0x8001 0x7F] = true := by decide

/-- V2.39: R154, R152. -/
theorem test_v2_39_sbc :
    ends (((start 0x8000 [0xE9, 0x01] []).setA 0x10).setP 0x3D)
      0x0F 0x00 0x00 0xFD 0x3D 0x8002 false []
      [.read 0x8000 0xE9, .read 0x8001 0x01] = true := by decide

/-- V2.42: R155. -/
theorem test_v2_42_cmp :
    ends (((start 0x8000 [0xC9, 0x20] []).setA 0x20).setP 0xF4)
      0x20 0x00 0x00 0xFD 0x77 0x8002 false []
      [.read 0x8000 0xC9, .read 0x8001 0x20] = true := by decide

/-- V2.43: R155. -/
theorem test_v2_43_cmp :
    ends ((start 0x8000 [0xC9, 0x01] []).setA 0x80)
      0x80 0x00 0x00 0xFD 0x35 0x8002 false []
      [.read 0x8000 0xC9, .read 0x8001 0x01] = true := by decide

/-- V2.44: R156. -/
theorem test_v2_44_cpx :
    ends ((start 0x8000 [0xE4, 0x10] [(0x0010, 0x00)]).setX 0xFF)
      0x00 0xFF 0x00 0xFD 0xB5 0x8002 false []
      [.read 0x8000 0xE4, .read 0x8001 0x10, .read 0x0010 0x00] = true := by decide

/-- V2.45: R157. -/
theorem test_v2_45_cpy :
    ends ((start 0x8000 [0xCC, 0x00, 0x03] [(0x0300, 0x01)]).setY 0x00)
      0x00 0x00 0x00 0xFD 0xB4 0x8003 false []
      [.read 0x8000 0xCC, .read 0x8001 0x00, .read 0x8002 0x03, .read 0x0300 0x01] = true := by decide

/-- V2.46: R158. -/
theorem test_v2_46_inc :
    ends ((start 0x8000 [0xE6, 0x10] [(0x0010, 0xFF)]).setP 0x35)
      0x00 0x00 0x00 0xFD 0x37 0x8002 false [(0x0010, 0x00)]
      [.read 0x8000 0xE6, .read 0x8001 0x10, .read 0x0010 0xFF, .write 0x0010 0x00] = true := by decide

/-- V2.47: R158. -/
theorem test_v2_47_inc :
    ends ((start 0x8000 [0xFE, 0xF0, 0x02] [(0x0300, 0x7F)]).setX 0x10)
      0x00 0x10 0x00 0xFD 0xB4 0x8003 false [(0x0300, 0x80)]
      [.read 0x8000 0xFE, .read 0x8001 0xF0, .read 0x8002 0x02, .read 0x0300 0x7F, .write 0x0300 0x80] = true := by decide

/-- V2.48: R161. -/
theorem test_v2_48_dec :
    ends (start 0x8000 [0xC6, 0x10] [(0x0010, 0x00)])
      0x00 0x00 0x00 0xFD 0xB4 0x8002 false [(0x0010, 0xFF)]
      [.read 0x8000 0xC6, .read 0x8001 0x10, .read 0x0010 0x00, .write 0x0010 0xFF] = true := by decide

/-- V2.49: R161. -/
theorem test_v2_49_dec :
    ends ((start 0x8000 [0xD6, 0xF0] [(0x0010, 0x01), (0x0110, 0x55)]).setX 0x20)
      0x00 0x20 0x00 0xFD 0x36 0x8002 false [(0x0010, 0x00)]
      [.read 0x8000 0xD6, .read 0x8001 0xF0, .read 0x0010 0x01, .write 0x0010 0x00] = true := by decide

/-- V2.50: R159. -/
theorem test_v2_50_inx :
    ends (((start 0x8000 [0xE8] []).setX 0xFF).setP 0x35)
      0x00 0x00 0x00 0xFD 0x37 0x8001 false []
      [.read 0x8000 0xE8] = true := by decide

/-- V2.51: R159. -/
theorem test_v2_51_inx :
    ends (((start 0x8000 [0xE8] []).setX 0x7F).setP 0x74)
      0x00 0x80 0x00 0xFD 0xF4 0x8001 false []
      [.read 0x8000 0xE8] = true := by decide

/-- V2.52: R160. -/
theorem test_v2_52_iny :
    ends ((start 0x8000 [0xC8] []).setY 0xFF)
      0x00 0x00 0x00 0xFD 0x36 0x8001 false []
      [.read 0x8000 0xC8] = true := by decide

/-- V2.53: R162. -/
theorem test_v2_53_dex :
    ends (((start 0x8000 [0xCA] []).setX 0x00).setP 0x35)
      0x00 0xFF 0x00 0xFD 0xB5 0x8001 false []
      [.read 0x8000 0xCA] = true := by decide

/-- V2.54: R163. -/
theorem test_v2_54_dey :
    ends ((start 0x8000 [0x88] []).setY 0x01)
      0x00 0x00 0x00 0xFD 0x36 0x8001 false []
      [.read 0x8000 0x88] = true := by decide

/-- V2.55: R163. -/
theorem test_v2_55_dey :
    ends ((start 0x8000 [0x88] []).setY 0x00)
      0x00 0x00 0xFF 0xFD 0xB4 0x8001 false []
      [.read 0x8000 0x88] = true := by decide

/-! ### Logic, shifts (file 43) -/

/-- V2.60: R171. -/
theorem test_v2_60_and :
    ends (((start 0x8000 [0x29, 0x0F] []).setA 0xF0).setP 0xF5)
      0x00 0x00 0x00 0xFD 0x77 0x8002 false []
      [.read 0x8000 0x29, .read 0x8001 0x0F] = true := by decide

/-- V2.61: R172. -/
theorem test_v2_61_ora :
    ends ((start 0x8000 [0x09, 0x00] []).setA 0x00)
      0x00 0x00 0x00 0xFD 0x36 0x8002 false []
      [.read 0x8000 0x09, .read 0x8001 0x00] = true := by decide

/-- V2.62: R173. -/
theorem test_v2_62_eor :
    ends ((start 0x8000 [0x49, 0xFF] []).setA 0xFF)
      0x00 0x00 0x00 0xFD 0x36 0x8002 false []
      [.read 0x8000 0x49, .read 0x8001 0xFF] = true := by decide

/-- V2.63: R173. -/
theorem test_v2_63_eor :
    ends (((start 0x8000 [0x5D, 0x00, 0x03] [(0x0302, 0xF0)]).setA 0x0F).setX 0x02)
      0xFF 0x02 0x00 0xFD 0xB4 0x8003 false []
      [.read 0x8000 0x5D, .read 0x8001 0x00, .read 0x8002 0x03, .read 0x0302 0xF0] = true := by decide

/-- V2.64: R174. -/
theorem test_v2_64_bit :
    ends ((start 0x8000 [0x24, 0x10] [(0x0010, 0xC0)]).setA 0x00)
      0x00 0x00 0x00 0xFD 0xF6 0x8002 false []
      [.read 0x8000 0x24, .read 0x8001 0x10, .read 0x0010 0xC0] = true := by decide

/-- V2.65: R174. -/
theorem test_v2_65_bit :
    ends (((start 0x8000 [0x2C, 0x00, 0x03] [(0x0300, 0x3F)]).setA 0xFF).setP 0xF4)
      0xFF 0x00 0x00 0xFD 0x34 0x8003 false []
      [.read 0x8000 0x2C, .read 0x8001 0x00, .read 0x8002 0x03, .read 0x0300 0x3F] = true := by decide

/-- V2.66: R175. -/
theorem test_v2_66_asl :
    ends ((start 0x8000 [0x0A] []).setA 0x80)
      0x00 0x00 0x00 0xFD 0x37 0x8001 false []
      [.read 0x8000 0x0A] = true := by decide

/-- V2.67: R175. -/
theorem test_v2_67_asl :
    ends (((start 0x8000 [0x06, 0x10] [(0x0010, 0x41)]).setA 0x77).setP 0x35)
      0x77 0x00 0x00 0xFD 0xB4 0x8002 false [(0x0010, 0x82)]
      [.read 0x8000 0x06, .read 0x8001 0x10, .read 0x0010 0x41, .write 0x0010 0x82] = true := by decide

/-- V2.68: R176. -/
theorem test_v2_68_lsr :
    ends (((start 0x8000 [0x4A] []).setA 0x01).setP 0xB4)
      0x00 0x00 0x00 0xFD 0x37 0x8001 false []
      [.read 0x8000 0x4A] = true := by decide

/-- V2.69: R176. -/
theorem test_v2_69_lsr :
    ends (start 0x8000 [0x4E, 0x00, 0x03] [(0x0300, 0xFE)])
      0x00 0x00 0x00 0xFD 0x34 0x8003 false [(0x0300, 0x7F)]
      [.read 0x8000 0x4E, .read 0x8001 0x00, .read 0x8002 0x03, .read 0x0300 0xFE, .write 0x0300 0x7F] = true := by decide

/-- V2.71: R177. -/
theorem test_v2_71_rol :
    ends (((start 0x8000 [0x2A] []).setA 0x00).setP 0x35)
      0x01 0x00 0x00 0xFD 0x34 0x8001 false []
      [.read 0x8000 0x2A] = true := by decide

/-- V2.72: R177. -/
theorem test_v2_72_rol :
    ends (((start 0x8000 [0x36, 0x0F] [(0x0010, 0xC0)]).setX 0x01).setP 0x35)
      0x00 0x01 0x00 0xFD 0xB5 0x8002 false [(0x0010, 0x81)]
      [.read 0x8000 0x36, .read 0x8001 0x0F, .read 0x0010 0xC0, .write 0x0010 0x81] = true := by decide

/-- V2.74: R178. -/
theorem test_v2_74_ror :
    ends (((start 0x8000 [0x6A] []).setA 0x00).setP 0x35)
      0x80 0x00 0x00 0xFD 0xB4 0x8001 false []
      [.read 0x8000 0x6A] = true := by decide

/-- V2.75: R178. -/
theorem test_v2_75_ror :
    ends (((start 0x8000 [0x7E, 0xFF, 0x02] [(0x0300, 0x03)]).setX 0x01).setP 0x35)
      0x00 0x01 0x00 0xFD 0xB5 0x8003 false [(0x0300, 0x81)]
      [.read 0x8000 0x7E, .read 0x8001 0xFF, .read 0x8002 0x02, .read 0x0300 0x03, .write 0x0300 0x81] = true := by decide

/-! ### Control flow (file 44) -/

/-- V2.80: R191. -/
theorem test_v2_80_bcc :
    ends (start 0x8000 [0x90, 0x02] [])
      0x00 0x00 0x00 0xFD 0x34 0x8004 false []
      [.read 0x8000 0x90, .read 0x8001 0x02] = true := by decide

/-- V2.81: R191. -/
theorem test_v2_81_bcc :
    ends ((start 0x8000 [0x90, 0x02] []).setP 0x35)
      0x00 0x00 0x00 0xFD 0x35 0x8002 false []
      [.read 0x8000 0x90, .read 0x8001 0x02] = true := by decide

/-- V2.82: R192. -/
theorem test_v2_82_bcs :
    ends ((start 0x8000 [0xB0, 0xFE] []).setP 0x35)
      0x00 0x00 0x00 0xFD 0x35 0x8000 false []
      [.read 0x8000 0xB0, .read 0x8001 0xFE] = true := by decide

/-- V2.83: R192. -/
theorem test_v2_83_bcs :
    ends ((start 0x8000 [0xB0, 0xFE] []).setP 0x34)
      0x00 0x00 0x00 0xFD 0x34 0x8002 false []
      [.read 0x8000 0xB0, .read 0x8001 0xFE] = true := by decide

/-- V2.85: R193. -/
theorem test_v2_85_beq :
    ends ((start 0x9000 [0xF0, 0x10] []).setP 0x34)
      0x00 0x00 0x00 0xFD 0x34 0x9002 false []
      [.read 0x9000 0xF0, .read 0x9001 0x10] = true := by decide

/-- V2.86: R194. -/
theorem test_v2_86_bne :
    ends ((start 0x8002 [0xD0, 0xFC] []).setP 0x34)
      0x00 0x00 0x00 0xFD 0x34 0x8000 false []
      [.read 0x8002 0xD0, .read 0x8003 0xFC] = true := by decide

/-- V2.88: R195. -/
theorem test_v2_88_bmi :
    ends ((start 0x1000 [0x30, 0x7F] []).setP 0xB4)
      0x00 0x00 0x00 0xFD 0xB4 0x1081 false []
      [.read 0x1000 0x30, .read 0x1001 0x7F] = true := by decide

/-- V2.89: R195. -/
theorem test_v2_89_bmi :
    ends ((start 0x1000 [0x30, 0x7F] []).setP 0x34)
      0x00 0x00 0x00 0xFD 0x34 0x1002 false []
      [.read 0x1000 0x30, .read 0x1001 0x7F] = true := by decide

/-- V2.90: R196. -/
theorem test_v2_90_bpl :
    ends ((start 0x1000 [0x10, 0x80] []).setP 0x34)
      0x00 0x00 0x00 0xFD 0x34 0x0F82 false []
      [.read 0x1000 0x10, .read 0x1001 0x80] = true := by decide

/-- V2.91: R196. -/
theorem test_v2_91_bpl :
    ends ((start 0x1000 [0x10, 0x80] []).setP 0xB4)
      0x00 0x00 0x00 0xFD 0xB4 0x1002 false []
      [.read 0x1000 0x10, .read 0x1001 0x80] = true := by decide

/-- V2.92: R197. -/
theorem test_v2_92_bvc :
    ends ((start 0x2000 [0x50, 0x04] []).setP 0x34)
      0x00 0x00 0x00 0xFD 0x34 0x2006 false []
      [.read 0x2000 0x50, .read 0x2001 0x04] = true := by decide

/-- V2.93: R197. -/
theorem test_v2_93_bvc :
    ends ((start 0x2000 [0x50, 0x04] []).setP 0x74)
      0x00 0x00 0x00 0xFD 0x74 0x2002 false []
      [.read 0x2000 0x50, .read 0x2001 0x04] = true := by decide

/-- V2.94: R198. -/
theorem test_v2_94_bvs :
    ends ((start 0x2000 [0x70, 0x04] []).setP 0x74)
      0x00 0x00 0x00 0xFD 0x74 0x2006 false []
      [.read 0x2000 0x70, .read 0x2001 0x04] = true := by decide

/-- V2.95: R198. -/
theorem test_v2_95_bvs :
    ends ((start 0x2000 [0x70, 0x04] []).setP 0x34)
      0x00 0x00 0x00 0xFD 0x34 0x2002 false []
      [.read 0x2000 0x70, .read 0x2001 0x04] = true := by decide

/-- V2.97: R190, R32. -/
theorem test_v2_97_bne :
    ends (start 0xFFFF [0xD0, 0x05] [(0x0000, 0x05)])
      0x00 0x00 0x00 0xFD 0x34 0x0006 false []
      [.read 0xFFFF 0xD0, .read 0x0000 0x05] = true := by decide

/-- V2.98: R190. -/
theorem test_v2_98_beq :
    ends ((start 0x0010 [0xF0, 0x80] []).setP 0x36)
      0x00 0x00 0x00 0xFD 0x36 0xFF92 false []
      [.read 0x0010 0xF0, .read 0x0011 0x80] = true := by decide

/-- V2.99: R199. -/
theorem test_v2_99_jmp :
    ends (start 0x8000 [0x4C, 0x00, 0x80] [])
      0x00 0x00 0x00 0xFD 0x34 0x8000 false []
      [.read 0x8000 0x4C, .read 0x8001 0x00, .read 0x8002 0x80] = true := by decide

/-- V2.100: R199, R99. -/
theorem test_v2_100_jmp :
    ends (start 0x8000 [0x6C, 0x00, 0x03] [(0x0300, 0x34), (0x0301, 0x12)])
      0x00 0x00 0x00 0xFD 0x34 0x1234 false []
      [.read 0x8000 0x6C, .read 0x8001 0x00, .read 0x8002 0x03, .read 0x0300 0x34, .read 0x0301 0x12] = true := by decide

/-- V2.102: R200. -/
theorem test_v2_102_jsr :
    ends (start 0x8000 [0x20, 0x00, 0x90] [])
      0x00 0x00 0x00 0xFB 0x34 0x9000 false [(0x01FC, 0x02), (0x01FD, 0x80)]
      [.read 0x8000 0x20, .read 0x8001 0x00, .read 0x8002 0x90, .write 0x01FD 0x80, .write 0x01FC 0x02] = true := by decide

/-- V2.104: R200, R62. -/
theorem test_v2_104_jsr :
    ends ((start 0x8000 [0x20, 0x00, 0x90] []).setSP 0x00)
      0x00 0x00 0x00 0xFE 0x34 0x9000 false [(0x0100, 0x80), (0x01FF, 0x02)]
      [.read 0x8000 0x20, .read 0x8001 0x00, .read 0x8002 0x90, .write 0x0100 0x80, .write 0x01FF 0x02] = true := by decide

/-- V2.106: R201. -/
theorem test_v2_106_rts :
    ends ((start 0x8000 [0x60] [(0x01FC, 0xFF), (0x01FD, 0xFF)]).setSP 0xFB)
      0x00 0x00 0x00 0xFD 0x34 0x0000 false []
      [.read 0x8000 0x60, .read 0x01FC 0xFF, .read 0x01FD 0xFF] = true := by decide

/-- V2.107: R201, R62. -/
theorem test_v2_107_rts :
    ends ((start 0x8000 [0x60] [(0x0100, 0x20), (0x01FF, 0x10)]).setSP 0xFE)
      0x00 0x00 0x00 0x00 0x34 0x2011 false []
      [.read 0x8000 0x60, .read 0x01FF 0x10, .read 0x0100 0x20] = true := by decide

/-! ### Flags, NOP, BRK, RTI, illegal (file 45) -/

/-- V2.110: R211. -/
theorem test_v2_110_clc :
    ends ((start 0x8000 [0x18] []).setP 0xFF)
      0x00 0x00 0x00 0xFD 0xFE 0x8001 false []
      [.read 0x8000 0x18] = true := by decide

/-- V2.111: R212. -/
theorem test_v2_111_sec :
    ends ((start 0x8000 [0x38] []).setP 0x00)
      0x00 0x00 0x00 0xFD 0x01 0x8001 false []
      [.read 0x8000 0x38] = true := by decide

/-- V2.112: R213. -/
theorem test_v2_112_cli :
    ends ((start 0x8000 [0x58] []).setP 0x34)
      0x00 0x00 0x00 0xFD 0x30 0x8001 false []
      [.read 0x8000 0x58] = true := by decide

/-- V2.113: R214. -/
theorem test_v2_113_sei :
    ends ((start 0x8000 [0x78] []).setP 0x30)
      0x00 0x00 0x00 0xFD 0x34 0x8001 false []
      [.read 0x8000 0x78] = true := by decide

/-- V2.114: R215. -/
theorem test_v2_114_cld :
    ends ((start 0x8000 [0xD8] []).setP 0x3C)
      0x00 0x00 0x00 0xFD 0x34 0x8001 false []
      [.read 0x8000 0xD8] = true := by decide

/-- V2.115: R216. -/
theorem test_v2_115_sed :
    ends ((start 0x8000 [0xF8] []).setP 0x34)
      0x00 0x00 0x00 0xFD 0x3C 0x8001 false []
      [.read 0x8000 0xF8] = true := by decide

/-- V2.116: R217. -/
theorem test_v2_116_clv :
    ends ((start 0x8000 [0xB8] []).setP 0x74)
      0x00 0x00 0x00 0xFD 0x34 0x8001 false []
      [.read 0x8000 0xB8] = true := by decide

/-- V2.117: R218. -/
theorem test_v2_117_nop :
    ends (((((start 0x8000 [0xEA] []).setA 0x12).setX 0x34).setY 0x56).setP 0xC3)
      0x12 0x34 0x56 0xFD 0xC3 0x8001 false []
      [.read 0x8000 0xEA] = true := by decide

/-- V2.118: R219. -/
theorem test_v2_118_brk :
    ends ((start 0x8000 [0x00, 0xEA] [(0xFFFE, 0x00), (0xFFFF, 0x90)]).setP 0x30)
      0x00 0x00 0x00 0xFA 0x34 0x9000 false [(0x01FB, 0x30), (0x01FC, 0x02), (0x01FD, 0x80)]
      [.read 0x8000 0x00, .write 0x01FD 0x80, .write 0x01FC 0x02, .write 0x01FB 0x30, .read 0xFFFE 0x00, .read 0xFFFF 0x90] = true := by decide

/-- V2.119: R219. -/
theorem test_v2_119_brk :
    ends (((start 0x80FF [0x00] [(0xFFFE, 0x00), (0xFFFF, 0x90)]).setSP 0x01).setP 0xCB)
      0x00 0x00 0x00 0xFE 0xCF 0x9000 false [(0x0100, 0x01), (0x0101, 0x81), (0x01FF, 0xFB)]
      [.read 0x80FF 0x00, .write 0x0101 0x81, .write 0x0100 0x01, .write 0x01FF 0xFB, .read 0xFFFE 0x00, .read 0xFFFF 0x90] = true := by decide

/-- V2.120: R220. -/
theorem test_v2_120_rti :
    ends ((start 0x8000 [0x40] [(0x01FB, 0x30), (0x01FC, 0x02), (0x01FD, 0x80)]).setSP 0xFA)
      0x00 0x00 0x00 0xFD 0x30 0x8002 false []
      [.read 0x8000 0x40, .read 0x01FB 0x30, .read 0x01FC 0x02, .read 0x01FD 0x80] = true := by decide

/-- V2.121: R220. -/
theorem test_v2_121_rti :
    ends (((start 0x8000 [0x40] [(0x01FB, 0xC3), (0x01FC, 0x00), (0x01FD, 0x90)]).setSP 0xFA).setP 0x34)
      0x00 0x00 0x00 0xFD 0xC3 0x9000 false []
      [.read 0x8000 0x40, .read 0x01FB 0xC3, .read 0x01FC 0x00, .read 0x01FD 0x90] = true := by decide

/-- V2.122: R221. -/
theorem test_v2_122_illegal :
    ends ((((start 0x8007 [0x02, 0xFF] []).setA 0x12).setX 0x0A).setP 0x36)
      0x12 0x0A 0x00 0xFD 0x36 0x8008 true []
      [.read 0x8007 0x02] = true := by decide

/-- V2.123: R221. -/
theorem test_v2_123_illegal :
    ends (start 0xFFFF [0xFF] [])
      0x00 0x00 0x00 0xFD 0x34 0x0000 true []
      [.read 0xFFFF 0xFF] = true := by decide

/-! ### Interrupts, masking, priority, reset (files 60, 70): V2.130 to V2.138 -/

/-- What V2.130 to V2.138 have in memory. -/
def vectors (opcode : Byte) : State :=
  start 0x8000 [opcode, 0xE8] [(0xFFFA, 0x00), (0xFFFB, 0x91), (0xFFFE, 0x00), (0xFFFF, 0x90), (0xFFFC, 0x20), (0xFFFD, 0x40)]

/-- V2.131: R241, R62, R28. -/
theorem test_v2_131_nmi :
    ends (((((vectors 0xE8).setPC 0x1234).setSP 0x01).setP 0xF3).setNmi true)
      0x00 0x00 0x00 0xFE 0xF7 0x9100 false [(0x0101, 0x12), (0x0100, 0x34), (0x01FF, 0xE3)]
      [.write 0x0101 0x12, .write 0x0100 0x34, .write 0x01FF 0xE3, .read 0xFFFA 0x00, .read 0xFFFB 0x91] = true := by decide

/-- V2.132: R242. -/
theorem test_v2_132_irq :
    ends (((vectors 0xE8).setP 0x30).setIrq true)
      0x00 0x00 0x00 0xFA 0x34 0x9000 false [(0x01FD, 0x80), (0x01FC, 0x00), (0x01FB, 0x20)]
      [.write 0x01FD 0x80, .write 0x01FC 0x00, .write 0x01FB 0x20, .read 0xFFFE 0x00, .read 0xFFFF 0x90] = true := by decide

/-- V2.133: R238: a masked IRQ waits and stays latched. -/
theorem test_v2_133_masked :
    next (step ((vectors 0xE8).setIrq true)) (fun t => t.x == 0x01 && t.pc == 0x8001 && t.irqPending && t.bus == [.read 0x8000 0xE8])
      = true := by decide

/-- V2.134: R239: NMI before IRQ, which stays latched. -/
theorem test_v2_134_priority :
    next (step ((((vectors 0xE8).setP 0x30).setIrq true).setNmi true))
      (fun t => t.pc == 0x9100 && t.sp == 0xFA && t.p == 0x34 && !t.nmiPending && t.irqPending && t.mem.peek 0x01FB == 0x20) = true := by
  decide

/-- V2.136: R232, R248: no step of a halted core. -/
theorem test_v2_136_halted : step (((vectors 0xE8).setHalted true).setNmi true) = .fault .halted := rfl

/-- V1.5, V2.137: R270: reset from any prior state. -/
theorem test_v1_5_reset :
    let s := ((((((vectors 0xE8).setA 0x11).setX 0x22).setY 0x33).setSP 0x44).setP 0xFF).setPC 0x5555
    let t := (((s.setHalted true).setNmi true).setIrq true).resetEvent
    t.a = 0x00 ∧ t.x = 0x00 ∧ t.y = 0x00 ∧ t.sp = 0xFD ∧ t.p = 0x34 ∧ t.pc = 0x4020 ∧ t.halted = false ∧
      t.nmiPending = false ∧ t.irqPending = false ∧ t.bus = [.read 0xFFFC 0x20, .read 0xFFFD 0x40] := by decide

/-- V2.138: R245, R213: the IRQ that CLI unmasks is taken before the next instruction. -/
theorem test_v2_138_cli_then_irq :
    next (step ((vectors 0x58).setIrq true)) (fun t => t.p == 0x30 && t.pc == 0x8001 &&
      next (step t) (fun u => u.pc == 0x9000 && u.x == 0x00 && u.mem.peek 0x01FD == 0x80 && u.mem.peek 0x01FC == 0x01 &&
        u.mem.peek 0x01FB == 0x20)) = true := by decide

/-- V1.4: R251, R253: the exit ends the run, with the core not halted. -/
theorem test_v1_4_exit :
    next (step ((start 0x8000 [0x8D, 0x0F, 0x20] []).setA 0x2A))
      (fun t => t.exitCode == some 0x2A && !t.halted && stops (step t) (.exited 0x2A)) = true := by decide

/-- R7, R250, R252: the map is the host's to set. Two exits, and a print, which ends nothing. -/
theorem test_host_map :
    let s := (start 0x8000 [0x8D, 0x00, 0x30] []).setA 0x2A
    let map : HostMap := [(0x200F, .exit), (0x3000, .exit), (0x3002, .print .character)]
    next (step (s.onEvent (.configure map))) (fun t => t.exitCode == some 0x2A && t.a == 0x2A && t.pc == 0x8003) = true ∧
      next (step (s.onEvent (.configure [(0x3000, .print .registerA)])))
        (fun t => t.exitCode == none && t.a == 0x2A && t.pc == 0x8003 && !t.halted) = true := by decide

/-- R7, R252: from reset on, 0x200F is the exit, the seven other addresses are open, and all else is plain memory. -/
theorem test_default_map :
    HostMap.default.actionAt 0x200F = some .exit ∧ (HostMap.default.actionAt 0x2008 = some .device ∧
      HostMap.default.actionAt 0x200E = some .device) ∧ HostMap.default.actionAt 0x2007 = none ∧
      HostMap.default.actionAt 0x2010 = none := by decide

/-- R51, R81: the placing of a table word, and that the next step runs it: an illegal byte, and Indirect mode through 0x0000. -/
theorem test_placed_word_runs :
    next (step (State.reset.withFetchWord 8 0x02)) (fun t => t.halted && t.pc == 0x0001) = true ∧
      next (step (State.reset.withFetchWord 8 0x6C)) (fun t => t.pc == 0x006C && t.bus.length == 5) = true ∧
      next (step (State.reset.withFetchWord 8 0x00)) (fun t => t.pc == 0x0000 && t.sp == 0xFA) = true := by decide

/-- Memory keeps its canonical form: a zero written is not listed, cells stay in rising order. -/
theorem test_memory_form :
    let m := Memory.poke (Memory.poke (Memory.poke [] 0x0300 0x11) 0x00FF 0x22) 0xFFFF 0x33
    m = [(0x00FF, 0x22), (0x0300, 0x11), (0xFFFF, 0x33)] ∧ m.poke 0x0300 0x00 = [(0x00FF, 0x22), (0xFFFF, 0x33)] := by decide

/-! ### Witnesses: states and operands that meet the hypotheses of each statement that has any -/

/-- Stack locations, and 0x0000 to 0x1FFF in general, are not intercepted in a state with the reset address map. -/
theorem plain_stack (s : State) (h : s.host = HostMap.default) (q : Byte) : s.host.intercepts (stackLoc q) = false := by
  rw [h]
  revert q
  decide

/-- So are the vectors of NMI and IRQ. -/
theorem plain_vectors (s : State) (h : s.host = HostMap.default) :
    ∀ a ∈ [(0xFFFA : Addr), 0xFFFB, 0xFFFE, 0xFFFF], s.host.isDevice a = false := by
  simp only [h, List.mem_cons, List.not_mem_nil, or_false]
  rintro a (rfl | rfl | rfl | rfl) <;> rfl

theorem witness_decode_inverts_encode :
    (Instr.lda (.imm 0x00)).wellFormed = true ∧ (Instr.jmp (.ind 0xFFFF)).wellFormed = true ∧
      (Instr.illegal 0xFF).wellFormed = true ∧ (Instr.bne 0x80).wellFormed = true ∧ Instr.rti.wellFormed = true := by decide

theorem witness_encode_inverts_decode : decode [0x6C, 0xFF, 0x03, 0xEA] = .ok (.jmp (.ind 0x03FF), [0xEA]) := rfl

/-- An instruction that wraps from 0xFFFF to 0x0000, with no IRQ latched and with a masked one. -/
theorem witness_step_runs_the_decoded_instruction :
    let s := start 0xFFFF [0xAD, 0x00, 0x03] []
    s.Running ∧ s.Uninterrupted ∧ (s.setIrq true).Uninterrupted ∧
      decode [s.newEpoch.busByte 0xFFFF, s.newEpoch.busByte 0x0000, s.newEpoch.busByte 0x0001] = .ok (.lda (.abs 0x0300), []) :=
  ⟨⟨rfl, rfl⟩, ⟨rfl, .inl rfl⟩, ⟨rfl, .inr rfl⟩, rfl⟩

theorem witness_fetch_reads_memory_at_pc :
    let s := start 0xFFFE [0x4C, 0x34, 0x12] []
    s.Running ∧ s.Uninterrupted ∧
      decode ((List.range (instrLength (.jmp (.abs 0x1234)))).map fun k => s.mem.peek (s.pc + BitVec.ofNat 16 k).toNat) =
        .ok (.jmp (.abs 0x1234), []) ∧
      ∀ k < instrLength (.jmp (.abs 0x1234)), s.host.intercepts (s.pc + BitVec.ofNat 16 k) = false :=
  ⟨⟨rfl, rfl⟩, ⟨rfl, .inl rfl⟩, rfl, by decide⟩

theorem witness_step_stops_only_when_the_run_is_over :
    (State.reset.setHalted true).halted = true ∧
      ((State.reset.setExit (some 0x00)).halted = false ∧ (State.reset.setExit (some 0x00)).exitCode = some 0x00) ∧
      State.reset.Running := ⟨rfl, ⟨rfl, rfl⟩, rfl, rfl⟩

/-- NMI with I set; IRQ with I clear; both with SP at 0x00, so that the pushes wrap. -/
theorem witness_interrupt_entries :
    let s := (State.reset.setSP 0x00).setNmi true
    let t := ((State.reset.setSP 0x00).setP 0x00).setIrq true
    (s.Running ∧ s.nmiPending = true) ∧
      (t.Running ∧ t.nmiPending = false ∧ t.irqPending = true ∧ getFlag .i t.p = false) ∧
      (s.host.intercepts 0xFFFA = false ∧ s.host.intercepts 0xFFFB = false ∧ t.host.intercepts 0xFFFE = false ∧
        t.host.intercepts 0xFFFF = false) ∧
      Quiet s.host [.write 0x0100 0x00, .write 0x01FF 0x00, .write 0x01FE 0x24, .read 0xFFFA 0x00, .read 0xFFFB 0x00] :=
  ⟨⟨⟨rfl, rfl⟩, rfl⟩, ⟨⟨rfl, rfl⟩, rfl, rfl, rfl⟩, by decide, by simp only [Quiet]; decide⟩

/-- The accesses of an instruction with no open action among them, at the exit address and in plain memory. -/
theorem witness_quiet :
    Quiet State.reset.host [.read 0x01FF 0x00, .write 0x200F 0x00, .write 0x2007 0x00] ∧
      Quiet State.reset.host ((State.reset.locate (.indY 0xFF)).2.since State.reset) ∧
      ¬ Quiet State.reset.host [.read 0x2008 0x00] := by
  simp only [Quiet]
  decide

theorem witness_masked_irq_stays_latched :
    (∃ s t : State, s.Running ∧ s.nmiPending = false ∧ s.irqPending = true ∧ getFlag .i s.p = true ∧ step s = .next t) ∧
      (∃ s : State, s.Running ∧ s.nmiPending = false ∧ s.irqPending = true ∧ getFlag .i s.p = false) ∧
      ∃ s : State, s.Running ∧ s.nmiPending = true := by
  obtain ⟨t, ht, -⟩ := of_next test_v2_133_masked
  exact ⟨⟨_, t, ⟨rfl, rfl⟩, rfl, rfl, rfl, ht⟩, ⟨(State.reset.setP 0x30).setIrq true, ⟨rfl, rfl⟩, rfl, rfl, rfl⟩,
    ⟨State.reset.setNmi true, ⟨rfl, rfl⟩, rfl⟩⟩

theorem cli_unmasks :
    next (step ((vectors 0x58).setIrq true)) (fun t => getFlag .i t.p == false && t.halted == false && t.exitCode == none) = true := by
  decide

theorem witness_unmasked_irq_is_taken_next :
    ∃ s t : State, s.Running ∧ s.nmiPending = false ∧ s.irqPending = true ∧ getFlag .i s.p = true ∧ step s = .next t ∧
      getFlag .i t.p = false ∧ t.Running := by
  obtain ⟨t, ht, h⟩ := of_next cli_unmasks
  simp only [Bool.and_eq_true, beq_iff_eq] at h
  exact ⟨_, t, ⟨rfl, rfl⟩, rfl, rfl, rfl, ht, h.1.1, h.1.2, h.2⟩

theorem reset_steps : next (step State.reset) (fun t => t.sp == 0xFA) = true := by decide

theorem witness_step_keeps_the_invariant : ∃ t, State.reset.Inv ∧ step State.reset = .next t := by
  obtain ⟨t, ht, -⟩ := of_next reset_steps
  exact ⟨t, ⟨rfl, by decide⟩, ht⟩

theorem run_completes :
    next (State.runWith [[.raiseNmi], [.store 0x0000 0xEA, .raiseIrq], [.reset, .configure HostMap.default]] State.reset)
      (fun _ => true) = true := by decide

theorem witness_runs_keep_the_invariant :
    ∃ t, State.reset.Inv ∧
      State.runWith [[.raiseNmi], [.store 0x0000 0xEA, .raiseIrq], [.reset, .configure HostMap.default]] State.reset = .next t := by
  obtain ⟨t, ht, -⟩ := of_next run_completes
  exact ⟨t, ⟨rfl, by decide⟩, ht⟩

theorem witness_canonical_memories :
    let m : Memory := [(0x0000, 0x01), (0xFFFF, 0xFF)]
    m.wf = true ∧ ∀ a < 0x10000, m.peek a = m.peek a := ⟨by decide, fun _ _ => rfl⟩

theorem pha_at_the_bottom :
    next (step ((start 0x8000 [0x48] []).setSP 0x00)) (fun t => lastWrite 0x01FF t.bus == none && lastWrite 0x0100 t.bus == some 0x00 &&
      t.bus == [.read 0x8000 0x48] ++ [.write 0x0100 0x00]) = true := by decide

/-- PHA with SP at 0x00: one location written, one not; a read with a write after it. -/
theorem witness_memory_and_reads :
    ∃ s t : State, step s = .next t ∧ lastWrite 0x01FF t.bus = none ∧ lastWrite 0x0100 t.bus = some 0x00 ∧
      s.host.intercepts 0x0100 = false ∧ t.bus = [] ++ .read 0x8000 0x48 :: [.write 0x0100 0x00] ∧
      s.host.intercepts 0x8000 = false := by
  obtain ⟨t, ht, h⟩ := of_next pha_at_the_bottom
  simp only [Bool.and_eq_true, beq_iff_eq] at h
  exact ⟨_, t, ht, h.1.1, h.1.2, by decide, h.2, by decide⟩

theorem exit_write :
    next (step ((start 0x8000 [0x8D, 0x0F, 0x20] []).setA 0x2A)) (fun t => t.exitCode == some 0x2A && !t.halted &&
      t.bus == [.read 0x8000 0x8D, .read 0x8001 0x0F, .read 0x8002 0x20, .write 0x200F 0x2A]) = true := by decide

theorem witness_exit_write_ends_the_run :
    ∃ s t : State, step s = .next t ∧ t.exitCode = some 0x2A ∧ t.halted = false ∧ .write 0x200F 0x2A ∈ t.bus ∧
      s.host.actionAt 0x200F = some .exit ∧ Quiet s.host t.bus := by
  obtain ⟨t, ht, h⟩ := of_next exit_write
  simp only [Bool.and_eq_true, beq_iff_eq, Bool.not_eq_true'] at h
  refine ⟨_, t, ht, h.1.1, h.1.2, ?_, by decide, ?_⟩ <;> rw [h.2]
  · decide
  · simp only [Quiet]
    decide

/-- Instructions that complete from reset, in and outside each list that a statement about `exec` names. -/
theorem witness_exec_completes :
    (∃ t, exec .nop State.reset = .next t) ∧ (∃ t, exec (.illegal 0x02) State.reset = .next t) ∧
      (∃ t, exec (.lda (.imm 0x80)) State.reset = .next t) ∧ (∃ t, exec (.ldx (.zpY 0xFF)) State.reset = .next t) ∧
      (∃ t, exec (.asl .acc) State.reset = .next t) ∧ (∃ t, exec (.lsr .acc) State.reset = .next t) ∧
      (∃ t, exec (.sta (.indY 0xFF)) State.reset = .next t) ∧
      (Instr.lda (.imm 0x80)).wellFormed = true ∧ (Instr.ldx (.zpY 0xFF)).wellFormed = true ∧ (Instr.asl .acc).wellFormed = true ∧
      (Instr.lsr .acc).wellFormed = true ∧ (Instr.sta (.indY 0xFF)).wellFormed = true ∧ Instr.nop ≠ .plp ∧ Instr.nop ≠ .rti :=
  ⟨⟨_, rfl⟩, ⟨_, rfl⟩, ⟨_, rfl⟩, ⟨_, rfl⟩, ⟨_, rfl⟩, ⟨_, rfl⟩, ⟨_, rfl⟩, by decide⟩

theorem nmi_from_reset : next (step (State.reset.setNmi true)) (fun t => t.sp == 0xFA) = true := by decide

theorem irq_from_reset : next (step ((State.reset.setP 0x00).setIrq true)) (fun t => t.sp == 0xFA) = true := by decide

theorem witness_only_plp_and_rti_write_b_and_u :
    (∃ s t : State, s.nmiPending = true ∧ step s = .next t) ∧
      ∃ s t : State, s.irqPending = true ∧ getFlag .i s.p = false ∧ step s = .next t := by
  obtain ⟨t, ht, -⟩ := of_next nmi_from_reset
  obtain ⟨u, hu, -⟩ := of_next irq_from_reset
  exact ⟨⟨_, t, rfl, ht⟩, _, u, rfl, rfl, hu⟩

theorem witness_decimal_flag_is_inert : (Instr.adc (.imm 0x99)).op ∉ [Op.cld, .sed, .plp, .rti, .php, .brk] := by decide

theorem witness_only_listed_registers_are_written :
    Op.ldx ∉ [Op.adc, .sbc, .and, .ora, .eor, .lda, .pla, .txa, .tya] ∧
      ¬ ((Instr.asl (.zp 0x00)).op ∈ [Op.asl, .lsr, .rol, .ror] ∧ (Instr.asl (.zp 0x00)).mode = .accumulator) ∧
      Op.lda ∉ [Op.ldx, .tax, .tsx, .inx, .dex] ∧ Op.lda ∉ [Op.ldy, .tay, .iny, .dey] ∧
      Op.tsx ∉ [Op.pha, .php, .pla, .plp, .jsr, .rts, .brk, .rti, .txs] := by decide

theorem witness_pc_advances_by_the_length :
    (State.reset.setPC 0xFFFF).pc = 0xFFFF ∧ (∃ t, exec (.lda (.abs 0x0000)) (State.reset.setPC 0xFFFF) = .next t) ∧
      Op.lda ∉ [Op.bcc, .bcs, .beq, .bne, .bmi, .bpl, .bvc, .bvs, .jmp, .jsr, .rts, .rti, .brk] := ⟨rfl, ⟨_, rfl⟩, by decide⟩

theorem witness_illegal_byte_halts_for_good :
    (let s := start 0xFFFF [0xFF] []
     s.Running ∧ s.Uninterrupted ∧ s.host.intercepts s.pc = false ∧ isIllegalByte (s.mem.peek s.pc.toNat) = true) ∧
      ∃ s t : State, s.Running ∧ ¬ s.Uninterrupted ∧ step s = .next t := by
  obtain ⟨t, ht, -⟩ := of_next nmi_from_reset
  exact ⟨⟨⟨rfl, rfl⟩, ⟨rfl, .inl rfl⟩, by decide, by decide⟩, _, t, ⟨rfl, rfl⟩, fun h => Bool.noConfusion h.1, ht⟩

/-- The stack page is plain memory from reset on, at both ends of SP. -/
theorem witness_plain_stack :
    (∀ q, State.reset.host.intercepts (stackLoc q) = false) ∧ (∀ q, State.reset.host.isDevice (stackLoc q) = false) ∧
      stackLoc 0x00 = 0x0100 ∧ stackLoc 0xFF = 0x01FF ∧
      (0xFF : Nat) < 0x100 ∧ 0x200 ≤ (0x200 : Nat) :=
  ⟨plain_stack _ rfl, fun q => isDevice_plain (plain_stack _ rfl q), by decide⟩

theorem witness_pushes_of_a_whole_page : (List.replicate 256 (0xAA : Byte)).length = 256 := List.length_replicate

theorem witness_rti_undoes_interrupt_entry :
    (let s := (State.reset.setSP 0x01).setNmi true
     s.Running ∧ s.nmiPending = true ∧ (∀ q, s.host.intercepts (stackLoc q) = false) ∧
       ∀ a ∈ [(0xFFFA : Addr), 0xFFFB, 0xFFFE, 0xFFFF], s.host.isDevice a = false) ∧
      (let s := ((State.reset.setSP 0x01).setP 0x00).setIrq true
       s.Running ∧ s.irqPending = true ∧ getFlag .i s.p = false ∧ (∀ q, s.host.intercepts (stackLoc q) = false) ∧
         ∀ a ∈ [(0xFFFA : Addr), 0xFFFB, 0xFFFE, 0xFFFF], s.host.isDevice a = false) :=
  ⟨⟨⟨rfl, rfl⟩, rfl, plain_stack _ rfl, plain_vectors _ rfl⟩, ⟨rfl, rfl⟩, rfl, rfl, plain_stack _ rfl, plain_vectors _ rfl⟩

theorem witness_indirect_mode : (0xFE : Byte) ≠ 0xFF ∧ (0x00 : Byte) ≠ 0xFF := by decide

theorem witness_operand_value_is_read_once :
    (Operand.absX 0xFFFF).mode ≠ .accumulator ∧ (Operand.absX 0xFFFF).mode ≠ .immediate ∧
      State.reset.host.intercepts ((State.reset.setX 0x01).locate (.absX 0xFFFF)).1 = false ∧ Operand.acc.mode = .accumulator := by
  decide

theorem witness_stores_write_the_register :
    (Instr.sta (.absY 0xFFFF)).wellFormed = true ∧ (Instr.stx (.zpY 0xFF)).wellFormed = true ∧
      (Instr.sty (.zpX 0xFF)).wellFormed = true := by decide

/-- The lists of (constructor, function) pairs that three statements range over are met by their members. -/
theorem witness_pairs :
    (Instr.sta, State.a) ∈ [(Instr.sta, State.a), (Instr.stx, State.x), (Instr.sty, State.y)] ∧
      (Instr.cpy, State.y) ∈ [(Instr.cmp, State.a), (Instr.cpx, State.x), (Instr.cpy, State.y)] ∧
      (Instr.eor, Bool.xor) ∈ [(Instr.and, Bool.and), (Instr.ora, Bool.or), (Instr.eor, Bool.xor)] ∧
      (Instr.clv, Flag.v, false) ∈ [(Instr.clc, Flag.c, false), (.sec, .c, true), (.cli, .i, false), (.sei, .i, true),
        (.cld, .d, false), (.sed, .d, true), (.clv, .v, false)] := by simp

theorem witness_shifts_and_increments :
    (Instr.asl (.absX 0xFFFF)).wellFormed = true ∧ Operand.absX 0xFFFF ≠ .acc ∧ (Instr.lsr (.zp 0xFF)).wellFormed = true ∧
      (Instr.rol (.zpX 0xFF)).wellFormed = true ∧ (Instr.ror (.abs 0x0000)).wellFormed = true ∧
      (Instr.inc (.absX 0xFFFF)).wellFormed = true ∧ (Instr.dec (.zpX 0xFF)).wellFormed = true := by decide

/-- SBC of an immediate completes; what it equals is the statement's. -/
theorem witness_sbc_is_adc : ∃ t, exec (.sbc (.imm 0x80)) State.reset = .next t := ⟨_, rfl⟩

theorem witness_branch_step_reads_its_displacement :
    let s := start 0xFFFF [0xD0, 0x80] []
    s.Running ∧ s.Uninterrupted ∧
      ((0xD0 : Byte), Flag.z, false) ∈ [((0x90 : Byte), Flag.c, false), (0xB0, .c, true), (0xF0, .z, true), (0xD0, .z, false),
        (0x30, .n, true), (0x10, .n, false), (0x50, .v, false), (0x70, .v, true)] ∧
      s.host.intercepts s.pc = false ∧ s.host.intercepts (s.pc + 1) = false ∧ s.mem.peek s.pc.toNat = 0xD0 ∧
      s.mem.peek (s.pc + 1).toNat = 0x80 := ⟨⟨rfl, rfl⟩, ⟨rfl, .inl rfl⟩, by decide⟩

/-- A pointer at the end of a page, for both values of the open parameter. -/
theorem witness_jmp_goes_to_the_address :
    State.reset.host.intercepts 0x03FF = false ∧ ∀ wrap : Bool, State.reset.host.intercepts
      (if wrap = true then (0x03FF : Addr).extractLsb' 8 8 ++ ((0x03FF : Addr).extractLsb' 0 8 + 1) else 0x03FF + 1) = false := by
  decide

/-- A masked request that waits, and one that is taken. -/
theorem witness_raised_requests_are_latched_once :
    (∃ s t : State, s.irqPending = true ∧ step s = .next t) ∧
      ∃ s t : State, s.irqPending = true ∧ getFlag .i s.p = false ∧ step s = .next t := by
  obtain ⟨t, ht, -⟩ := of_next test_v2_133_masked
  obtain ⟨u, hu, -⟩ := of_next irq_from_reset
  exact ⟨⟨_, t, rfl, ht⟩, _, u, rfl, rfl, hu⟩

theorem witness_illegal_halts_the_core : isIllegalByte 0x02 = true ∧ isIllegalByte 0xFF = true := by decide

theorem witness_reset :
    State.reset.host.intercepts 0xFFFC = false ∧ State.reset.host.intercepts 0xFFFD = false ∧ State.reset.mem = [] ∧
      State.reset.host = HostMap.default := by decide

end Sys2Proof.Tests
end

section
/-! PROOFS. The family of `10_state.md`: what an instruction changes of the state that lies off the bus (O20, O21, O22, O24, O25),
what it does not look at (O20, O23), what a step runs (O6), and where the direct modes find their operand (O32). -/

namespace Sys2Proof.Machine

/-! ### The state off the bus: what each shared operation leaves of it -/

/-- The state but for what lies behind the bus: memory, the exit code and the record of the bus, all that an access can change. -/
def State.offBus (s : State) : State := { s with mem := [], exitCode := none, bus := [] }

section
variable (s : State)

@[simp] theorem offBus_a : s.offBus.a = s.a := rfl
@[simp] theorem offBus_x : s.offBus.x = s.x := rfl
@[simp] theorem offBus_y : s.offBus.y = s.y := rfl
@[simp] theorem offBus_sp : s.offBus.sp = s.sp := rfl
@[simp] theorem offBus_p : s.offBus.p = s.p := rfl
@[simp] theorem offBus_pc : s.offBus.pc = s.pc := rfl
@[simp] theorem offBus_halted : s.offBus.halted = s.halted := rfl
@[simp] theorem offBus_nmiPending : s.offBus.nmiPending = s.nmiPending := rfl
@[simp] theorem offBus_irqPending : s.offBus.irqPending = s.irqPending := rfl
@[simp] theorem offBus_host : s.offBus.host = s.host := rfl
@[simp] theorem offBus_epoch : s.offBus.epoch = s.epoch := rfl

@[simp] theorem offBus_setA (v : Byte) : (s.setA v).offBus = s.offBus.setA v := rfl
@[simp] theorem offBus_setX (v : Byte) : (s.setX v).offBus = s.offBus.setX v := rfl
@[simp] theorem offBus_setY (v : Byte) : (s.setY v).offBus = s.offBus.setY v := rfl
@[simp] theorem offBus_setSP (v : Byte) : (s.setSP v).offBus = s.offBus.setSP v := rfl
@[simp] theorem offBus_setP (v : Byte) : (s.setP v).offBus = s.offBus.setP v := rfl
@[simp] theorem offBus_setPC (v : Addr) : (s.setPC v).offBus = s.offBus.setPC v := rfl
@[simp] theorem offBus_setHalted (v : Bool) : (s.setHalted v).offBus = s.offBus.setHalted v := rfl
@[simp] theorem offBus_setMem (m : Memory) : (s.setMem m).offBus = s.offBus := rfl
@[simp] theorem offBus_setBus (b : List BusAccess) : (s.setBus b).offBus = s.offBus := rfl
@[simp] theorem offBus_setZN (r : Byte) : (s.setZN r).offBus = s.offBus.setP (zn r s.offBus.p) := rfl
@[simp] theorem offBus_putFlag (f : Flag) (v : Bool) : (s.putFlag f v).offBus = s.offBus.setP (putFlag f v s.offBus.p) := rfl
@[simp] theorem offBus_advance (n : Nat) : (s.advance n).offBus = s.offBus.setPC (s.offBus.pc + BitVec.ofNat 16 n) := rfl
@[simp] theorem offBus_implied : s.implied.offBus = s.offBus.setPC (s.offBus.pc + 1) := rfl

@[simp] theorem offBus_busWrite (a : Addr) (v : Byte) : (s.busWrite a v).offBus = s.offBus := rfl
@[simp] theorem offBus_push (v : Byte) : (s.push v).offBus = s.offBus.setSP (s.offBus.sp - 1) := rfl
@[simp] theorem offBus_pull : s.pull.2.offBus = s.offBus.setSP (s.offBus.sp + 1) := rfl
@[simp] theorem offBus_push16 (w : Addr) : (s.push16 w).offBus = s.offBus.setSP (s.offBus.sp - 1 - 1) := by
  rw [(push16_eq s w).1]
  rfl
@[simp] theorem offBus_pull16 : s.pull16.2.offBus = s.offBus.setSP (s.offBus.sp + 1 + 1) := by
  rw [pull16_eq]
  rfl

@[simp] theorem offBus_branch (c : Bool) (off : Byte) : (s.branch c off).offBus = s.offBus.setPC (s.branch c off).pc := by
  cases c <;> rfl

@[simp] theorem offBus_locate (o : Operand) : (s.locate o).2.offBus = s.offBus.setPC (pcPast s o) := by
  rw [locate_state]
  rfl

@[simp] theorem offBus_readOperand (o : Operand) : (s.readOperand o).2.offBus = s.offBus.setPC (pcPast s o) := by
  rw [readOperand_state]
  rfl

theorem mode_eq_accumulator {o : Operand} : o.mode = .accumulator ↔ o = .acc := by
  cases o <;> simp [Operand.mode]

/-- An operand that is written is A or lies behind the bus. -/
@[simp] theorem offBus_writeOperand (o : Operand) (v : Byte) :
    (s.writeOperand o v).offBus =
      (s.offBus.setPC (pcPast s o)).setA (if o.mode = .accumulator then v else s.offBus.a) := by
  by_cases hm : o.mode = .accumulator
  · obtain rfl := mode_eq_accumulator.1 hm
    rfl
  · rw [writeOperand_mem s hm, if_neg hm, offBus_busWrite, offBus_locate]
    rfl

/-- So is one that is modified. -/
@[simp] theorem offBus_modifyOperand (o : Operand) (f : Byte → Byte) :
    (s.modifyOperand o f).2.offBus =
      (s.offBus.setPC (pcPast s o)).setA (if o.mode = .accumulator then f s.a else s.offBus.a) := by
  by_cases hm : o.mode = .accumulator
  · obtain rfl := mode_eq_accumulator.1 hm
    rfl
  · rw [modifyOperand_mem s hm, if_neg hm, offBus_busWrite, busRead_snd, offBus_setBus, offBus_setMem, offBus_locate]
    rfl

@[simp] theorem offBus_shift (o : Operand) (f : Byte → Bool → ShiftOut) :
    (s.shift o f).offBus =
      (s.modifyOperand o fun v => (f v (s.flag .c)).r).2.offBus.setP
        (shiftFlags (f (s.modifyOperand o fun v => (f v (s.flag .c)).r).1 (s.flag .c)) s.p) := rfl

@[simp] theorem offBus_enter (vector ret : Addr) (status : Byte) :
    (s.enter vector ret status).offBus =
      ((s.offBus.setSP (s.offBus.sp - 1 - 1 - 1)).setP (putFlag .i true s.offBus.p)).setPC (s.enter vector ret status).pc := by
  obtain ⟨lo, hi, h, -, -⟩ := enter_eq s vector ret status
  rw [h]
  rfl

@[simp] theorem offBus_returnFromInterrupt :
    s.returnFromInterrupt.offBus = ((s.offBus.setSP (s.offBus.sp + 1 + 1 + 1)).setP s.returnFromInterrupt.p).setPC
      s.returnFromInterrupt.pc := by
  rw [returnFromInterrupt_eq]
  rfl

end

/-! ### What an instruction can do to the state off the bus -/

theorem KeepsFlags.of_subset {w w' : List Flag} {p q : Byte} (h : KeepsFlags w p q) (hw : w ⊆ w') : KeepsFlags w' p q :=
  fun f hf => h f fun hm => hf (hw hm)

theorem keepsFlags_refl (w : List Flag) (p : Byte) : KeepsFlags w p p := fun _ _ => rfl

/-- A row of R26 that lists every flag keeps none. -/
theorem keepsFlags_all (p q : Byte) : KeepsFlags [.c, .z, .i, .d, .b, .u, .v, .n] p q :=
  fun f hf => absurd (by cases f <;> decide) hf

/-! The rows of R26, in its own order of the flags. -/

theorem keepsFlags_row_zn (r p : Byte) : KeepsFlags [.n, .z] p (zn r p) := (keepsFlags_zn r p).of_subset (by decide)

theorem keepsFlags_row_aluFlags (o : AluOut) (p : Byte) : KeepsFlags [.n, .v, .z, .c] p (aluFlags o p) :=
  (keepsFlags_aluFlags o p).of_subset (by decide)

theorem keepsFlags_row_compareFlags (reg m p : Byte) : KeepsFlags [.n, .z, .c] p (compareFlags reg m p) :=
  (keepsFlags_compareFlags reg m p).of_subset (by decide)

theorem keepsFlags_row_shiftFlags (o : ShiftOut) (p : Byte) : KeepsFlags [.n, .z, .c] p (shiftFlags o p) :=
  (keepsFlags_shiftFlags o p).of_subset (by decide)

/-- Every instruction has a meaning, in every state. -/
theorem exec_completes (i : Instr) (s : State) : ∃ t, exec i s = .next t := by
  cases i <;> exact ⟨_, rfl⟩

section
variable {i : Instr} {s t : State}

/-- Of the latches an instruction writes the halt latch only, and that only if it is ILLEGAL (R34 to R36). -/
theorem exec_latches (h : exec i s = .next t) :
    t.nmiPending = s.nmiPending ∧ t.irqPending = s.irqPending ∧ t.host = s.host ∧ t.epoch = s.epoch ∧
      t.halted = (s.halted || decide (i.op = .illegal)) := by
  rw [← offBus_nmiPending t, ← offBus_irqPending t, ← offBus_host t, ← offBus_epoch t, ← offBus_halted t]
  cases i <;> cases h <;> simp [Instr.op]

/-- An instruction writes P by the flag computation of its row of R26, or by none. -/
theorem exec_keepsFlags (h : exec i s = .next t) : KeepsFlags (flagsWritten i.op) s.p t.p := by
  rw [← offBus_p t]
  cases i <;> cases h <;>
    simp [Instr.op, flagsWritten, keepsFlags_refl, keepsFlags_all, keepsFlags_row_zn, keepsFlags_row_aluFlags,
      keepsFlags_row_compareFlags, keepsFlags_row_shiftFlags, keepsFlags_bitFlags, keepsFlags_putFlag]

/-- X, Y and SP outside the lists of their writers (R22, R23). -/
theorem exec_x_y_sp (h : exec i s = .next t) :
    (i.op ∉ [Op.ldx, .tax, .tsx, .inx, .dex] → t.x = s.x) ∧
    (i.op ∉ [Op.ldy, .tay, .iny, .dey] → t.y = s.y) ∧
    (i.op ∉ [Op.pha, .php, .pla, .plp, .jsr, .rts, .brk, .rti, .txs] → t.sp = s.sp) := by
  rw [← offBus_x t, ← offBus_y t, ← offBus_sp t]
  cases i <;> cases h <;> simp [Instr.op]

/-- A outside the list of its writers (R21): any other write to it would be by an Accumulator operand. -/
theorem exec_a (h : exec i s = .next t) :
    i.op ∉ [Op.adc, .sbc, .and, .ora, .eor, .lda, .pla, .txa, .tya] → i.mode ≠ .accumulator → t.a = s.a := by
  rw [← offBus_a t]
  cases i <;> cases h <;> simp +contextual [Instr.op, Instr.mode]

/-- PC after an instruction that does not transfer control (R31). -/
theorem exec_pc (h : exec i s = .next t)
    (hi : i.op ∉ [Op.bcc, .bcs, .beq, .bne, .bmi, .bpl, .bvc, .bvs, .jmp, .jsr, .rts, .rti, .brk]) :
    t.pc = s.pc + BitVec.ofNat 16 (instrLength i) := by
  rw [← offBus_pc t]
  cases i with
  | bcc | bcs | beq | bne | bmi | bpl | bvc | bvs | jmp | jsr | rts | rti | brk => exact absurd (by simp [Instr.op]) hi
  | _ =>
    cases h
    simp [pcPast, instrLength, Instr.mode, modeLength, formatOf, formatLength]

theorem mode_mem_modesOf (h : i.wellFormed = true) : i.mode ∈ modesOf i.op := by
  simp only [Instr.wellFormed, Instr.modeOk, Bool.and_eq_true, List.contains_iff_mem] at h
  exact h.1

/-- Only the shifts and rotates have an Accumulator form (R103). -/
theorem op_of_accumulator {op : Op} : .accumulator ∈ modesOf op → op ∈ [Op.asl, .lsr, .rol, .ror] := by
  cases op <;> decide

/-- Only the rows of PLP and RTI list B or U (R28). -/
theorem b_u_not_mem_flagsWritten (hplp : i ≠ .plp) (hrti : i ≠ .rti) :
    .b ∉ flagsWritten i.op ∧ .u ∉ flagsWritten i.op := by
  cases i with
  | plp => exact absurd rfl hplp
  | rti => exact absurd rfl hrti
  | _ => simp [flagsWritten, Instr.op]

end

/-! ### Reset and interrupt entry -/

theorem resetEvent_p (s : State) : s.resetEvent.p = resetP := rfl

@[simp] theorem enter_p (s : State) (vector ret : Addr) (status : Byte) :
    (s.enter vector ret status).p = putFlag .i true s.p := by
  rw [← offBus_p, offBus_enter]
  rfl

/-- The third access of an entry pushes the status byte. -/
theorem enter_pushes_status (s : State) (vector ret : Addr) (status : Byte) :
    (s.enter vector ret status).bus[s.bus.length + 2]? = some (.write (stackLoc (s.sp - 2)) status) := by
  obtain ⟨lo, hi, h, -, -⟩ := enter_eq s vector ret status
  have hsp : s.sp - 2 = s.sp - 1 - 1 := by bv_omega
  rw [h, hsp, stackLoc_eq, List.getElem?_append_right (by omega), Nat.add_sub_cancel_left]
  rfl

/-- A step with a request that is taken leaves the P and the record of the bus of the entry sequence. -/
theorem step_entry {s t : State} (hi : s.nmiPending = true ∨ (s.irqPending = true ∧ getFlag .i s.p = false))
    (h : step s = .next t) :
    ∃ vector, t.p = (s.newEpoch.enter vector s.pc (interruptPush s.p)).p ∧
      t.bus = (s.newEpoch.enter vector s.pc (interruptPush s.p)).bus := by
  obtain ⟨-, ⟨-, rfl⟩ | ⟨-, -, -, rfl⟩ | ⟨⟨hn, hu⟩, -⟩⟩ := step_cases h
  · exact ⟨nmiVector, rfl, rfl⟩
  · exact ⟨irqVector, rfl, rfl⟩
  · obtain hn' | ⟨hq, hf⟩ := hi
    · simp [hn] at hn'
    · simp [hq, hf] at hu

/-! ### What an instruction does not look at -/

/-- The state with `g` of its status byte and `k` of each interrupt latch. -/
def State.recast (s : State) (g : Byte → Byte) (k : Bool → Bool) : State :=
  { s with p := g s.p, nmiPending := k s.nmiPending, irqPending := k s.irqPending }

/-- `g` changes a status byte in the decimal flag only, and that without looking at another flag. -/
structure ActsOnD (g : Byte → Byte) : Prop where
  get : ∀ {f : Flag} (_ : f ≠ .d) (p : Byte), getFlag f (g p) = getFlag f p
  put : ∀ {f : Flag} (_ : f ≠ .d) (v : Bool) (p : Byte), putFlag f v (g p) = g (putFlag f v p)

theorem actsOnD_id : ActsOnD id := ⟨fun _ _ => rfl, fun _ _ _ => rfl⟩

theorem getFlag_xor_d (f : Flag) (p : Byte) : getFlag f (p ^^^ 0x08) = (getFlag f p ^^ decide (f = .d)) := by
  cases f <;> simp [getFlag, flagBit]

/-- Inverting the decimal flag is such a change. -/
theorem actsOnD_invert : ActsOnD (· ^^^ 0x08) where
  get hf p := by rw [getFlag_xor_d, decide_eq_false hf, Bool.xor_false]
  put hf v p := status_ext fun f' => by
    rw [getFlag_putFlag, getFlag_xor_d, getFlag_xor_d, getFlag_putFlag]
    split
    · next h => simp [h, hf]
    · rfl

namespace ActsOnD
variable {g : Byte → Byte} (hg : ActsOnD g)
include hg

theorem zn (r p : Byte) : Machine.zn r (g p) = g (Machine.zn r p) := by
  simp [Machine.zn, hg.put]

theorem aluFlags (o : AluOut) (p : Byte) : Machine.aluFlags o (g p) = g (Machine.aluFlags o p) := by
  simp [Machine.aluFlags, hg.put, hg.zn]

theorem compareFlags (r m p : Byte) : Machine.compareFlags r m (g p) = g (Machine.compareFlags r m p) := by
  simp [Machine.compareFlags, hg.put, hg.zn]

theorem bitFlags (a m p : Byte) : Machine.bitFlags a m (g p) = g (Machine.bitFlags a m p) := by
  simp [Machine.bitFlags, hg.put]

theorem shiftFlags (o : ShiftOut) (p : Byte) : Machine.shiftFlags o (g p) = g (Machine.shiftFlags o p) := by
  simp [Machine.shiftFlags, hg.put, hg.zn]

end ActsOnD

section
variable (s : State) (g : Byte → Byte) (k : Bool → Bool)

@[simp] theorem recast_a : (s.recast g k).a = s.a := rfl
@[simp] theorem recast_x : (s.recast g k).x = s.x := rfl
@[simp] theorem recast_y : (s.recast g k).y = s.y := rfl
@[simp] theorem recast_sp : (s.recast g k).sp = s.sp := rfl
@[simp] theorem recast_p : (s.recast g k).p = g s.p := rfl
@[simp] theorem recast_pc : (s.recast g k).pc = s.pc := rfl

@[simp] theorem recast_setA (v : Byte) : (s.recast g k).setA v = (s.setA v).recast g k := rfl
@[simp] theorem recast_setX (v : Byte) : (s.recast g k).setX v = (s.setX v).recast g k := rfl
@[simp] theorem recast_setY (v : Byte) : (s.recast g k).setY v = (s.setY v).recast g k := rfl
@[simp] theorem recast_setSP (v : Byte) : (s.recast g k).setSP v = (s.setSP v).recast g k := rfl
@[simp] theorem recast_setP (v : Byte) : (s.recast g k).setP (g v) = (s.setP v).recast g k := rfl
@[simp] theorem recast_setPC (v : Addr) : (s.recast g k).setPC v = (s.setPC v).recast g k := rfl
@[simp] theorem recast_setHalted (v : Bool) : (s.recast g k).setHalted v = (s.setHalted v).recast g k := rfl
@[simp] theorem recast_advance (n : Nat) : (s.recast g k).advance n = (s.advance n).recast g k := rfl
@[simp] theorem recast_implied : (s.recast g k).implied = s.implied.recast g k := rfl

@[simp] theorem recast_busByte (a : Addr) : (s.recast g k).busByte a = s.busByte a := rfl
theorem recast_busRead (a : Addr) : (s.recast g k).busRead a = ((s.busRead a).1, (s.busRead a).2.recast g k) := rfl
theorem recast_busWrite (a : Addr) (v : Byte) : (s.recast g k).busWrite a v = (s.busWrite a v).recast g k := rfl
@[simp] theorem recast_push (v : Byte) : (s.recast g k).push v = (s.push v).recast g k := rfl
@[simp] theorem recast_pull : (s.recast g k).pull = (s.pull.1, s.pull.2.recast g k) := rfl

theorem recast_busRead16 (a : Addr) :
    (s.recast g k).busRead16 a = ((s.busRead16 a).1, (s.busRead16 a).2.recast g k) := by
  simp only [State.busRead16, recast_busRead]

theorem recast_busRead16ZP (z : Byte) :
    (s.recast g k).busRead16ZP z = ((s.busRead16ZP z).1, (s.busRead16ZP z).2.recast g k) := by
  simp only [State.busRead16ZP, recast_busRead]

@[simp] theorem recast_push16 (w : Addr) : (s.recast g k).push16 w = (s.push16 w).recast g k := by
  simp only [State.push16, recast_push]

@[simp] theorem recast_pull16 : (s.recast g k).pull16 = (s.pull16.1, s.pull16.2.recast g k) := by
  simp only [State.pull16, recast_pull]

theorem recast_effAddr (o : Operand) :
    (s.recast g k).effAddr o = ((s.effAddr o).1, (s.effAddr o).2.recast g k) := by
  cases o <;> simp only [State.effAddr, recast_busRead, recast_busRead16ZP, recast_pc, recast_x, recast_y]

@[simp] theorem recast_locate (o : Operand) :
    (s.recast g k).locate o = ((s.locate o).1, (s.locate o).2.recast g k) := by
  simp only [State.locate, State.pastOperand, recast_effAddr, recast_advance]

@[simp] theorem recast_readOperand (o : Operand) :
    (s.recast g k).readOperand o = ((s.readOperand o).1, (s.readOperand o).2.recast g k) := by
  cases o <;>
    simp only [State.readOperand, State.pastOperand, recast_locate, recast_busRead, recast_advance, recast_a]

@[simp] theorem recast_writeOperand (o : Operand) (v : Byte) :
    (s.recast g k).writeOperand o v = (s.writeOperand o v).recast g k := by
  cases o <;>
    simp only [State.writeOperand, State.pastOperand, recast_locate, recast_busWrite, recast_advance, recast_setA]

@[simp] theorem recast_modifyOperand (o : Operand) (f : Byte → Byte) :
    (s.recast g k).modifyOperand o f = ((s.modifyOperand o f).1, (s.modifyOperand o f).2.recast g k) := by
  cases o <;>
    simp only [State.modifyOperand, State.pastOperand, recast_locate, recast_busRead, recast_busWrite,
    recast_advance, recast_a, recast_setA]

@[simp] theorem recast_branch (c : Bool) (off : Byte) : (s.recast g k).branch c off = (s.branch c off).recast g k := by
  cases c <;> rfl

end

section
variable {g : Byte → Byte} (hg : ActsOnD g) (s : State) (k : Bool → Bool)
include hg

theorem recast_flag {f : Flag} (hf : f ≠ .d) : (s.recast g k).flag f = s.flag f := hg.get hf s.p

theorem recast_putFlag {f : Flag} (hf : f ≠ .d) (v : Bool) :
    (s.recast g k).putFlag f v = (s.putFlag f v).recast g k := by
  simp only [State.putFlag, recast_p, hg.put hf, recast_setP]

theorem recast_setZN (r : Byte) : (s.recast g k).setZN r = (s.setZN r).recast g k := by
  simp only [State.setZN, recast_p, hg.zn, recast_setP]

theorem recast_shift (o : Operand) (f : Byte → Bool → ShiftOut) :
    (s.recast g k).shift o f = (s.shift o f).recast g k := by
  simp [State.shift, recast_flag hg, hg.shiftFlags]

theorem recast_enter (vector ret : Addr) (status : Byte) :
    (s.recast g k).enter vector ret status = (s.enter vector ret status).recast g k := by
  have hI (u : State) (v : Bool) := recast_putFlag hg u k (f := .i) (by decide) v
  simp only [State.enter, recast_push16, recast_push, hI, recast_busRead16, recast_setPC]

end

/-- With P as it is, every write to P commutes with a change of the latches. -/
theorem recast_id_setP (s : State) (k : Bool → Bool) (v : Byte) : (s.recast id k).setP v = (s.setP v).recast id k := rfl

/-- No instruction looks at the interrupt latches, and none but those that write D or push P looks at D (R29, R35, R36). -/
theorem exec_recast {i : Instr} {s t : State} {g : Byte → Byte} {k : Bool → Bool} (hg : ActsOnD g)
    (hi : g = id ∨ i.op ∉ [Op.cld, .sed, .plp, .rti, .php, .brk]) (h : exec i s = .next t) :
    exec i (s.recast g k) = .next (t.recast g k) := by
  cases i with
  | cld | sed | plp | rti | php | brk =>
    obtain rfl : g = id := by simpa [Instr.op] using hi
    cases h
    refine congrArg Host.Outcome.next (?_ : _ = _)
    simp [State.putFlag, State.returnFromInterrupt, recast_id_setP, recast_enter actsOnD_id]
  | _ =>
    cases h
    refine congrArg Host.Outcome.next (?_ : _ = _)
    simp [recast_flag hg, recast_putFlag hg, recast_setZN hg, recast_shift hg,
      hg.aluFlags, hg.compareFlags, hg.bitFlags]

/-! ### The fetch: an opcode byte's format is that of the instruction it begins -/

/-- The table pairs an operation only with modes that R103 gives it. -/
theorem opcodeTable_mode_mem : ∀ b : Byte, (opcodeTable b).2 ∈ modesOf (opcodeTable b).1 := by
  set_option maxRecDepth 8000 in decide

theorem mode_operandOf {m : AddrMode} (hm : m ≠ .implied) (lo hi : Byte) : (operandOf m lo hi).mode = m := by
  cases m with
  | implied => exact absurd rfl hm
  | _ => rfl

theorem mode_instrOf {e : Op × AddrMode} (h : e.2 ∈ modesOf e.1) (opcode lo hi : Byte) :
    (instrOf e opcode lo hi).mode = e.2 := by
  obtain ⟨op, m⟩ := e
  cases op with
  | adc | sbc | and | ora | eor | cmp | cpx | cpy | bit | lda | ldx | ldy | sta | stx | sty | inc | dec
  | asl | lsr | rol | ror | jmp => exact mode_operandOf (by rintro rfl; revert h; decide) lo hi
  | _ => exact (List.mem_singleton.1 h).symm

theorem mode_decodeBytes (opcode lo hi : Byte) : (decodeBytes opcode lo hi).mode = (opcodeTable opcode).2 :=
  mode_instrOf (opcodeTable_mode_mem opcode) opcode lo hi

theorem formatOf_decodeBytes (opcode lo hi : Byte) : formatOf (decodeBytes opcode lo hi).mode = opcodeFormat opcode :=
  congrArg formatOf (mode_decodeBytes opcode lo hi)

theorem zeroPage_toNat (z : Byte) : (zeroPage z).toNat = z.toNat := BitVec.toNat_setWidth_of_le (by decide)

/-! ### The obligations -/

/-- Settles O20: no shared operation touches or looks at a latch. -/
theorem instructionsLeaveTheLatchesAlone : Obligations.InstructionsLeaveTheLatchesAlone := by
  intro i s t h
  obtain ⟨hn, hq, hh, he, hl⟩ := exec_latches h
  exact ⟨hn, hq, hh, he, by simp [hl], exec_recast (k := not) actsOnD_id (.inl rfl) h⟩

/-- Settles O21, by the rows of R26 for an instruction and by the entry sequence for an interrupt. -/
theorem onlyListedFlagsAreWritten : Obligations.OnlyListedFlagsAreWritten := by
  refine ⟨fun i s t => exec_keepsFlags, fun s t hi h => ?_, fun s => ?_⟩
  · obtain ⟨vector, hp, -⟩ := step_entry hi h
    rw [hp, enter_p]
    exact ⟨keepsFlags_putFlag .i true s.p, getFlag_putFlag_same .i true s.p⟩
  · exact ⟨_, rfl, setsZN_zn (s.x + 1) s.p, keepsFlags_zn (s.x + 1) s.p .c (by decide)⟩

/-- Settles O22: B and U are in no row of R26 but those of PLP and RTI, and an entry writes I alone. -/
theorem onlyPlpAndRtiWriteBAndU : Obligations.OnlyPlpAndRtiWriteBAndU := by
  refine ⟨fun s => ?_, fun i s t h hplp hrti => ?_, fun s => ?_, fun s t hi h => ?_, fun s => ?_⟩
  · rw [resetEvent_p]
    decide
  · obtain ⟨hb, hu⟩ := b_u_not_mem_flagsWritten hplp hrti
    exact ⟨exec_keepsFlags h .b hb, exec_keepsFlags h .u hu⟩
  · have hpulled : s.implied.returnFromInterrupt.p = s.busByte (stackLoc (s.sp + 1)) := by
      rw [returnFromInterrupt_eq]
      rfl
    exact ⟨_, _, rfl, rfl, rfl, rfl, congrArg (getFlag .b) hpulled, congrArg (getFlag .u) hpulled⟩
  · obtain ⟨vector, hp, hbus⟩ := step_entry hi h
    rw [hp, enter_p, hbus]
    exact ⟨getFlag_putFlag_other (by decide) true s.p, getFlag_putFlag_other (by decide) true s.p,
      enter_pushes_status s.newEpoch vector s.pc (interruptPush s.p)⟩
  · exact ⟨_, _, rfl, rfl, rfl, rfl, enter_pushes_status s.implied irqVector (s.implied.pc + 1) (softwarePush s.p)⟩

/-- Settles O23: inverting D commutes with every operation those instructions are made of. -/
theorem decimalFlagIsInert : Obligations.DecimalFlagIsInert := by
  intro i s hi
  obtain ⟨t, h⟩ := exec_completes i s
  rw [h]
  exact exec_recast (k := id) actsOnD_invert (.inr hi) h

/-- Settles O24: of the forms that write A by their operand, only the shifts and rotates are well-formed. -/
theorem onlyListedRegistersAreWritten : Obligations.OnlyListedRegistersAreWritten := by
  intro i s t hw h
  refine ⟨fun hi hs => exec_a h hi fun hm => hs ⟨op_of_accumulator ?_, hm⟩, exec_x_y_sp h⟩
  exact hm ▸ mode_mem_modesOf hw

/-- Settles O25. -/
theorem pcAdvancesByTheLength : Obligations.PcAdvancesByTheLength := by
  intro i s t h hi
  rw [exec_pc h hi]
  simp

/-- Settles O6, by the format of the opcode byte: `decode` and the fetch read as many bytes. -/
theorem stepRunsTheDecodedInstruction : Obligations.StepRunsTheDecodedInstruction := by
  intro s i rest hr hu s0 r0 r1 r2 hd
  rw [step_instruction hr hu]
  have hb : opcodeFormat (s.newEpoch.busRead s.newEpoch.pc).1 = opcodeFormat r0.1 := rfl
  cases hf : opcodeFormat r0.1 <;>
    (simp only [decode, hf, Except.ok.injEq, Prod.mk.injEq] at hd
     obtain ⟨rfl, -⟩ := hd
     simp only [formatOf_decodeBytes, State.fetch, hb, hf]
     rfl)

/-- Settles O32, mode by mode. -/
theorem directModesFindTheirAddress : Obligations.DirectModesFindTheirAddress := by
  intro s z w
  refine ⟨fun v => ⟨rfl, rfl⟩, ⟨zeroPage_toNat z, rfl⟩, ⟨?_, rfl⟩, ⟨?_, rfl⟩, ⟨rfl, rfl⟩, ⟨?_, rfl⟩, ?_, rfl⟩
  · exact (zeroPage_toNat (z + s.x)).trans (BitVec.toNat_add z s.x)
  · exact (zeroPage_toNat (z + s.y)).trans (BitVec.toNat_add z s.y)
  · exact (BitVec.toNat_add w _).trans (by rw [BitVec.toNat_setWidth_of_le (by decide)])
  · exact (BitVec.toNat_add w _).trans (by rw [BitVec.toNat_setWidth_of_le (by decide)])

end Sys2Proof.Machine
end

section
/-! PROOFS. The family of `20_memory.md`: the accesses every instruction and every step makes (O26, O14, O15, O13) and what memory
holds after them (O17, O18, O16), the bytes a step fetches (O7), the stack (O28, O29), and the operands behind a pointer and their
values (O33, O34, O35). -/

namespace Sys2Proof.Machine

/-! ### The bus side of the state -/

/-- What an access can see or change of the state, the counterpart of `State.offBus`. -/
def State.busSide (s : State) : HostMap × Nat × Memory × Option Byte × List BusAccess :=
  (s.host, s.epoch, s.mem, s.exitCode, s.bus)

/-- The state with the latches of another. -/
def State.latchedAs (t s : State) : State :=
  { t with nmiPending := s.nmiPending, irqPending := s.irqPending, halted := s.halted }

theorem busSide_setPC (s : State) (w : Addr) : (s.setPC w).busSide = s.busSide := rfl

theorem busSide_branch (s : State) (c : Bool) (off : Byte) : (s.branch c off).busSide = s.busSide := by
  cases c <;> rfl

/-- `Follows` is about the bus side only: registers may have been written besides, and latches. -/
theorem Follows.latchedAs {s u t : State} {new : List BusAccess} (h : Follows s u new) (e : t.busSide = u.busSide) :
    Follows s (t.latchedAs s) new := by
  simp only [State.busSide, Prod.mk.injEq] at e
  obtain ⟨hhost, hepoch, hmem, hexit, hbus⟩ := e
  simpa using h.trans (.of_regs (t := t.latchedAs s) hhost hepoch h.nmi.symm h.irq.symm h.halted.symm hbus hmem hexit)

/-! ### The accesses of an instruction -/

/-- From `s` on `r` reads and `w` writes have led to `t`, which may differ in registers and latches besides. -/
def MakesAccesses (s t : State) (r w : Nat) : Prop :=
  ∃ new, Follows s (t.latchedAs s) new ∧ readCount new = r ∧ writeCount new = w

/-- The return from an interrupt: three reads (R220). -/
theorem Follows.returnFromInterrupt (s : State) :
    ∃ p lo hi, Follows s s.returnFromInterrupt [.read (stackAddr (s.sp + 1)) p, .read (stackAddr (s.sp + 1 + 1)) lo,
      .read (stackAddr (s.sp + 1 + 1 + 1)) hi] :=
  ⟨_, _, _, (((Follows.pull s).trans (setP s.pull.2 s.pull.1)).trans (pull16 (s.pull.2.setP s.pull.1))).trans (setPC _ _)⟩

/-- No store has an Immediate or an Accumulator form (R103). -/
theorem inMemory_of_store {op : Op} {o : Operand} (hop : op ∈ [Op.sta, .stx, .sty]) (h : o.mode ∈ modesOf op) :
    Operand.inMemory o := by
  constructor <;> intro hm <;> rw [hm] at h <;> revert op <;> decide

/-- Nothing that modifies its operand has an Immediate form (R103). -/
theorem mode_ne_immediate_of_modify {op : Op} {m : AddrMode} (hop : op ∈ [Op.asl, .lsr, .rol, .ror, .inc, .dec])
    (h : m ∈ modesOf op) : m ≠ .immediate := by
  rintro rfl
  revert op
  decide

/-- A well-formed instruction makes the accesses its rule lists (R54, R102), in every state. -/
theorem exec_makesAccesses {i : Instr} {s t : State} (hw : i.wellFormed = true) (h : exec i s = .next t) :
    MakesAccesses s t (readsOf i.op i.mode) (writesOf i.op i.mode) := by
  have hm := mode_mem_modesOf hw
  have past : Follows s s.implied [] := Follows.setPC s _
  cases i with
  | lda o | ldx o | ldy o | adc o | sbc o | cmp o | cpx o | cpy o | and o | ora o | eor o | bit o =>
    cases h
    obtain ⟨new, f, hr, hw⟩ := Follows.readOperand s o
    exact ⟨new, f.latchedAs rfl, hr, hw⟩
  | sta o | stx o | sty o =>
    cases h
    obtain ⟨new, f, hr, hw⟩ := Follows.writeOperand s (inMemory_of_store (by simp [Instr.op]) hm) _
    exact ⟨new, f.latchedAs rfl, hr, hw⟩
  | asl o | lsr o | rol o | ror o | inc o | dec o =>
    cases h
    obtain ⟨new, f, hr, hw⟩ := Follows.modifyOperand s (mode_ne_immediate_of_modify (by simp [Instr.op]) hm) _
    exact ⟨new, f.latchedAs rfl, hr, hw⟩
  | jmp o =>
    cases h
    obtain ⟨new, f, hr, hw⟩ := Follows.locate s o
    exact ⟨new, f.latchedAs rfl, hr, hw⟩
  | pha | php =>
    cases h
    exact ⟨_, (past.trans (.push s.implied _)).latchedAs rfl, rfl, rfl⟩
  | pla | plp =>
    cases h
    exact ⟨_, (past.trans (.pull s.implied)).latchedAs rfl, rfl, rfl⟩
  | jsr target =>
    cases h
    exact ⟨_, ((Follows.setPC s _).trans (.push16 (s.advance 3) _)).latchedAs (busSide_setPC _ target), rfl, rfl⟩
  | rts =>
    cases h
    exact ⟨_, (past.trans (.pull16 s.implied)).latchedAs rfl, rfl, rfl⟩
  | brk =>
    cases h
    obtain ⟨lo, hi, f⟩ := Follows.enter s.implied irqVector (s.implied.pc + 1) (softwarePush s.p)
    exact ⟨_, (past.trans f).latchedAs rfl, rfl, rfl⟩
  | rti =>
    cases h
    obtain ⟨p, lo, hi, f⟩ := Follows.returnFromInterrupt s.implied
    exact ⟨_, (past.trans f).latchedAs rfl, rfl, rfl⟩
  | bcc off | bcs off | beq off | bne off | bmi off | bpl off | bvc off | bvs off =>
    cases h
    exact ⟨[], (Follows.refl s).latchedAs (busSide_branch s _ _), rfl, rfl⟩
  | _ =>
    cases h
    exact ⟨[], (Follows.refl s).latchedAs rfl, rfl, rfl⟩

/-! ### The accesses of a step -/

/-- Only the illegal bytes have the illegal entry (R106). -/
theorem isIllegalByte_of_op : ∀ b : Byte, (opcodeTable b).1 = .illegal → isIllegalByte b = true := by
  set_option maxRecDepth 8000 in decide

theorem op_instrOf (e : Op × AddrMode) (opcode lo hi : Byte) : (instrOf e opcode lo hi).op = e.1 := by
  obtain ⟨op, m⟩ := e
  cases op <;> rfl

theorem opcodeOk_instrOf {e : Op × AddrMode} {opcode : Byte} (h : e.1 = .illegal → isIllegalByte opcode = true) (lo hi : Byte) :
    (instrOf e opcode lo hi).opcodeOk = true := by
  obtain ⟨op, m⟩ := e
  cases op with
  | illegal => exact h rfl
  | _ => rfl

/-- What a step executes is an instruction of the hardware, whatever bytes it reads (R85). -/
theorem wellFormed_decodeBytes (opcode lo hi : Byte) : (decodeBytes opcode lo hi).wellFormed = true := by
  have hmode : (decodeBytes opcode lo hi).mode ∈ modesOf (decodeBytes opcode lo hi).op := by
    rw [mode_decodeBytes, decodeBytes, op_instrOf]
    exact opcodeTable_mode_mem opcode
  have hok : (decodeBytes opcode lo hi).opcodeOk = true := opcodeOk_instrOf (isIllegalByte_of_op opcode) lo hi
  have hmodeOk : (decodeBytes opcode lo hi).modeOk = true := List.contains_iff_mem.2 hmode
  exact Bool.and_eq_true_iff.2 ⟨hmodeOk, hok⟩

theorem fetch_fst (s : State) : ∃ lo hi, s.fetch.1 = decodeBytes (s.busByte s.pc) lo hi := by
  unfold State.fetch
  simp only [busRead_fst]
  split <;> exact ⟨_, _, rfl⟩

/-- No instruction makes more than six accesses, its own bytes included; BRK makes six (R59). -/
theorem accesses_le_six (op : Op) : ∀ m ∈ modesOf op, modeLength m + readsOf op m + writesOf op m ≤ 6 := by
  cases op <;> decide

/-- Everything a step does to the bus side of the state is by the accesses it records, of which there are at most six. -/
theorem step_follows {s t : State} (h : step s = .next t) :
    Follows s.newEpoch (t.latchedAs s.newEpoch) t.bus ∧ t.bus.length ≤ 6 := by
  have recorded {new : List BusAccess} (f : Follows s.newEpoch (t.latchedAs s.newEpoch) new) (hl : new.length ≤ 6) :
      Follows s.newEpoch (t.latchedAs s.newEpoch) t.bus ∧ t.bus.length ≤ 6 := by
    have hbus : t.bus = new := f.bus
    exact hbus ▸ ⟨f, hl⟩
  obtain ⟨-, ⟨-, rfl⟩ | ⟨-, -, -, rfl⟩ | ⟨-, hx⟩⟩ := step_cases h
  · obtain ⟨lo, hi, f⟩ := Follows.enter s.newEpoch nmiVector s.newEpoch.pc (interruptPush s.newEpoch.p)
    exact recorded (f.latchedAs rfl) (by simp)
  · obtain ⟨lo, hi, f⟩ := Follows.enter s.newEpoch irqVector s.newEpoch.pc (interruptPush s.newEpoch.p)
    exact recorded (f.latchedAs rfl) (by simp)
  · obtain ⟨fetched, f, hfr, hfw⟩ := Follows.fetch s.newEpoch
    obtain ⟨lo, hi, hi'⟩ := fetch_fst s.newEpoch
    have hwf := hi' ▸ wellFormed_decodeBytes _ lo hi
    obtain ⟨made, g, hr, hw⟩ := exec_makesAccesses hwf hx
    refine recorded ((f.trans g).latchedAs (t := t) rfl) ?_
    have hmode : modeLength s.newEpoch.fetch.1.mode = readCount fetched := by rw [hfr, hi', mode_decodeBytes]
    have hle := accesses_le_six _ _ (mode_mem_modesOf hwf)
    have := readCount_add_writeCount fetched
    have := readCount_add_writeCount made
    simp only [List.length_append]
    omega

/-! ### What is kept by host events and runs -/

/-- A step that starts from a canonical memory meets the invariant, whatever its predecessor's record was. -/
theorem inv_step {s t : State} (hm : s.mem.wf = true) (h : step s = .next t) : t.Inv := by
  obtain ⟨f, hl⟩ := step_follows h
  exact ⟨f.wf hm, hl⟩

/-- Of the host's events only reset touches the record of the bus, by two reads, and only a store and reset touch memory. -/
theorem inv_onEvent {s : State} (h : s.Inv) (e : HostEvent) : (s.onEvent e).Inv := by
  obtain ⟨hm, hb⟩ := h
  cases e with
  | reset =>
    have f := (Follows.busRead s.newEpoch resetVector).trans (Follows.busRead _ (resetVector + 1))
    exact ⟨f.wf hm, Nat.le_add_right 2 4⟩
  | raiseNmi | raiseIrq | configure _ => exact ⟨hm, hb⟩
  | store a v => exact ⟨wf_poke s.mem a v hm, hb⟩

theorem inv_onEvents {s : State} (h : s.Inv) (es : List HostEvent) : (s.onEvents es).Inv := by
  induction es generalizing s with
  | nil => exact h
  | cons e rest ih => exact ih (inv_onEvent h e)

theorem inv_runWith {schedule : List (List HostEvent)} {s t : State} (hs : s.Inv) (h : State.runWith schedule s = .next t) :
    t.Inv := by
  induction schedule generalizing s with
  | nil =>
    cases h
    exact hs
  | cons es rest ih =>
    rw [State.runWith] at h
    split at h
    · next u hu => exact ih (inv_step (inv_onEvents hs es).1 hu) h
    · cases h
    · cases h

/-! ### Canonical memories -/

/-- A location below every listed one holds what an unlisted location holds. -/
theorem peek_below {m : Memory} {a : Nat} (h : ∀ c ∈ m, a < c.1) : m.peek a = unlistedByte := by
  induction m with
  | nil => rfl
  | cons c rest ih =>
    obtain ⟨b, w⟩ := c
    have hab : a < b := h (b, w) (by simp)
    rw [Memory.peek, if_neg hab.ne]
    exact ih fun c hc => h c (by simp [hc])

theorem peek_head (a : Nat) (v : Byte) (rest : Memory) : Memory.peek ((a, v) :: rest) a = v := if_pos rfl

/-- A memory that holds the same bytes as a canonical one lists something no higher than its lowest cell. -/
theorem not_all_above_of_peek_eq {a : Nat} {v : Byte} {rest m : Memory} (h : Memory.wf ((a, v) :: rest) = true)
    (hp : ∀ x < 0x10000, Memory.peek ((a, v) :: rest) x = m.peek x) : ¬ ∀ c ∈ m, a < c.1 := by
  intro hlt
  obtain ⟨ha, hv, -, -⟩ := (wf_cons a v rest).1 h
  have hv' := hp a ha
  rw [peek_head, peek_below hlt] at hv'
  exact hv hv'

/-- So the lowest cell of the one is not below that of the other, if that is canonical too. -/
theorem head_le_of_peek_eq {a b : Nat} {v w : Byte} {rest rest' : Memory} (h : Memory.wf ((a, v) :: rest) = true)
    (h' : Memory.wf ((b, w) :: rest') = true)
    (hp : ∀ x < 0x10000, Memory.peek ((a, v) :: rest) x = Memory.peek ((b, w) :: rest') x) : b ≤ a := by
  obtain ⟨-, -, hrest', -⟩ := (wf_cons b w rest').1 h'
  exact not_lt.1 fun hab => not_all_above_of_peek_eq h hp (List.forall_mem_cons.2 ⟨hab, fun c hc => hab.trans (hrest' c hc)⟩)

/-- Canonical memories are extensional: their lowest cells are the same, and so, below, are the rest. -/
theorem eq_of_peek_eq {m m' : Memory} (h : m.wf = true) (h' : m'.wf = true) (hp : ∀ a < 0x10000, m.peek a = m'.peek a) :
    m = m' := by
  induction m generalizing m' with
  | nil =>
    cases m' with
    | nil => rfl
    | cons c' rest' => exact absurd (by simp) (not_all_above_of_peek_eq h' fun x hx => (hp x hx).symm)
  | cons c rest ih =>
    cases m' with
    | nil => exact absurd (by simp) (not_all_above_of_peek_eq h hp)
    | cons c' rest' =>
      obtain ⟨a, v⟩ := c
      obtain ⟨b, w⟩ := c'
      obtain rfl : a = b := le_antisymm (head_le_of_peek_eq h' h fun x hx => (hp x hx).symm) (head_le_of_peek_eq h h' hp)
      obtain ⟨ha, -, hrest, hwf⟩ := (wf_cons a v rest).1 h
      obtain ⟨-, -, hrest', hwf'⟩ := (wf_cons a w rest').1 h'
      obtain rfl : v = w := by simpa only [peek_head] using hp a ha
      refine congrArg _ (ih hwf hwf' fun x hx => ?_)
      by_cases hxa : x = a
      · rw [hxa, peek_below hrest, peek_below hrest']
      · simpa only [Memory.peek, if_neg hxa] using hp x hx

/-! ### The fetch from memory -/

/-- What the decoder reads from some bytes it reads from them with more behind. -/
theorem decode_append {bytes rest : List Byte} {i : Instr} (h : decode bytes = .ok (i, rest)) (more : List Byte) :
    decode (bytes ++ more) = .ok (i, rest ++ more) := by
  unfold decode at h
  split at h
  · cases h
  · split at h
    case h_1 hf | h_2 hf | h_3 hf =>
      cases h
      simp [decode, hf]
    all_goals cases h

/-- A read of plain memory: only the record of the bus changes (R52, R70). -/
theorem busRead_plain {s : State} {a : Addr} (h : s.host.intercepts a = false) :
    s.busRead a = (s.mem.peek a.toNat, s.setBus (s.bus ++ [.read a (s.mem.peek a.toNat)])) := by
  refine Prod.ext (busByte_plain h) ?_
  rw [busRead_snd, memAfterRead_quiet (isDevice_plain h), busByte_plain h]
  rfl

/-! ### The stack -/

/-- A push to plain memory (R60). -/
theorem push_mem_plain {s : State} (h : s.host.intercepts (stackAddr s.sp) = false) (v : Byte) :
    (s.push v).mem = s.mem.poke (stackAddr s.sp).toNat v :=
  memAfterWrite_plain h v

/-- Nothing outside the stack page is the location of any stack pointer (R62). -/
theorem ne_stackAddr {a : Nat} (h : a < 0x100 ∨ 0x200 ≤ a) (sp : Byte) : a ≠ (stackAddr sp).toNat := by
  have := sp.isLt
  rw [stackAddr_toNat]
  omega

@[simp] theorem pushAll_host (s : State) (bs : List Byte) : (s.pushAll bs).host = s.host := by
  induction bs generalizing s with
  | nil => rfl
  | cons b bs ih => exact ih (s.push b)

theorem pushAll_sp (s : State) (bs : List Byte) : (s.pushAll bs).sp = s.sp - BitVec.ofNat 8 bs.length := by
  induction bs generalizing s with
  | nil => exact (BitVec.sub_zero s.sp).symm
  | cons b bs ih =>
    have hpush : (s.push b).sp = s.sp - 1 := rfl
    refine (ih (s.push b)).trans ?_
    rw [hpush, List.length_cons, BitVec.ofNat_add, sub_sub, add_comm]
    rfl

theorem pushAll_peek_outside {s : State} (hd : ∀ q, s.host.isDevice (stackAddr q) = false) {a : Nat}
    (ha : a < 0x100 ∨ 0x200 ≤ a) (bs : List Byte) : (s.pushAll bs).mem.peek a = s.mem.peek a := by
  induction bs generalizing s with
  | nil => rfl
  | cons b bs ih => exact (ih (s := s.push b) hd).trans (memAfterWrite_other (hd s.sp) b (ne_stackAddr ha s.sp))

theorem pushAll_concat (s : State) (bs : List Byte) (v : Byte) : s.pushAll (bs ++ [v]) = (s.pushAll bs).push v := by
  simp [State.pushAll]

/-! ### Pointers -/

theorem pair_toNat (hi lo : Byte) : (pair hi lo).toNat = hi.toNat * 256 + lo.toNat := by
  rw [pair, BitVec.toNat_append, ← Nat.shiftLeft_add_eq_or_of_lt lo.isLt, Nat.shiftLeft_eq]

/-- Within a page the next address is one past the low byte. -/
theorem pair_add_one (hi : Byte) {lo : Byte} (h : lo ≠ 0xFF) : pair hi lo + 1 = pair hi (lo + 1) := by
  have hlo : lo.toNat ≠ 255 := fun e => h (BitVec.eq_of_toNat_eq e)
  have := hi.isLt
  have := lo.isLt
  apply BitVec.eq_of_toNat_eq
  have hone : (1 : Byte).toNat = 1 ∧ (1 : Addr).toNat = 1 := ⟨rfl, rfl⟩
  simp only [pair_toNat, BitVec.toNat_add, hone]
  omega

/-- Where Indirect mode takes its pointer's high byte, for both values of the open parameter (R99). -/
theorem indirectHigh_pair (hi lo : Byte) :
    indirectHigh (pair hi lo) = if Config.jmpIndPageWrap = true then pair hi (lo + 1) else pair hi lo + 1 := by
  rw [indirectHigh, jmpIndPageWrap, loByte_pair, hiByte_pair]
  cases Config.jmpIndPageWrap with
  | false => simp
  | true =>
    by_cases h : lo = 0xFF
    · subst h
      rfl
    · rw [if_neg (by simpa using h), if_pos rfl, pair_add_one hi h]

/-- Two reads, one after the other, keep memory where no action of the host is open. -/
theorem keepsMemory_two_reads (s : State) (a b : Addr) :
    KeepsMemory s ((s.busRead a).2.busRead b).2 [.read a (s.busByte a), .read b ((s.busRead a).2.busByte b)] :=
  ((Follows.busRead s a).trans (Follows.busRead _ b)).same rfl

/-- Two reads, one after the other, and PC moved: nothing else but memory and the record of the bus can have changed. -/
theorem two_reads_advance (s : State) (a b : Addr) (n : Nat) :
    ((s.busRead a).2.busRead b).2.advance n =
      { s with
        pc := s.pc + BitVec.ofNat 16 n, mem := ((s.busRead a).2.busRead b).2.mem
        bus := s.bus ++ [.read a (s.busByte a), .read b ((s.busRead a).2.busByte b)] } := by
  simp [State.advance, State.setBus, State.setMem, State.setPC]

/-! ### The obligations -/

/-- Settles O14: what a step does is what its accesses do, and its fetch and its instruction make six at most. -/
theorem stepKeepsTheInvariant : Obligations.StepKeepsTheInvariant :=
  fun _ _ hs h => inv_step hs.1 h

/-- Settles O13. -/
theorem resetMeetsTheInvariant : Obligations.ResetMeetsTheInvariant := ⟨rfl, by decide⟩

/-- Settles O15, event by event and by induction on the schedule. -/
theorem runsKeepTheInvariant : Obligations.RunsKeepTheInvariant :=
  ⟨fun _ e hs => inv_onEvent hs e, fun _ _ _ hs h => inv_runWith hs h⟩

/-- Settles O16. -/
theorem canonicalMemoriesAreEqual : Obligations.CanonicalMemoriesAreEqual :=
  fun _ _ h h' hp => eq_of_peek_eq h h' hp

/-- Settles O17: a step's record is one sequence of accesses, from an empty record on. -/
theorem memoryFollowsTheBus : Obligations.MemoryFollowsTheBus := by
  intro s t h a
  obtain ⟨f, -⟩ := step_follows h
  have hepoch : t.epoch = s.epoch + 1 := f.epoch
  rw [hepoch, ← newEpoch_eq]
  exact ⟨f.kept a, f.written a⟩

/-- Settles O18, by the same sequence. -/
theorem readsAreCoherent : Obligations.ReadsAreCoherent := by
  intro s t h before after a v hbus hi
  obtain ⟨f, -⟩ := step_follows h
  have hepoch : t.epoch = s.epoch + 1 := f.epoch
  rw [hepoch, ← newEpoch_eq]
  exact f.reads before after a v hbus hi

/-- Settles O26, by the accesses each form of operand and each stack operation makes. -/
theorem onlyListedAccessesAreMade : Obligations.OnlyListedAccessesAreMade := by
  intro i s t hw h
  obtain ⟨new, f, hr, hw⟩ := exec_makesAccesses hw h
  exact ⟨new, f.bus, hr, hw⟩

/-- Settles O7: the bytes read one after another are those of memory, and what is read behind the instruction does not matter. -/
theorem fetchReadsMemoryAtPC : Obligations.FetchReadsMemoryAtPC := by
  intro s i hr hu b hd hp
  have read (k : Nat) (hk : k < instrLength i) (bus : List BusAccess) :
      (s.newEpoch.setBus bus).busRead (s.pc + BitVec.ofNat 16 k) =
        (b k, s.newEpoch.setBus (bus ++ [.read (s.pc + BitVec.ofNat 16 k) (b k)])) := busRead_plain (hp k hk)
  have run := fun rest => stepRunsTheDecodedInstruction s i rest hr hu
  have hlen : instrLength i = formatLength (formatOf i.mode) := rfl
  have r0 (h : 0 < instrLength i) :
      s.newEpoch.busRead s.pc = (b 0, s.newEpoch.setBus [.read (s.pc + BitVec.ofNat 16 0) (b 0)]) :=
    (congrArg s.newEpoch.busRead (BitVec.add_zero s.pc).symm).trans (read 0 h [])
  have r1 (h : 1 < instrLength i) (bus : List BusAccess) : (s.newEpoch.setBus bus).busRead (s.pc + 1) = _ := read 1 h bus
  have r2 (h : 2 < instrLength i) (bus : List BusAccess) : (s.newEpoch.setBus bus).busRead (s.pc + 2) = _ := read 2 h bus
  simp only [← newEpoch_eq] at run
  cases hf : formatOf i.mode <;>
    (rw [hf] at hlen
     simp (disch := (rw [hlen]; decide)) only [hf, r0, r1, r2] at run
     rw [hlen] at hd ⊢
     exact run _ (decode_append hd _))

/-- Settles O28: Pull after Push looks where Push has written. -/
theorem pushAndPullMoveSP : Obligations.PushAndPullMoveSP := by
  intro s v
  refine ⟨⟨rfl, ?_, stores_push s v⟩, ⟨rfl, (Follows.pull s).same rfl, BitVec.toNat_add s.sp 1, rfl⟩,
    fun (hi : s.host.intercepts (stackAddr s.sp) = false) => ⟨?_, ?_⟩⟩
  · have hsp : (s.push v).sp = s.sp - 1 := rfl
    rw [hsp, BitVec.toNat_sub, Nat.add_comm]
    rfl
  · have hread : (s.push v).pull.1 = (s.push v).busByte (stackAddr (s.sp - 1 + 1)) := rfl
    rw [hread, BitVec.sub_add_cancel, busByte_plain (s := s.push v) hi, push_mem_plain hi, peek_poke_same]
  · exact BitVec.sub_add_cancel s.sp 1

/-- Settles O29, by induction on the bytes pushed; after 256 of them SP is back. -/
theorem stackStaysInItsPage : Obligations.StackStaysInItsPage := by
  refine ⟨fun s bs => ⟨pushAll_sp s bs, fun hd a ha => pushAll_peek_outside hd ha bs⟩, fun s bs v hl hi => ?_⟩
  have hsp : (s.pushAll bs).sp = s.sp := by
    rw [pushAll_sp, hl]
    exact BitVec.sub_zero s.sp
  have hplain : (s.pushAll bs).host.intercepts (stackAddr (s.pushAll bs).sp) = false := by
    rw [pushAll_host]
    exact hi _
  rw [pushAll_concat, stackLoc_eq]
  refine ⟨?_, congrArg (· - 1) hsp⟩
  rw [push_mem_plain hplain, hsp, peek_poke_same]

/-- Settles O33: both modes make the two reads of `busRead16ZP`. -/
theorem zeroPagePointersStayInTheZeroPage : Obligations.ZeroPagePointersStayInTheZeroPage := by
  intro s z p lo hi new ex ey
  refine ⟨rfl, two_reads_advance s _ _ 2, keepsMemory_two_reads s _ _, ?_, two_reads_advance s _ _ 2,
    keepsMemory_two_reads s _ _⟩
  exact (BitVec.toNat_add (hi z ++ lo z) _).trans (by rw [BitVec.toNat_setWidth_of_le (by decide)])

/-- Settles O34: the second address is `indirectHigh`'s, which is one past the first unless the page ends there. -/
theorem indirectModeReadsItsPointer : Obligations.IndirectModeReadsItsPointer := by
  intro s ptrHi ptrLo ptr second lo hi new e
  have hsecond : indirectHigh ptr = second := indirectHigh_pair ptrHi ptrLo
  have he : e = (pair ((s.busRead ptr).2.busByte (indirectHigh ptr)) lo,
    ((s.busRead ptr).2.busRead (indirectHigh ptr)).2.advance 3) := rfl
  rw [hsecond] at he
  rw [he, two_reads_advance]
  refine ⟨rfl, rfl, keepsMemory_two_reads s ptr second, fun hlo => ?_⟩
  exact ite_eq_right_iff.2 fun _ => (pair_add_one ptrHi hlo).symm

/-- Settles O35, by the three kinds of operand; the pointer reads before the operand's own keep memory where no action is open. -/
theorem operandValueIsReadOnce : Obligations.OperandValueIsReadOnce := by
  intro s o r
  refine ⟨fun h => ?_, fun v h => ?_, fun hacc himm => ?_⟩
  · subst h
    exact ⟨rfl, rfl⟩
  · subst h
    exact ⟨rfl, rfl⟩
  · intro e
    have hr : r = e.2.busRead e.1 := readOperand_mem s ⟨hacc, himm⟩
    obtain ⟨reads, f, -, hw⟩ := Follows.readOperand s o
    obtain ⟨pointer, g, -, hgw⟩ := Follows.locate s o
    rw [since_append f.bus, since_append g.bus]
    refine ⟨by rw [hr]; rfl, by rw [hr]; rfl, f.same hw, fun hq hi => ?_⟩
    rw [hr, busRead_fst, busByte_plain (by rw [g.host]; exact hi), g.same hgw hq]

end Sys2Proof.Machine
end

section
/-! PROOFS. The family of `30_encoding.md`: the decoder (R104, by byte) and the encoder (R103, by operation and mode) invert each
other (O1, O2), the opcode byte alone decides an instruction's shape (O3), and what the opcode table holds (O4, O5). -/

namespace Sys2Proof.Machine

/-! ### The decoder -/

/-- No format has more than two operand bytes (R81 to R83). -/
theorem operandCount_le_two (f : Format) : formatLength f - 1 ≤ 2 := by
  cases f <;> decide

/-- What the decoder reads: an opcode byte, as many operand bytes as its format has, and the instruction these determine. -/
theorem decode_eq_ok_iff {bytes rest : List Byte} {i : Instr} :
    decode bytes = .ok (i, rest) ↔ ∃ opcode args, bytes = opcode :: (args ++ rest) ∧
      args.length = formatLength (opcodeFormat opcode) - 1 ∧ i = decodeBytes opcode (args.getD 0 0) (args.getD 1 0) := by
  constructor
  · intro h
    unfold decode at h
    split at h
    · cases h
    · next opcode tail =>
      split at h
      case h_1 hf =>
        cases h
        exact ⟨opcode, [], rfl, by rw [hf]; rfl, rfl⟩
      case h_2 lo _ hf =>
        cases h
        exact ⟨opcode, [lo], rfl, by rw [hf]; rfl, rfl⟩
      case h_3 lo hi _ hf =>
        cases h
        exact ⟨opcode, [lo, hi], rfl, by rw [hf]; rfl, rfl⟩
      all_goals cases h
  · rintro ⟨opcode, args, rfl, hlen, rfl⟩
    cases hf : opcodeFormat opcode <;> rw [hf] at hlen
    case f1 =>
      obtain rfl := List.length_eq_zero_iff.1 hlen
      simp [decode, hf]
    case f2 =>
      obtain ⟨lo, rfl⟩ := List.length_eq_one_iff.1 hlen
      simp [decode, hf]
    case f3 =>
      obtain ⟨lo, hi, rfl⟩ := List.length_eq_two.1 hlen
      simp [decode, hf]

/-- Where enough bytes follow, the decoder takes its operand bytes from them and leaves the others. -/
theorem decode_cons_of_le {opcode : Byte} {tail : List Byte} (h : formatLength (opcodeFormat opcode) - 1 ≤ tail.length) :
    ∃ lo hi, decode (opcode :: tail) = .ok (decodeBytes opcode lo hi, tail.drop (formatLength (opcodeFormat opcode) - 1)) :=
  ⟨_, _, decode_eq_ok_iff.2 ⟨opcode, _, by rw [List.take_append_drop], List.length_take_of_le h, rfl⟩⟩

/-! ### From an instruction to its bytes and back -/

/-- The facts about each instruction's encoding, for all of them. -/
theorem encoding_statement : ∀ i : Instr, Laws.Encoding.Statement i
  | .lda o => Laws.Encoding.lda o | .ldx o => Laws.Encoding.ldx o | .ldy o => Laws.Encoding.ldy o
  | .sta o => Laws.Encoding.sta o | .stx o => Laws.Encoding.stx o | .sty o => Laws.Encoding.sty o
  | .tax => Laws.Encoding.tax | .tay => Laws.Encoding.tay | .txa => Laws.Encoding.txa
  | .tya => Laws.Encoding.tya | .tsx => Laws.Encoding.tsx | .txs => Laws.Encoding.txs
  | .pha => Laws.Encoding.pha | .php => Laws.Encoding.php | .pla => Laws.Encoding.pla | .plp => Laws.Encoding.plp
  | .adc o => Laws.Encoding.adc o | .sbc o => Laws.Encoding.sbc o | .cmp o => Laws.Encoding.cmp o
  | .cpx o => Laws.Encoding.cpx o | .cpy o => Laws.Encoding.cpy o
  | .inc o => Laws.Encoding.inc o | .inx => Laws.Encoding.inx | .iny => Laws.Encoding.iny
  | .dec o => Laws.Encoding.dec o | .dex => Laws.Encoding.dex | .dey => Laws.Encoding.dey
  | .and o => Laws.Encoding.and o | .ora o => Laws.Encoding.ora o | .eor o => Laws.Encoding.eor o
  | .bit o => Laws.Encoding.bit o | .asl o => Laws.Encoding.asl o | .lsr o => Laws.Encoding.lsr o
  | .rol o => Laws.Encoding.rol o | .ror o => Laws.Encoding.ror o
  | .bcc off => Laws.Encoding.bcc off | .bcs off => Laws.Encoding.bcs off | .beq off => Laws.Encoding.beq off
  | .bne off => Laws.Encoding.bne off | .bmi off => Laws.Encoding.bmi off | .bpl off => Laws.Encoding.bpl off
  | .bvc off => Laws.Encoding.bvc off | .bvs off => Laws.Encoding.bvs off
  | .jmp o => Laws.Encoding.jmp o | .jsr target => Laws.Encoding.jsr target | .rts => Laws.Encoding.rts
  | .clc => Laws.Encoding.clc | .sec => Laws.Encoding.sec | .cli => Laws.Encoding.cli | .sei => Laws.Encoding.sei
  | .cld => Laws.Encoding.cld | .sed => Laws.Encoding.sed | .clv => Laws.Encoding.clv | .nop => Laws.Encoding.nop
  | .brk => Laws.Encoding.brk | .rti => Laws.Encoding.rti | .illegal opcode => Laws.Encoding.illegal opcode

theorem encode_of_opcodeByte {i : Instr} {b : Byte} (h : i.opcodeByte = some b) : encode i = b :: i.argBytes := by
  simp [encode, h]

theorem operandOf_operandBytes (o : Operand) :
    operandOf o.mode ((operandBytes o).getD 0 0) ((operandBytes o).getD 1 0) = o := by
  cases o <;> simp [operandOf, operandBytes, Operand.mode]

/-- An instruction is the one of its operation and mode, its opcode byte and its operand bytes. -/
theorem instrOf_argBytes {i : Instr} {b : Byte} (h : i.opcodeByte = some b) :
    instrOf (i.op, i.mode) b (i.argBytes.getD 0 0) (i.argBytes.getD 1 0) = i := by
  cases i with
  | lda o | ldx o | ldy o | sta o | stx o | sty o | adc o | sbc o | cmp o | cpx o | cpy o | inc o | dec o
  | and o | ora o | eor o | bit o | asl o | lsr o | rol o | ror o | jmp o =>
    simp only [instrOf, Instr.op, Instr.mode, Instr.argBytes, operandOf_operandBytes]
  | jsr target => exact congrArg Instr.jsr (pair_hi_lo target)
  | illegal opcode =>
    obtain ⟨-, hb⟩ := Option.ite_none_right_eq_some.1 h
    exact congrArg Instr.illegal (Option.some.inj hb).symm
  | _ => rfl

/-! ### From bytes to an instruction and back -/

theorem operandBytes_operandOf (m : AddrMode) (lo hi : Byte) :
    operandBytes (operandOf m lo hi) = [lo, hi].take (modeLength m - 1) := by
  cases m <;> simp [operandOf, operandBytes, modeLength, formatOf, formatLength]

/-- The operand bytes of a decoded instruction are as many of those read as its mode has. -/
theorem argBytes_instrOf {e : Op × AddrMode} (h : e.2 ∈ modesOf e.1) (opcode lo hi : Byte) :
    (instrOf e opcode lo hi).argBytes = [lo, hi].take (modeLength e.2 - 1) := by
  obtain ⟨op, m⟩ := e
  cases op with
  | adc | sbc | and | ora | eor | cmp | cpx | cpy | bit | lda | ldx | ldy | sta | stx | sty | inc | dec
  | asl | lsr | rol | ror | jmp => exact operandBytes_operandOf m lo hi
  | jsr =>
    obtain rfl := List.mem_singleton.1 h
    exact operandBytes_operandOf .absolute lo hi
  | _ =>
    obtain rfl := List.mem_singleton.1 h
    rfl

/-- Every legal cell of R104 stands in R103, at its operation and mode. -/
theorem opcodeCell_opcodeTable : ∀ b : Byte, (opcodeTable b).1 ≠ .illegal →
    (opcodeCell (opcodeTable b).1 (opcodeTable b).2).map (BitVec.ofNat 8) = some b := by
  set_option maxRecDepth 8000 in decide

theorem opcodeByte_of_op_ne_illegal {i : Instr} (h : i.op ≠ .illegal) :
    i.opcodeByte = (opcodeCell i.op i.mode).map (BitVec.ofNat 8) := by
  cases i with
  | illegal => exact absurd rfl h
  | _ => rfl

theorem opcodeByte_decodeBytes (opcode lo hi : Byte) : (decodeBytes opcode lo hi).opcodeByte = some opcode := by
  by_cases h : (opcodeTable opcode).1 = .illegal
  · simp [decodeBytes, instrOf, h, Instr.opcodeByte, isIllegalByte_of_op opcode h]
  · have hop : (decodeBytes opcode lo hi).op = (opcodeTable opcode).1 := op_instrOf _ opcode lo hi
    rw [opcodeByte_of_op_ne_illegal (hop ▸ h), hop, mode_decodeBytes]
    exact opcodeCell_opcodeTable opcode h

theorem encode_decodeBytes (opcode lo hi : Byte) :
    encode (decodeBytes opcode lo hi) = opcode :: [lo, hi].take (formatLength (opcodeFormat opcode) - 1) := by
  rw [encode_of_opcodeByte (opcodeByte_decodeBytes opcode lo hi)]
  exact congrArg _ (argBytes_instrOf (opcodeTable_mode_mem opcode) opcode lo hi)

theorem take_getD_of_length_le_two {args : List Byte} (h : args.length ≤ 2) :
    [args.getD 0 0, args.getD 1 0].take args.length = args := by
  obtain _ | ⟨lo, _ | ⟨hi, _ | ⟨more, tail⟩⟩⟩ := args
  · rfl
  · rfl
  · rfl
  · exact absurd h (by simp)

/-! ### Lengths and the table -/

theorem instrLength_decodeBytes (opcode lo hi : Byte) :
    instrLength (decodeBytes opcode lo hi) = formatLength (opcodeFormat opcode) :=
  congrArg formatLength (formatOf_decodeBytes opcode lo hi)

/-- The modes of each length (R86). -/
theorem modeLength_iff (m : AddrMode) :
    (modeLength m = 1 ↔ m ∈ [.implied, .accumulator]) ∧
    (modeLength m = 3 ↔ m ∈ [.absolute, .absoluteX, .absoluteY, .indirect]) ∧
    (modeLength m = 2 ↔ m ∈ [.immediate, .zeropage, .zeropageX, .zeropageY, .indirectX, .indirectY]) := by
  cases m <;> decide

/-- The byte R103 gives an operation in its first mode; an illegal byte (R106) for ILLEGAL. -/
def firstByte (op : Op) : Byte :=
  BitVec.ofNat 8 ((opcodeCell op ((modesOf op).headD .implied)).getD 0x02)

theorem opcodeTable_firstByte (op : Op) : (opcodeTable (firstByte op)).1 = op := by
  cases op <;> rfl

/-! ### The obligations -/

/-- Settles O1: the opcode byte's table entry is the instruction's operation and mode, and its operand bytes are as many as the
format says. -/
theorem decodeInvertsEncode : Obligations.DecodeInvertsEncode := by
  intro i rest hwf
  obtain ⟨b, hb, htable, hlen⟩ := encoding_statement i hwf
  rw [encode_of_opcodeByte hb] at hlen ⊢
  have hformat : opcodeFormat b = formatOf i.mode := by rw [opcodeFormat, htable]
  refine decode_eq_ok_iff.2 ⟨b, i.argBytes, rfl, ?_, ?_⟩
  · rw [hformat]
    exact Nat.eq_sub_of_add_eq hlen
  · rw [decodeBytes, htable, instrOf_argBytes hb]

/-- Settles O2: the encoder gives the decoded instruction its opcode byte and as many operand bytes as were read. -/
theorem encodeInvertsDecode : Obligations.EncodeInvertsDecode := by
  intro bytes rest i h
  obtain ⟨opcode, args, rfl, hlen, rfl⟩ := decode_eq_ok_iff.1 h
  refine ⟨wellFormed_decodeBytes opcode _ _, ?_⟩
  rw [encode_decodeBytes, ← hlen, take_getD_of_length_le_two (hlen ▸ operandCount_le_two _)]
  rfl

/-- Settles O3: of the bytes after the opcode the decoder takes as many as the format has, of which there are at most two. -/
theorem opcodeAloneDecidesLength : Obligations.OpcodeAloneDecidesLength := by
  intro opcode lo hi tail
  have henough : formatLength (opcodeFormat opcode) - 1 ≤ (lo :: hi :: tail).length :=
    (operandCount_le_two _).trans (Nat.le_add_left 2 tail.length)
  obtain ⟨lo', hi', hd⟩ := decode_cons_of_le henough
  refine ⟨decodeBytes opcode lo' hi', ?_, ?_, modeLength_iff _⟩
  · rwa [instrLength_decodeBytes]
  · rw [mode_decodeBytes, decodeBytes, op_instrOf]

/-- Settles O4: R104 against the list of R106 both ways, and against R103 for a byte of each operation. -/
theorem opcodeTableHasTheIllegalBytes : Obligations.OpcodeTableHasTheIllegalBytes := by
  have hillegal (b : Byte) (h : (opcodeTable b).1 = .illegal) : opcodeTable b = (.illegal, .implied) :=
    Laws.illegal_entry b (isIllegalByte_of_op b h)
  refine ⟨fun b => ⟨fun h => isIllegalByte_of_op b (by rw [h]), Laws.illegal_entry b⟩, hillegal, ?_,
    fun op => ⟨firstByte op, opcodeTable_firstByte op⟩, fun op => ?_⟩
  · set_option maxRecDepth 8000 in decide
  · cases op <;> decide

/-- Settles O5, by running the decoder. -/
theorem confirmedBytesDecode : Obligations.ConfirmedBytesDecode :=
  ⟨rfl, rfl, rfl, rfl, rfl, rfl, rfl, rfl, rfl, rfl, fun _ => ⟨rfl, rfl, rfl⟩⟩

end Sys2Proof.Machine
end

section
/-! PROOFS. The family of `40_load_store_transfer.md`: the loads (O36), the stores (O37), the transfers that set Z and N (O38) and TXS
(O39). -/

namespace Sys2Proof.Machine

/-! ### An operand that is read -/

/-- A read operand keeps memory where no action of the host is open, whatever registers are written besides. -/
theorem keepsMemory_readOperand {s t : State} {o : Operand} (hm : t.mem = (s.readOperand o).2.mem)
    (hb : t.bus = (s.readOperand o).2.bus) : KeepsMemory s t (t.since s) := by
  obtain ⟨reads, f, -, hw⟩ := Follows.readOperand s o
  rw [since_append (hb.trans f.bus)]
  exact fun hq => hm.trans (f.same hw hq)

/-- An operand is read and Z and N are set from a byte: the whole state, but for the register an operation writes besides. -/
theorem readOperand_setZN (s : State) (o : Operand) (r : Byte) :
    (s.readOperand o).2.setZN r =
      { s with p := zn r s.p, pc := pcPast s o, mem := (s.readOperand o).2.mem, bus := (s.readOperand o).2.bus } :=
  congrArg (State.setZN · r) (readOperand_state s o)

/-- Such an operation writes no location of memory and no flag but Z and N, whichever register it writes. -/
theorem readOperand_setZN_frame {s t : State} {o : Operand} {r : Byte} (hp : t.p = zn r s.p)
    (hm : t.mem = (s.readOperand o).2.mem) (hb : t.bus = (s.readOperand o).2.bus) :
    KeepsMemory s t (t.since s) ∧ SetsZN r t.p ∧ KeepsFlags [.z, .n] s.p t.p := by
  rw [hp]
  exact ⟨keepsMemory_readOperand hm hb, setsZN_zn r s.p, keepsFlags_zn r s.p⟩

/-! ### An operand that is written -/

theorem lastWrite_of_writeCount_eq_zero {new : List BusAccess} (h : writeCount new = 0) (a : Addr) : lastWrite a new = none := by
  induction new with
  | nil => rfl
  | cons x rest ih =>
    cases x with
    | read b v => exact ih h
    | write b v => exact absurd h (Nat.succ_ne_zero _)

/-- A written operand: the pointer reads of its mode, then one write, and PC past the instruction (R54, R102). -/
theorem writeOperand_eq (s : State) {o : Operand} (ho : Operand.inMemory o) (v : Byte) :
    let e := s.effAddr o
    let t := s.writeOperand o v
    t = { s with pc := pcPast s o, mem := t.mem, exitCode := t.exitCode, bus := e.2.bus ++ [.write e.1 v] } ∧
      Stores s t (e.2.since s ++ [.write e.1 v]) := by
  intro e t
  have ht : t = (s.locate o).2.busWrite e.1 v := writeOperand_mem s ho.1 v
  obtain ⟨pointer, f, -, hw⟩ := Follows.locate s o
  have hsince : e.2.since s = pointer := since_append f.bus
  rw [ht, hsince]
  constructor
  · rw [busWrite_eq, locate_state]
  · exact (f.stores_reads hw).append (stores_busWrite _ e.1 v) f.host fun a => .inl (lastWrite_of_writeCount_eq_zero hw a)

/-! ### An Implied instruction that sets Z and N -/

theorem flaggedWrite_zn (s written : State) (v : Byte) :
    FlaggedWrite s { written with p := zn v s.p, pc := s.pc + 1 } written v :=
  ⟨rfl, setsZN_zn v s.p, keepsFlags_zn v s.p⟩

/-! ### The obligations -/

/-- Settles O37: each form writes its operand, which is in memory, since no store has an Immediate or an Accumulator form. -/
theorem storesWriteTheRegister : Obligations.StoresWriteTheRegister := by
  refine ⟨fun lo hi => ⟨rfl, rfl, rfl, rfl, rfl, rfl, rfl, rfl, rfl, rfl, rfl, rfl, rfl⟩, fun mk r hmk o s hw => ?_⟩
  have hmode : (mk o).mode ∈ modesOf (mk o).op := mode_mem_modesOf hw
  simp only [List.mem_cons, Prod.mk.injEq, List.not_mem_nil, or_false] at hmk
  obtain ⟨rfl, rfl⟩ | ⟨rfl, rfl⟩ | ⟨rfl, rfl⟩ := hmk
  · exact ⟨_, rfl, writeOperand_eq s (inMemory_of_store (op := .sta) (by decide) hmode) s.a⟩
  · exact ⟨_, rfl, writeOperand_eq s (inMemory_of_store (op := .stx) (by decide) hmode) s.x⟩
  · exact ⟨_, rfl, writeOperand_eq s (inMemory_of_store (op := .sty) (by decide) hmode) s.y⟩

/-- Settles O36: each form reads its operand, sets Z and N from it and writes it to its one register. -/
theorem loadsTakeTheOperand : Obligations.LoadsTakeTheOperand := by
  refine ⟨fun lo hi => ⟨rfl, rfl, rfl, rfl, rfl, rfl, rfl, rfl⟩, fun lo hi => ⟨rfl, rfl, rfl, rfl, rfl⟩,
    fun lo hi => ⟨rfl, rfl, rfl, rfl, rfl⟩, fun o s => ?_⟩
  intro m
  have hread := readOperand_setZN s o m.1
  exact ⟨
    ⟨_, congrArg (fun u : State => (.next (u.setA m.1) : Result)) hread, rfl, readOperand_setZN_frame rfl rfl rfl⟩,
    ⟨_, congrArg (fun u : State => (.next (u.setX m.1) : Result)) hread, rfl, readOperand_setZN_frame rfl rfl rfl⟩,
    ⟨_, congrArg (fun u : State => (.next (u.setY m.1) : Result)) hread, rfl, readOperand_setZN_frame rfl rfl rfl⟩⟩

/-- Settles O38: each form writes one register from another, and Z and N of the byte. -/
theorem transfersCopyTheRegister : Obligations.TransfersCopyTheRegister :=
  ⟨rfl, rfl, rfl, rfl, rfl, fun s => ⟨
    ⟨_, rfl, flaggedWrite_zn s { s with x := s.a } s.a⟩,
    ⟨_, rfl, flaggedWrite_zn s { s with y := s.a } s.a⟩,
    ⟨_, rfl, flaggedWrite_zn s { s with a := s.x } s.x⟩,
    ⟨_, rfl, flaggedWrite_zn s { s with a := s.y } s.y⟩,
    ⟨_, rfl, flaggedWrite_zn s { s with x := s.sp } s.sp⟩⟩⟩

/-- Settles O39: the location a push writes is `stackAddr` of SP, which is now X. -/
theorem txsMovesXToSP : Obligations.TxsMovesXToSP :=
  ⟨rfl, fun s => ⟨{ s with sp := s.x, pc := s.pc + 1 }, rfl, rfl, fun v => by rw [push_eq]; rfl⟩⟩

end Sys2Proof.Machine
end

section
/-! PROOFS. The family of `41_stack.md`: the pushes PHA and PHP (O40) and the pulls PLA and PLP (O41). -/

namespace Sys2Proof.Machine

/-- An Implied push: the whole state, and what the write stores (R60, R90). -/
theorem implied_push_eq (s : State) (v : Byte) :
    let t := s.implied.push v
    t = { s with
      sp := s.sp - 1, pc := s.pc + 1, mem := t.mem, exitCode := t.exitCode,
      bus := s.bus ++ [.write (stackLoc s.sp) v] } ∧
      Stores s t [.write (stackLoc s.sp) v] := by
  intro t
  have hstores : Stores s.implied t [.write (stackLoc s.sp) v] := stores_push s.implied v
  exact ⟨push_eq s.implied v, hstores.congr rfl rfl rfl rfl rfl⟩

/-- An Implied pull: the byte, and the whole state (R61, R90). -/
theorem implied_pull_eq (s : State) :
    s.implied.pull = (s.busByte (stackLoc (s.sp + 1)),
      { s with
        sp := s.sp + 1, pc := s.pc + 1, mem := (s.busRead (stackLoc (s.sp + 1))).2.mem,
        bus := s.bus ++ [.read (stackLoc (s.sp + 1)) (s.busByte (stackLoc (s.sp + 1)))] }) :=
  pull_eq s.implied

/-- A read keeps memory where the host's action is not open, whatever registers are written besides (R70). -/
theorem keepsMemory_busRead {s t : State} {a : Addr} (hm : t.mem = (s.busRead a).2.mem) :
    KeepsMemory s t [.read a (s.busByte a)] :=
  fun hq => hm.trans ((Follows.busRead s a).same rfl hq)

/-! ### The obligations -/

/-- Settles O40: each is one Implied push, of A or of P with B and U set. -/
theorem pushesStoreOneByte : Obligations.PushesStoreOneByte :=
  ⟨rfl, rfl, fun s => ⟨
    ⟨s.implied.push s.a, rfl, implied_push_eq s s.a⟩,
    ⟨s.implied.push (s.p ||| 0x30), rfl, implied_push_eq s (s.p ||| 0x30)⟩⟩⟩

/-- Settles O41: each is one Implied pull, whose byte is written to A with Z and N, or to P. -/
theorem pullsLoadOneByte : Obligations.PullsLoadOneByte := by
  refine ⟨rfl, rfl, fun s => ?_⟩
  intro v new back
  have hpull : s.implied.pull = (v, back) := implied_pull_eq s
  have hpla : exec .pla s = .next ((back.setA v).setZN v) :=
    congrArg (fun m : Byte × State => (.next ((m.2.setA m.1).setZN m.1) : Result)) hpull
  have hplp : exec .plp s = .next (back.setP v) :=
    congrArg (fun m : Byte × State => (.next (m.2.setP m.1) : Result)) hpull
  exact ⟨keepsMemory_busRead rfl, ⟨_, hpla, rfl, setsZN_zn v s.p, keepsFlags_zn v s.p⟩, hplp⟩

end Sys2Proof.Machine
end

section
/-! PROOFS. The family of `42_arithmetic.md`: ADC (O42) and SBC (O43), the compares (O44), and the increments and decrements (O45). -/

namespace Sys2Proof.Machine

/-! ### Bytes as signed numbers -/

/-- Bit 7 of a byte is its sign. -/
theorem getLsbD_seven (b : Byte) : b.getLsbD 7 = decide (128 ≤ b.toNat) :=
  (BitVec.msb_eq_getLsbD_last b).symm.trans (BitVec.msb_eq_decide b)

theorem toNat_complement (m : Byte) : (m ^^^ 0xFF).toNat = 255 - m.toNat := by
  have h : m ^^^ 0xFF = ~~~m := BitVec.xor_allOnes
  rw [h, BitVec.toNat_not]

theorem toInt_complement (m : Byte) : (m ^^^ 0xFF).toInt = -m.toInt - 1 := by
  have := m.isLt
  rw [BitVec.toInt_eq_toNat_cond, BitVec.toInt_eq_toNat_cond, toNat_complement]
  omega

/-- Taking 1 from a byte is adding 0xFF to it. -/
theorem sub_one_eq_add (v : Byte) : v - 1 = v + 0xFF := BitVec.sub_eq_add_neg v 1

/-! ### The 9-bit sum and difference -/

theorem adcOut_r_toNat (a m : Byte) (c : Bool) : (adcOut a m c).r.toNat = (a.toNat + m.toNat + c.toNat) % 256 :=
  BitVec.toNat_ofNat _ 8

/-- Overflow is the source's sign test (R153). -/
theorem adcOut_v_eq_sign_test (a m : Byte) (c : Bool) :
    (adcOut a m c).v = decide (m.getLsbD 7 = a.getLsbD 7 ∧ (adcOut a m c).r.getLsbD 7 ≠ a.getLsbD 7) := by
  simp [adcOut, bne, Bool.beq_eq_decide_eq]

/-- Overflow as a formula on the bytes (R153). -/
theorem adcOut_v_eq_bit_formula (a m : Byte) (c : Bool) :
    (adcOut a m c).v = ((a ^^^ (adcOut a m c).r) &&& (m ^^^ (adcOut a m c).r)).getLsbD 7 := by
  rw [adcOut_v_eq_sign_test, BitVec.getLsbD_and, BitVec.getLsbD_xor, BitVec.getLsbD_xor]
  generalize m.getLsbD 7 = x, a.getLsbD 7 = y, (adcOut a m c).r.getLsbD 7 = z
  revert x y z
  decide

/-- Overflow means that the signed sum is not the number of a signed byte (R153). -/
theorem adcOut_v_iff_signed (a m : Byte) (c : Bool) :
    (adcOut a m c).v = true ↔ a.toInt + m.toInt + (c.toNat : Int) < -128 ∨ 127 < a.toInt + m.toInt + (c.toNat : Int) := by
  have := a.isLt
  have := m.isLt
  have := c.toNat_le
  rw [adcOut_v_eq_sign_test, decide_eq_true_eq, getLsbD_seven, getLsbD_seven, getLsbD_seven, adcOut_r_toNat, ne_eq,
    decide_eq_decide, decide_eq_decide, BitVec.toInt_eq_toNat_cond, BitVec.toInt_eq_toNat_cond]
  omega

theorem sbcOut_r_toNat (a m : Byte) (c : Bool) :
    ((sbcOut a m c).r.toNat : Int) = ((a.toNat : Int) - m.toNat - (1 - c.toNat)) % 256 := by
  have h := BitVec.toNat_ofInt (n := 8) ((a.toNat : Int) - m.toNat - (1 - c.toNat))
  exact (congrArg Nat.cast h).trans (Int.toNat_of_nonneg (Int.emod_nonneg _ (by decide)))

/-- Overflow is the source's sign-mismatch test (R154). -/
theorem sbcOut_v_eq_sign_test (a m : Byte) (c : Bool) :
    (sbcOut a m c).v = decide (m.getLsbD 7 ≠ a.getLsbD 7 ∧ (sbcOut a m c).r.getLsbD 7 ≠ a.getLsbD 7) := by
  simp [sbcOut, bne, Bool.beq_eq_decide_eq]

/-- SBC is ADC of the complement: the sum is the difference and 256 (R154). -/
theorem sbcOut_eq_adcOut_complement (a m : Byte) (c : Bool) : sbcOut a m c = adcOut a (m ^^^ 0xFF) c := by
  have hm := m.isLt
  have hr : (sbcOut a m c).r = (adcOut a (m ^^^ 0xFF) c).r := by
    apply BitVec.eq_of_toNat_eq
    have h := sbcOut_r_toNat a m c
    rw [adcOut_r_toNat, toNat_complement]
    omega
  have hc : (sbcOut a m c).c = (adcOut a (m ^^^ 0xFF) c).c := by
    simp only [sbcOut, adcOut, toNat_complement, decide_eq_decide]
    omega
  have hv : (sbcOut a m c).v = (adcOut a (m ^^^ 0xFF) c).v := by
    have hsign : (m ^^^ 0xFF).getLsbD 7 = !m.getLsbD 7 := (BitVec.getLsbD_xor ..).trans (Bool.xor_true _)
    simp only [sbcOut_v_eq_sign_test, adcOut_v_eq_sign_test, hr, hsign, ne_eq, Bool.not_eq_eq_eq_not, Bool.eq_not]
  exact (AluOut.mk.injEq ..).mpr ⟨hr, hc, hv⟩

/-- Overflow as a formula on the bytes (R154). -/
theorem sbcOut_v_eq_bit_formula (a m : Byte) (c : Bool) :
    (sbcOut a m c).v = ((a ^^^ m) &&& (a ^^^ (sbcOut a m c).r)).getLsbD 7 := by
  rw [sbcOut_v_eq_sign_test, BitVec.getLsbD_and, BitVec.getLsbD_xor, BitVec.getLsbD_xor]
  generalize m.getLsbD 7 = x, a.getLsbD 7 = y, (sbcOut a m c).r.getLsbD 7 = z
  revert x y z
  decide

/-- Overflow means that the signed difference is not the number of a signed byte (R154). -/
theorem sbcOut_v_iff_signed (a m : Byte) (c : Bool) :
    (sbcOut a m c).v = true ↔
      a.toInt - m.toInt - (1 - (c.toNat : Int)) < -128 ∨ 127 < a.toInt - m.toInt - (1 - (c.toNat : Int)) := by
  have hsigned : a.toInt + (m ^^^ 0xFF).toInt + (c.toNat : Int) = a.toInt - m.toInt - (1 - (c.toNat : Int)) := by
    rw [toInt_complement]
    omega
  rw [sbcOut_eq_adcOut_complement, adcOut_v_iff_signed, hsigned]

/-! ### An operand that is read for the flags -/

/-- An operand is read and P is written: the whole state, but for the register an operation writes besides. -/
theorem readOperand_setP (s : State) (o : Operand) (p : Byte) :
    (s.readOperand o).2.setP p =
      { s with p := p, pc := pcPast s o, mem := (s.readOperand o).2.mem, bus := (s.readOperand o).2.bus } :=
  congrArg (State.setP · p) (readOperand_state s o)

/-- ADC and SBC once they have read their operand: A and the four flags are those of what they compute (R26, R151). -/
theorem readOperand_aluOut (s : State) (o : Operand) (out : AluOut) :
    let m := s.readOperand o
    let t := (m.2.setA out.r).setP (aluFlags out s.p)
    t = { s with a := out.r, p := t.p, pc := pcPast s o, mem := m.2.mem, bus := m.2.bus } ∧
      KeepsMemory s t (t.since s) ∧ getFlag .c t.p = out.c ∧ getFlag .v t.p = out.v ∧
      SetsZN out.r t.p ∧ KeepsFlags [.c, .v, .z, .n] s.p t.p := by
  intro m t
  refine ⟨congrArg (State.setA · out.r) (readOperand_setP s o (aluFlags out s.p)), keepsMemory_readOperand rfl rfl, ?_, ?_,
    setsZN_aluFlags out s.p, keepsFlags_aluFlags out s.p⟩
  · exact (getFlag_aluFlags .c out s.p).trans (by simp)
  · exact (getFlag_aluFlags .v out s.p).trans (by simp)

/-- A compare of a register once it has read its operand: the three flags are those of the difference (R155 to R157). -/
theorem readOperand_compare (s : State) (o : Operand) (reg : Byte) :
    let m := s.readOperand o
    let t := m.2.setP (compareFlags reg m.1 s.p)
    t = { s with p := t.p, pc := pcPast s o, mem := m.2.mem, bus := m.2.bus } ∧ KeepsMemory s t (t.since s) ∧
      getFlag .c t.p = decide (m.1.toNat ≤ reg.toNat) ∧ SetsZN (reg - m.1) t.p ∧ KeepsFlags [.c, .z, .n] s.p t.p := by
  intro m t
  refine ⟨readOperand_setP s o _, keepsMemory_readOperand rfl rfl, ?_, setsZN_compareFlags reg m.1 s.p,
    keepsFlags_compareFlags reg m.1 s.p⟩
  exact (getFlag_compareFlags .c reg m.1 s.p).trans (by simp)

/-! ### An operand that is modified -/

theorem effAddr_snd_of_no_pointer (s : State) {o : Operand} (h : pointerReads o.mode = 0) : (s.effAddr o).2 = s := by
  cases o with
  | ind | indX | indY => exact absurd h (Nat.succ_ne_zero 1)
  | _ => rfl

/-- A modified location behind no pointer: one read, then one write of it, and PC past the instruction (R54, R102). -/
theorem modifyOperand_eq (s : State) {o : Operand} (hacc : o.mode ≠ .accumulator) (hptr : pointerReads o.mode = 0)
    (f : Byte → Byte) :
    let ea := (s.effAddr o).1
    let v := s.busByte ea
    let new : List BusAccess := [.read ea v, .write ea (f v)]
    let t := (s.modifyOperand o f).2
    (s.modifyOperand o f).1 = v ∧
      t = { s with pc := pcPast s o, mem := t.mem, exitCode := t.exitCode, bus := s.bus ++ new } ∧ Stores s t new := by
  intro ea v new t
  have hlocate : (s.locate o).2 = s.setPC (pcPast s o) := by
    rw [locate_state, effAddr_snd_of_no_pointer s hptr]
    rfl
  have hmodify : s.modifyOperand o f = (v, ((s.setPC (pcPast s o)).busRead ea).2.busWrite ea (f v)) := by
    rw [modifyOperand_mem s hacc, hlocate]
    rfl
  have ht : t = ((s.setPC (pcPast s o)).busRead ea).2.busWrite ea (f v) := congrArg Prod.snd hmodify
  have hread : Follows s ((s.setPC (pcPast s o)).busRead ea).2 [.read ea v] :=
    (Follows.setPC s (pcPast s o)).trans (Follows.busRead _ ea)
  rw [ht]
  refine ⟨congrArg Prod.fst hmodify, ?_, (hread.stores_reads rfl).append (stores_busWrite _ ea (f v)) rfl fun _ => .inl rfl⟩
  rw [busWrite_eq]
  simp [State.setBus, State.setMem, State.setPC, new, v, State.busByte]

/-- Nothing that modifies its operand finds it by a pointer (R103). -/
theorem pointerReads_of_modify : ∀ op ∈ [Op.asl, .lsr, .rol, .ror, .inc, .dec], ∀ m ∈ modesOf op, pointerReads m = 0 := by
  decide

/-- INC and DEC have no Accumulator form (R103), so an operation with their modes that puts `f` of its operand back and sets Z and N of
it steps a location of memory. -/
theorem stepsMemoryBy_of_exec {mk : Operand → Instr} {f : Byte → Byte} {d : Byte} (hf : f = (· + d))
    (hmode : ∀ o, (mk o).wellFormed = true → o.mode ∈ modesOf .inc)
    (hexec : ∀ o s, exec (mk o) s = .next ((s.modifyOperand o f).2.setZN (f (s.modifyOperand o f).1))) :
    StepsMemoryBy mk d := by
  subst hf
  intro o s hw ea v new
  have hacc : o.mode ≠ .accumulator := fun h => absurd (op_of_accumulator (h ▸ hmode o hw)) (by decide)
  have hptr : pointerReads o.mode = 0 := pointerReads_of_modify .inc (by decide) o.mode (hmode o hw)
  obtain ⟨hv, ht, hstores⟩ := modifyOperand_eq s hacc hptr (· + d)
  have hset : (s.modifyOperand o (· + d)).2.setZN (v + d) = (s.modifyOperand o (· + d)).2.setP (zn (v + d) s.p) := by
    rw [State.setZN, ht]
  exact ⟨_, by rw [hexec, hv, hset], congrArg (State.setP · (zn (v + d) s.p)) ht, hstores.congr rfl rfl rfl rfl rfl,
    setsZN_zn (v + d) s.p, keepsFlags_zn (v + d) s.p⟩

/-! ### The obligations -/

/-- Settles O42: A and the flags are those of `adcOut`. -/
theorem adcAddsWithCarry : Obligations.AdcAddsWithCarry := by
  refine ⟨fun lo hi => ⟨rfl, rfl, rfl, rfl, rfl, rfl, rfl, rfl⟩, fun o s => ?_⟩
  intro m c sum signed
  obtain ⟨ht, hmem, hc, hv, hzn, hkeeps⟩ := readOperand_aluOut s o (adcOut s.a m.1 (s.flag .c))
  exact ⟨_, rfl, ht, hmem, adcOut_r_toNat _ _ _, hc, hv.trans (adcOut_v_eq_sign_test _ _ _),
    hv.trans (adcOut_v_eq_bit_formula _ _ _), (Bool.eq_iff_iff.1 hv).trans (adcOut_v_iff_signed _ _ _), hzn, hkeeps⟩

/-- Settles O43: A and the flags are those of `sbcOut`, which is `adcOut` of the complement. -/
theorem sbcSubtractsWithBorrow : Obligations.SbcSubtractsWithBorrow := by
  refine ⟨fun lo hi => ⟨rfl, rfl, rfl, rfl, rfl, rfl, rfl, rfl⟩, fun o s => ?_, fun v s t h => ?_⟩
  · intro m b d signed
    obtain ⟨ht, hmem, hc, hv, hzn, hkeeps⟩ := readOperand_aluOut s o (sbcOut s.a m.1 (s.flag .c))
    exact ⟨_, rfl, ht, hmem, sbcOut_r_toNat _ _ _, hc, hv.trans (sbcOut_v_eq_sign_test _ _ _),
      hv.trans (sbcOut_v_eq_bit_formula _ _ _), (Bool.eq_iff_iff.1 hv).trans (sbcOut_v_iff_signed _ _ _), hzn, hkeeps⟩
  · rw [← h]
    exact congrArg (fun out => (.next (((s.advance 2).setA out.r).setP (aluFlags out s.p)) : Result))
      (sbcOut_eq_adcOut_complement s.a v (s.flag .c)).symm

/-- Settles O44: each form reads its operand and compares its one register with it. -/
theorem comparesWriteFlagsOnly : Obligations.ComparesWriteFlagsOnly := by
  refine ⟨fun lo hi => ⟨rfl, rfl, rfl, rfl, rfl, rfl, rfl, rfl⟩, fun lo hi => ⟨rfl, rfl, rfl, rfl, rfl, rfl⟩,
    fun mk r hmk o s => ?_⟩
  simp only [List.mem_cons, Prod.mk.injEq, List.not_mem_nil, or_false] at hmk
  obtain ⟨rfl, rfl⟩ | ⟨rfl, rfl⟩ | ⟨rfl, rfl⟩ := hmk
  · exact ⟨_, rfl, readOperand_compare s o s.a⟩
  · exact ⟨_, rfl, readOperand_compare s o s.x⟩
  · exact ⟨_, rfl, readOperand_compare s o s.y⟩

/-- Settles O45: INC and DEC modify a location, INX, INY, DEX and DEY a register. -/
theorem incrementsAndDecrementsWrap : Obligations.IncrementsAndDecrementsWrap := by
  refine ⟨fun lo hi => ⟨rfl, rfl, rfl, rfl, rfl, rfl, rfl, rfl⟩, ?_, ?_, rfl, rfl, rfl, rfl, fun s => ⟨
    ⟨_, rfl, flaggedWrite_zn s { s with x := s.x + 1 } (s.x + 1), BitVec.toNat_add s.x 1⟩,
    ⟨_, rfl, flaggedWrite_zn s { s with y := s.y + 1 } (s.y + 1), BitVec.toNat_add s.y 1⟩,
    ⟨_, rfl, flaggedWrite_zn s { s with x := s.x - 1 } (s.x - 1), ?_⟩,
    ⟨_, rfl, flaggedWrite_zn s { s with y := s.y - 1 } (s.y - 1), ?_⟩⟩⟩
  · exact stepsMemoryBy_of_exec rfl (fun _ hw => mode_mem_modesOf hw) fun _ _ => rfl
  · exact stepsMemoryBy_of_exec (funext sub_one_eq_add) (fun _ hw => mode_mem_modesOf hw) fun _ _ => rfl
  · exact (congrArg BitVec.toNat (sub_one_eq_add s.x)).trans (BitVec.toNat_add s.x 0xFF)
  · exact (congrArg BitVec.toNat (sub_one_eq_add s.y)).trans (BitVec.toNat_add s.y 0xFF)

end Sys2Proof.Machine
end

section
/-! PROOFS. The family of `43_logic_shift.md`: AND, ORA and EOR (O46), BIT (O47), and the shifts and rotates (O48). -/

namespace Sys2Proof.Machine

/-! ### A bitwise operation on A, and the bit test -/

/-- A byte-wise operation into A that acts on each pair of bits by `f`: A, and Z and N of the result (R171 to R173). -/
theorem readOperand_bitwise (s : State) (o : Operand) {g : Byte → Byte → Byte} {f : Bool → Bool → Bool}
    (hg : ∀ (x y : Byte) (k : Nat), (g x y).getLsbD k = f (x.getLsbD k) (y.getLsbD k)) :
    let m := s.readOperand o
    let t := (m.2.setA (g s.a m.1)).setZN (g s.a m.1)
    t = { s with a := t.a, p := t.p, pc := pcPast s o, mem := m.2.mem, bus := m.2.bus } ∧ KeepsMemory s t (t.since s) ∧
      (∀ k < 8, t.a.getLsbD k = f (s.a.getLsbD k) (m.1.getLsbD k)) ∧ SetsZN t.a t.p ∧ KeepsFlags [.z, .n] s.p t.p := by
  intro m t
  have hread := readOperand_setZN s o t.a
  have hp : t.p = zn t.a s.p := congrArg State.p hread
  have ht : t = { s with a := t.a, p := t.p, pc := pcPast s o, mem := m.2.mem, bus := m.2.bus } := by
    rw [hp]
    exact congrArg (State.setA · t.a) hread
  obtain ⟨hmem, hzn, hkeeps⟩ := readOperand_setZN_frame (o := o) hp rfl rfl
  exact ⟨ht, hmem, fun k _ => hg s.a m.1 k, hzn, hkeeps⟩

/-- The conjunction of two bytes is 0 where they share no set bit. -/
theorem and_eq_zero_iff (a m : Byte) : a &&& m = 0 ↔ ∀ k < 8, (a.getLsbD k && m.getLsbD k) = false := by
  simp only [BitVec.eq_of_getLsbD_eq_iff, BitVec.getLsbD_and, BitVec.ofNat_eq_ofNat, BitVec.getLsbD_zero]

/-! ### One bit position -/

/-- Bit 0 of a byte is its remainder by 2. -/
theorem getLsbD_zero_eq_odd (b : Byte) : b.getLsbD 0 = decide (b.toNat % 2 = 1) := Nat.testBit_zero b.toNat

/-- A rotate to the left doubles the byte; the bit brought in below stands in no other bit's place (R177). -/
theorem rolOut_r (v : Byte) (c : Bool) : (rolOut v c).r = BitVec.ofNat 8 (2 * v.toNat + c.toNat) := by
  have hor : 2 * v.toNat + c.toNat = 2 * v.toNat ||| c.toNat := Nat.two_pow_add_eq_or_of_lt (i := 1) c.toNat_lt v.toNat
  have hshift : BitVec.ofNat 8 (2 * v.toNat) = v <<< 1 :=
    congrArg (BitVec.ofNat 8) ((Nat.mul_comm 2 v.toNat).trans (Nat.shiftLeft_eq v.toNat 1).symm)
  rw [hor, BitVec.ofNat_or, hshift]
  cases c <;> rfl

/-- A rotate to the right halves the byte; the bit brought in above stands in no other bit's place (R178). -/
theorem rorOut_r (v : Byte) (c : Bool) : (rorOut v c).r = BitVec.ofNat 8 (v.toNat / 2 + 128 * c.toNat) := by
  have hhalf : v.toNat / 2 < 2 ^ 7 := Nat.div_lt_of_lt_mul v.isLt
  have hor : 128 * c.toNat + v.toNat / 2 = 128 * c.toNat ||| v.toNat / 2 := Nat.two_pow_add_eq_or_of_lt hhalf c.toNat
  have hshift : BitVec.ofNat 8 (v.toNat / 2) = v >>> 1 :=
    BitVec.eq_of_toNat_eq (Nat.mod_eq_of_lt (hhalf.trans (by decide)))
  rw [Nat.add_comm, hor, BitVec.ofNat_or, hshift, BitVec.or_comm]
  cases c <;> rfl

/-- A shift to the left is the rotate that brings in 0 (R175). -/
theorem aslOut_r (v : Byte) (c : Bool) : (aslOut v c).r = BitVec.ofNat 8 (2 * v.toNat) :=
  BitVec.or_zero.symm.trans (rolOut_r v false)

/-- A shift to the right is the rotate that brings in 0 (R176). -/
theorem lsrOut_r (v : Byte) (c : Bool) : (lsrOut v c).r = BitVec.ofNat 8 (v.toNat / 2) :=
  BitVec.or_zero.symm.trans (rorOut_r v false)

/-- A shift to the right leaves bit 7 clear (R176). -/
theorem lsrOut_r_bit_seven (v : Byte) (c : Bool) : (lsrOut v c).r.getLsbD 7 = false :=
  (BitVec.getLsbD_ushiftRight v 1 7).trans (BitVec.getLsbD_of_ge v 8 le_rfl)

/-! ### A or a location, shifted -/

theorem getFlag_c_shiftFlags (out : ShiftOut) (p : Byte) : getFlag .c (shiftFlags out p) = out.c :=
  (getFlag_shiftFlags .c out p).trans (by simp)

/-- A shift or rotate of a location behind no pointer: one read, then one write of it, P, and PC past the instruction (R54, R170). -/
theorem shift_mem_eq (s : State) {o : Operand} (hacc : o.mode ≠ .accumulator) (hptr : pointerReads o.mode = 0)
    (f : Byte → Bool → ShiftOut) :
    let ea := (s.effAddr o).1
    let v := s.busByte ea
    let out := f v (s.flag .c)
    let new : List BusAccess := [.read ea v, .write ea out.r]
    let t := s.shift o f
    t = { s with p := t.p, pc := pcPast s o, mem := t.mem, exitCode := t.exitCode, bus := s.bus ++ new } ∧
      Stores s t new ∧ t.p = shiftFlags out s.p := by
  intro ea v out new t
  obtain ⟨hv, ht, hstores⟩ := modifyOperand_eq s hacc hptr fun b => (f b (s.flag .c)).r
  have hshift : t = (s.modifyOperand o fun b => (f b (s.flag .c)).r).2.setP (shiftFlags out s.p) :=
    congrArg (fun b => State.setP _ (shiftFlags (f b (s.flag .c)) s.p)) hv
  rw [hshift]
  exact ⟨congrArg (State.setP · (shiftFlags out s.p)) ht, hstores.congr rfl rfl rfl rfl rfl, rfl⟩

/-- The four operations of R170 differ only in the byte and the carry they compute. -/
theorem shiftsBy_of_exec {mk : Operand → Instr} {f : Byte → Bool → ShiftOut} {r : Byte → Bool → Byte} {carry : Byte → Bool}
    (hmode : ∀ o, (mk o).wellFormed = true → o.mode ∈ shiftModes) (hexec : ∀ o s, exec (mk o) s = .next (s.shift o f))
    (hr : ∀ v c, (f v c).r = r v c) (hc : ∀ v c, (f v c).c = carry v) : ShiftsBy mk r carry := by
  obtain rfl : (fun v c => (f v c).r) = r := funext₂ hr
  refine ⟨fun s => ?_, fun o s hw ho => ?_⟩
  · let out := f s.a (s.flag .c)
    exact ⟨_, hexec .acc s, rfl, (getFlag_c_shiftFlags out s.p).trans (hc _ _), setsZN_shiftFlags out s.p,
      keepsFlags_shiftFlags out s.p⟩
  · intro ea v w new
    let out := f v (s.flag .c)
    have hptr : pointerReads o.mode = 0 := pointerReads_of_modify .asl (by decide) o.mode (hmode o hw)
    obtain ⟨ht, hstores, hp⟩ := shift_mem_eq s (mt mode_eq_accumulator.1 ho) hptr f
    refine ⟨s.shift o f, hexec o s, ht, hstores, ?_⟩
    rw [hp]
    exact ⟨(getFlag_c_shiftFlags out s.p).trans (hc _ _), setsZN_shiftFlags out s.p, keepsFlags_shiftFlags out s.p⟩

/-! ### The obligations -/

/-- Settles O46: each form acts on A and its operand bit by bit. -/
theorem logicCombinesBits : Obligations.LogicCombinesBits := by
  refine ⟨fun lo hi => ⟨rfl, rfl, rfl, rfl, rfl, rfl, rfl, rfl⟩, fun lo hi => ⟨rfl, rfl, rfl, rfl, rfl, rfl, rfl, rfl⟩,
    fun lo hi => ⟨rfl, rfl, rfl, rfl, rfl, rfl, rfl, rfl⟩, fun mk f hmk o s => ?_⟩
  simp only [List.mem_cons, Prod.mk.injEq, List.not_mem_nil, or_false] at hmk
  obtain ⟨rfl, rfl⟩ | ⟨rfl, rfl⟩ | ⟨rfl, rfl⟩ := hmk
  · exact ⟨_, rfl, readOperand_bitwise s o (g := (· &&& ·)) fun _ _ _ => BitVec.getLsbD_and ..⟩
  · exact ⟨_, rfl, readOperand_bitwise s o (g := (· ||| ·)) fun _ _ _ => BitVec.getLsbD_or ..⟩
  · exact ⟨_, rfl, readOperand_bitwise s o (g := (· ^^^ ·)) fun _ _ _ => BitVec.getLsbD_xor ..⟩

/-- Settles O47: each form reads its operand and writes P, whose flags are those of `bitFlags`. -/
theorem bitTestsTheOperand : Obligations.BitTestsTheOperand := by
  refine ⟨fun lo hi => ⟨rfl, rfl⟩, fun b => ?_, fun o s => ?_⟩
  · have hdecode : decode [0x89] = .ok (.illegal 0x89, []) := rfl
    rw [Decodes, hdecode]
    simp [eq_comm]
  · intro m
    refine ⟨_, rfl, readOperand_setP s o (bitFlags s.a m.1 s.p), keepsMemory_readOperand rfl rfl, ?_,
      getFlag_bitFlags .n s.a m.1 s.p, getFlag_bitFlags .v s.a m.1 s.p, keepsFlags_bitFlags s.a m.1 s.p⟩
    have hz : getFlag .z (bitFlags s.a m.1 s.p) = decide (s.a &&& m.1 = 0) := getFlag_bitFlags .z s.a m.1 s.p
    exact (Bool.eq_iff_iff.1 hz).trans (decide_eq_true_iff.trans (and_eq_zero_iff s.a m.1))

/-- Settles O48: each form moves A or a location by `aslOut`, `lsrOut`, `rolOut` or `rorOut`. -/
theorem shiftsAndRotatesMoveOneBit : Obligations.ShiftsAndRotatesMoveOneBit := by
  refine ⟨fun lo hi => ⟨rfl, rfl, rfl, rfl, rfl⟩, fun lo hi => ⟨rfl, rfl, rfl, rfl, rfl⟩, ?_, ?_,
    fun lo hi => ⟨rfl, rfl, rfl, rfl, rfl⟩, fun lo hi => ⟨rfl, rfl, rfl, rfl, rfl⟩, ?_, ?_, fun o s t _ h => ?_⟩
  · exact shiftsBy_of_exec (fun _ hw => mode_mem_modesOf hw) (fun _ _ => rfl) aslOut_r fun v _ => getLsbD_seven v
  · exact shiftsBy_of_exec (fun _ hw => mode_mem_modesOf hw) (fun _ _ => rfl) lsrOut_r fun v _ => getLsbD_zero_eq_odd v
  · exact shiftsBy_of_exec (fun _ hw => mode_mem_modesOf hw) (fun _ _ => rfl) rolOut_r fun v _ => getLsbD_seven v
  · exact shiftsBy_of_exec (fun _ hw => mode_mem_modesOf hw) (fun _ _ => rfl) rorOut_r fun v _ => getLsbD_zero_eq_odd v
  · cases h
    exact (setsZN_shiftFlags _ s.p).2.trans (lsrOut_r_bit_seven _ _)

end Sys2Proof.Machine
end

section
/-! PROOFS. The family of `44_control_flow.md`: the conditional branches, as instructions (O49) and as steps (O50), JMP (O51), JSR
(O52), RTS (O53), and the return from a subroutine (O31). -/

namespace Sys2Proof.Machine

/-! ### The conditional branches -/

/-- Adding a sign-extended byte to an address is adding its number, modulo 0x10000 (R9, R32). -/
theorem toNat_add_sext16 (w : Addr) (off : Byte) : ((w + sext16 off).toNat : Int) = ((w.toNat : Int) + off.toInt) % 65536 := by
  have hext : ((sext16 off).toNat : Int) = off.toInt % 65536 := by
    rw [sext16, BitVec.signExtend, BitVec.toNat_ofInt]
    exact Int.toNat_of_nonneg (Int.emod_nonneg _ (by decide))
  rw [BitVec.toNat_add]
  omega

/-- A branch writes PC alone, taken or not (R190). -/
theorem branch_eq (s : State) (cond : Bool) (off : Byte) : s.branch cond off = { s with pc := (s.branch cond off).pc } := by
  cases cond <;> rfl

/-- Where a branch goes (R190). -/
theorem branch_pc (s : State) (cond : Bool) (off : Byte) :
    ((s.branch cond off).pc.toNat : Int) = ((s.pc.toNat : Int) + 2 + (if cond = true then off.toInt else 0)) % 65536 := by
  have hnext : (s.pc + 2).toNat = (s.pc.toNat + 2) % 65536 := BitVec.toNat_add s.pc 2
  cases cond with
  | false =>
    have hpc : (s.branch false off).pc = s.pc + 2 := rfl
    rw [hpc, hnext]
    simp
  | true =>
    have hpc : (s.branch true off).pc = s.pc + 2 + sext16 off := rfl
    rw [hpc, toNat_add_sext16, hnext]
    simp

/-- An operation that branches on a condition on the state, which says that the flag has the value. -/
theorem branchesOn_of_exec {mk : Byte → Instr} {opcode : Byte} {f : Flag} {on : Bool} {cond : State → Bool}
    (hdecode : ∀ off, Decodes [opcode, off] (mk off)) (hexec : ∀ off s, exec (mk off) s = .next (s.branch (cond s) off))
    (hcond : ∀ s, cond s = true ↔ getFlag f s.p = on) : BranchesOn mk opcode f on := by
  refine ⟨hdecode, fun off s => ⟨_, hexec off s, branch_eq s (cond s) off, ?_⟩⟩
  rw [branch_pc]
  simp only [hcond]

/-! ### A step of a branch -/

theorem instrLength_of_decodes {bytes : List Byte} {i : Instr} (h : Decodes bytes i) : instrLength i = bytes.length := by
  obtain ⟨opcode, args, rfl, hlen, rfl⟩ := decode_eq_ok_iff.1 h
  have hpos : 0 < formatLength (opcodeFormat opcode) := by cases opcodeFormat opcode <;> decide
  rw [instrLength_decodeBytes, List.append_nil, List.length_cons, hlen, Nat.sub_add_cancel hpos]

/-- A step at an instruction of two bytes in plain memory: it reads both, and executes it (R31, R111). -/
theorem step_two_bytes {s : State} {i : Instr} {opcode arg : Byte} (hr : s.Running) (hu : s.Uninterrupted)
    (hd : Decodes [opcode, arg] i) (h0 : s.host.intercepts s.pc = false) (h1 : s.host.intercepts (s.pc + 1) = false)
    (hopcode : s.mem.peek s.pc.toNat = opcode) (harg : s.mem.peek (s.pc + 1).toNat = arg) :
    step s = exec i { s with bus := [.read s.pc opcode, .read (s.pc + 1) arg], epoch := s.epoch + 1 } := by
  have hlen : instrLength i = 2 := instrLength_of_decodes hd
  have hzero : s.pc + BitVec.ofNat 16 0 = s.pc := BitVec.add_zero s.pc
  have hrange : List.range 2 = [0, 1] := rfl
  subst hopcode harg
  have h := fetchReadsMemoryAtPC s i hr hu
  simp only [hlen, hrange, List.map_cons, List.map_nil, hzero] at h
  refine h hd fun k hk => ?_
  obtain rfl | rfl : k = 0 ∨ k = 1 := by omega
  · rwa [hzero]
  · exact h1

/-- A step of any conditional branch in plain memory. -/
theorem step_of_branchesOn {mk : Byte → Instr} {opcode : Byte} {f : Flag} {on : Bool} (h : BranchesOn mk opcode f on)
    {s : State} {off : Byte} (hr : s.Running) (hu : s.Uninterrupted) (h0 : s.host.intercepts s.pc = false)
    (h1 : s.host.intercepts (s.pc + 1) = false) (hopcode : s.mem.peek s.pc.toNat = opcode)
    (hoff : s.mem.peek (s.pc + 1).toNat = off) :
    ∃ t, step s = .next t ∧
      t = { s with pc := t.pc, epoch := t.epoch, bus := [.read s.pc opcode, .read (s.pc + 1) off] } ∧
      (t.pc.toNat : Int) = ((s.pc.toNat : Int) + 2 + (if getFlag f s.p = on then off.toInt else 0)) % 65536 := by
  obtain ⟨hdecode, hexec⟩ := h
  rw [step_two_bytes hr hu (hdecode off) h0 h1 hopcode hoff]
  obtain ⟨t, ht, hframe, hpc⟩ :=
    hexec off { s with bus := [.read s.pc opcode, .read (s.pc + 1) off], epoch := s.epoch + 1 }
  have hepoch : t.epoch = s.epoch + 1 := by rw [hframe]
  exact ⟨t, ht, hepoch ▸ hframe, hpc⟩

/-! ### Jumps, call and return -/

/-- Where Indirect mode takes its pointer's high byte, from the pointer's own two bytes (R99). -/
theorem indirectHigh_eq (w : Addr) :
    indirectHigh w = if Config.jmpIndPageWrap = true then pair (hiByte w) (loByte w + 1) else w + 1 := by
  have h := indirectHigh_pair (hiByte w) (loByte w)
  rwa [pair_hi_lo] at h

/-- JMP: the addressing-mode routine's effects, with its address for PC (R199). -/
theorem exec_jmp (s : State) (o : Operand) :
    exec (.jmp o) s =
      .next { s with pc := (s.effAddr o).1, mem := (s.effAddr o).2.mem, bus := (s.effAddr o).2.bus } :=
  congrArg (fun u : State => (.next (u.setPC (s.effAddr o).1) : Result)) (locate_state s o)

/-- Finding an effective address reads only, so it keeps memory where no action of the host is open (R70, R99). -/
theorem keepsMemory_effAddr (s : State) (o : Operand) : KeepsMemory s (s.effAddr o).2 ((s.effAddr o).2.since s) := by
  obtain ⟨reads, f, -, hw⟩ := Follows.effAddr s o
  rw [since_append f.bus]
  exact f.same hw

/-- The Indirect pointer in plain memory (R99). -/
theorem effAddr_ind_plain {s : State} {w : Addr} (hlo : s.host.intercepts w = false)
    (hhi : s.host.intercepts (indirectHigh w) = false) :
    (s.effAddr (.ind w)).1 = pair (s.mem.peek (indirectHigh w).toNat) (s.mem.peek w.toNat) := by
  have h : (s.effAddr (.ind w)).1 = pair ((s.busRead w).2.busByte (indirectHigh w)) (s.busByte w) := rfl
  rw [h, busRead_plain hlo, busByte_plain hlo]
  exact congrArg (pair · _) (busByte_plain (s := s.setBus _) hhi)

/-- JSR, with the address of its own last byte written out (R200). -/
theorem exec_jsr (s : State) (target : Addr) :
    exec (.jsr target) s = .next (((s.advance 3).push16 (s.pc + 2)).setPC target) := by
  have hret : (s.advance 3).pc - 1 = s.pc + 2 := by
    rw [State.advance, setPC_pc]
    bv_omega
  exact congrArg (fun w => (.next (((s.advance 3).push16 w).setPC target) : Result)) hret

/-- RTS: two reads in the stack page, low byte first, and PC one past the address they make (R201). -/
theorem exec_rts (s : State) :
    let lo := s.busRead (stackLoc (s.sp + 1))
    let hi := lo.2.busRead (stackLoc (s.sp + 2))
    exec .rts s = .next { s with
      sp := s.sp + 2, pc := pair hi.1 lo.1 + 1, mem := hi.2.mem,
      bus := s.bus ++ [.read (stackLoc (s.sp + 1)) lo.1, .read (stackLoc (s.sp + 2)) hi.1] } := by
  have hsp : s.sp + 2 = s.sp + 1 + 1 := by bv_omega
  rw [hsp]
  exact congrArg (fun w : Addr × State => (.next (w.2.setPC (w.1 + 1)) : Result)) (pull16_eq s.implied)

/-- RTS on a plain stack takes the two bytes from memory, and leaves memory alone (R52, R201). -/
theorem exec_rts_plain {s : State} (hlo : s.host.intercepts (stackLoc (s.sp + 1)) = false)
    (hhi : s.host.intercepts (stackLoc (s.sp + 2)) = false) :
    ∃ bus, exec .rts s = .next { s with
      sp := s.sp + 2, bus := bus
      pc := pair (s.mem.peek (stackLoc (s.sp + 2)).toNat) (s.mem.peek (stackLoc (s.sp + 1)).toNat) + 1 } := by
  have hread (bus : List BusAccess) := busRead_plain (s := s.setBus bus) hhi
  have h := exec_rts s
  simp only [busRead_plain hlo, hread] at h
  exact ⟨_, h⟩

/-- Two writes to different locations of plain memory: each holds its byte (R53). -/
theorem peek_of_stores_two {s t : State} {a b : Addr} {v w : Byte} (h : Stores s t [.write a v, .write b w]) (hne : a ≠ b)
    (ha : s.host.intercepts a = false) (hb : s.host.intercepts b = false) :
    t.mem.peek a.toNat = v ∧ t.mem.peek b.toNat = w := by
  have hquiet : Quiet s.host [.write a v, .write b w] := by
    simp [Quiet, BusAccess.addr, isDevice_plain ha, isDevice_plain hb]
  obtain ⟨-, hwritten, -⟩ := h hquiet
  exact ⟨(hwritten a v (by simp [lastWrite, hne.symm])).1 ha, (hwritten b w (by simp [lastWrite])).1 hb⟩

/-! ### The obligations -/

/-- Settles O49: each form is `State.branch` on its flag. -/
theorem branchesTestTheirFlag : Obligations.BranchesTestTheirFlag := by
  have hset (s : State) (f : Flag) : s.flag f = true ↔ getFlag f s.p = true := Iff.rfl
  have hclear (s : State) (f : Flag) : (!s.flag f) = true ↔ getFlag f s.p = false := by rw [Bool.not_eq_true']; rfl
  exact ⟨
    branchesOn_of_exec (fun _ => rfl) (fun _ _ => rfl) (hclear · .c),
    branchesOn_of_exec (fun _ => rfl) (fun _ _ => rfl) (hset · .c),
    branchesOn_of_exec (fun _ => rfl) (fun _ _ => rfl) (hset · .z),
    branchesOn_of_exec (fun _ => rfl) (fun _ _ => rfl) (hclear · .z),
    branchesOn_of_exec (fun _ => rfl) (fun _ _ => rfl) (hset · .n),
    branchesOn_of_exec (fun _ => rfl) (fun _ _ => rfl) (hclear · .n),
    branchesOn_of_exec (fun _ => rfl) (fun _ _ => rfl) (hclear · .v),
    branchesOn_of_exec (fun _ => rfl) (fun _ _ => rfl) (hset · .v)⟩

/-- Settles O50: the step fetches both bytes, taken or not, and runs the branch of O49 at that opcode. -/
theorem branchStepReadsItsDisplacement : Obligations.BranchStepReadsItsDisplacement := by
  intro s opcode off f on hr hu hmem h0 h1 hopcode hoff
  obtain ⟨hbcc, hbcs, hbeq, hbne, hbmi, hbpl, hbvc, hbvs⟩ := branchesTestTheirFlag
  have hbranch : ∃ mk, BranchesOn mk opcode f on := by
    simp only [List.mem_cons, Prod.mk.injEq, List.not_mem_nil, or_false] at hmem
    obtain ⟨rfl, rfl, rfl⟩ | ⟨rfl, rfl, rfl⟩ | ⟨rfl, rfl, rfl⟩ | ⟨rfl, rfl, rfl⟩ | ⟨rfl, rfl, rfl⟩ | ⟨rfl, rfl, rfl⟩ |
      ⟨rfl, rfl, rfl⟩ | ⟨rfl, rfl, rfl⟩ := hmem
    exacts [⟨_, hbcc⟩, ⟨_, hbcs⟩, ⟨_, hbeq⟩, ⟨_, hbne⟩, ⟨_, hbmi⟩, ⟨_, hbpl⟩, ⟨_, hbvc⟩, ⟨_, hbvs⟩]
  obtain ⟨mk, h⟩ := hbranch
  exact step_of_branchesOn h hr hu h0 h1 hopcode hoff

/-- Settles O51: PC is the address that the addressing mode finds. -/
theorem jmpGoesToTheAddress : Obligations.JmpGoesToTheAddress := by
  refine ⟨fun lo hi => ⟨rfl, rfl⟩, fun s w => ⟨exec_jmp s (.abs w), ⟨exec_jmp s (.ind w), keepsMemory_effAddr s (.ind w)⟩, ?_⟩⟩
  intro second hlo hhi
  have hsecond : indirectHigh w = second := indirectHigh_eq w
  rw [← hsecond] at hhi ⊢
  exact ⟨_, exec_jmp s (.ind w), effAddr_ind_plain hlo hhi⟩

/-- Settles O52: a 16-bit push, between PC past the instruction and PC at the target. -/
theorem jsrPushesItsLastByte : Obligations.JsrPushesItsLastByte := by
  refine ⟨fun lo hi => rfl, fun s target => ?_⟩
  intro ret new
  obtain ⟨ht, hstores⟩ := push16_eq (s.advance 3) ret
  have hsp : s.sp - 2 = s.sp - 1 - 1 := by bv_omega
  rw [hsp]
  exact ⟨_, exec_jsr s target, congrArg (State.setPC · target) ht, hstores.congr rfl rfl rfl rfl rfl⟩

/-- Settles O53. -/
theorem rtsPullsAndAddsOne : Obligations.RtsPullsAndAddsOne :=
  ⟨rfl, fun s => ⟨exec_rts s, keepsMemory_two_reads s _ _⟩⟩

/-- Settles O31: the bytes RTS pulls are those JSR has pushed, the address of JSR's last byte. -/
theorem rtsReturnsPastJsr : Obligations.RtsReturnsPastJsr := by
  intro s target hplain
  obtain ⟨-, hjsr⟩ := jsrPushesItsLastByte
  obtain ⟨t, ht, hframe, hstores⟩ := hjsr s target
  have hpc : t.pc = target := by rw [hframe]
  have hhost : t.host = s.host := by rw [hframe]
  have hlow : t.sp + 1 = s.sp - 1 := by rw [hframe]; bv_omega
  have hhigh : t.sp + 2 = s.sp := by rw [hframe]; bv_omega
  obtain ⟨hhi, hlo⟩ := peek_of_stores_two hstores (stackAddr_ne (sp_ne_1 s.sp)) (hplain _) (hplain _)
  have hret : pair (hiByte (s.pc + 2)) (loByte (s.pc + 2)) + 1 = s.pc + 3 := by
    rw [pair_hi_lo]
    bv_omega
  obtain ⟨bus, hrts⟩ := exec_rts_plain (s := t) (hhost ▸ hplain _) (hhost ▸ hplain _)
  refine ⟨t, _, ht, hpc, hrts, ?_, hhigh, rfl, ?_⟩
  · rw [hlow, hhigh, hhi, hlo]
    exact hret
  · rw [hframe]
    exact ⟨rfl, rfl, rfl, rfl⟩

end Sys2Proof.Machine
end

section
/-! PROOFS. The family of `45_flags_system.md`: BRK (O55) and RTI (O56), the flag instructions and NOP (O54), ILLEGAL, as an
instruction (O57) and as a step (O27), and the IRQ that an instruction has unmasked (O12). -/

namespace Sys2Proof.Machine

/-! ### The entry sequence -/

/-- Outside the stack page lies no location that a stack pointer names (R62). -/
theorem stackLoc_ne_of_above {a : Addr} (h : 0x200 ≤ a.toNat) (sp : Byte) : stackLoc sp ≠ a :=
  fun e => ne_stackAddr (.inr h) sp (congrArg BitVec.toNat e.symm)

/-- Three pushes write nothing outside the stack page. -/
theorem lastWrite_pushes {a : Addr} (h : 0x200 ≤ a.toNat) (p q r u v w : Byte) :
    lastWrite a [.write (stackLoc p) u, .write (stackLoc q) v, .write (stackLoc r) w] = none := by
  simp [lastWrite, stackLoc_ne_of_above h]

/-- Among quiet accesses, a read of plain memory that none of them has written before returns what memory held (R52). -/
theorem Follows.read_eq_peek {s t : State} {new before after : List BusAccess} {a : Addr} {v : Byte} (f : Follows s t new)
    (hnew : new = before ++ .read a v :: after) (hw : lastWrite a before = none) (hq : Quiet s.host new)
    (hi : s.host.intercepts a = false) : v = s.mem.peek a.toNat := by
  have hbefore : Quiet s.host before := (quiet_append.1 (hnew ▸ hq)).1
  have hread := (f.reads before after a v hnew hi).resolve_right fun ⟨w, d⟩ => hbefore.no_store a w d
  rwa [hw] at hread

/-- What an interrupt entry or BRK leaves, with its vector outside the stack page (R219, R240 to R242). -/
theorem enter_state (s : State) {vector : Addr} (ret : Addr) (status : Byte) (hlo : 0x200 ≤ vector.toNat)
    (hhi : 0x200 ≤ (vector + 1).toNat) :
    let t := s.enter vector ret status
    ∃ lo hi : Byte,
      let new : List BusAccess := [.write (stackLoc s.sp) (hiByte ret), .write (stackLoc (s.sp - 1)) (loByte ret),
        .write (stackLoc (s.sp - 2)) status, .read vector lo, .read (vector + 1) hi]
      t = { s with
        sp := s.sp - 3, p := t.p, pc := pair hi lo, mem := t.mem, exitCode := t.exitCode, bus := s.bus ++ new } ∧
      Stores s t new ∧
      (Quiet s.host new → s.host.intercepts vector = false → lo = s.mem.peek vector.toNat) ∧
      (Quiet s.host new → s.host.intercepts (vector + 1) = false → hi = s.mem.peek (vector + 1).toNat) ∧
      getFlag .i t.p = true ∧ KeepsFlags [.i] s.p t.p := by
  intro t
  have hsp2 : s.sp - 2 = s.sp - 1 - 1 := by bv_omega
  have hsp3 : s.sp - 3 = s.sp - 1 - 1 - 1 := by bv_omega
  rw [hsp2, hsp3]
  obtain ⟨lo, hi, hframe, hstores, f⟩ := enter_eq s vector ret status
  have hp : t.p = putFlag .i true s.p := enter_p s vector ret status
  have hflags : getFlag .i t.p = true ∧ KeepsFlags [.i] s.p t.p := by
    rw [hp]
    exact ⟨getFlag_putFlag_same .i true s.p, keepsFlags_putFlag .i true s.p⟩
  rw [← hp] at hframe
  exact ⟨lo, hi, hframe, hstores, f.read_eq_peek (before := [_, _, _]) rfl (lastWrite_pushes hlo _ _ _ _ _ _),
    f.read_eq_peek (before := [_, _, _, _]) rfl (lastWrite_pushes hhi _ _ _ _ _ _), hflags⟩

@[simp] theorem enter_halted (s : State) (vector ret : Addr) (status : Byte) :
    (s.enter vector ret status).halted = s.halted := by
  rw [← offBus_halted, offBus_enter]
  rfl

/-- IRQ entry: the whole state, its latch cleared (R242). -/
theorem takeIrq_state (s : State) :
    let t := s.takeIrq
    ∃ lo hi : Byte, t = { s with
      sp := s.sp - 3, p := t.p, pc := pair hi lo, irqPending := false, mem := t.mem, exitCode := t.exitCode
      bus := s.bus ++ [.write (stackLoc s.sp) (hiByte s.pc), .write (stackLoc (s.sp - 1)) (loByte s.pc),
        .write (stackLoc (s.sp - 2)) (interruptPush s.p), .read irqVector lo, .read (irqVector + 1) hi] } ∧
      getFlag .i t.p = true ∧ KeepsFlags [.i] s.p t.p := by
  obtain ⟨lo, hi, hframe, -, -, -, hflags⟩ :=
    enter_state s (vector := irqVector) s.pc (interruptPush s.p) (by decide) (by decide)
  exact ⟨lo, hi, congrArg (State.setIrq · false) hframe, hflags⟩

/-- BRK: the entry sequence, with the address two past the opcode (R219). -/
theorem exec_brk (s : State) :
    exec .brk s = .next (s.implied.enter irqVector (s.pc + 2) (softwarePush s.p)) := by
  have hret : s.implied.pc + 1 = s.pc + 2 := by
    rw [State.implied, State.advance, setPC_pc]
    bv_omega
  exact congrArg (fun ret => (.next (s.implied.enter irqVector ret (softwarePush s.p)) : Result)) hret

/-! ### The return from an interrupt -/

/-- RTI: three reads in the stack page, P first, then PC's low byte, then its high byte (R220). -/
theorem exec_rti (s : State) :
    let p := s.busRead (stackLoc (s.sp + 1))
    let lo := p.2.busRead (stackLoc (s.sp + 2))
    let hi := lo.2.busRead (stackLoc (s.sp + 3))
    exec .rti s = .next { s with
      sp := s.sp + 3, p := p.1, pc := pair hi.1 lo.1, mem := hi.2.mem
      bus := s.bus ++ [.read (stackLoc (s.sp + 1)) p.1, .read (stackLoc (s.sp + 2)) lo.1,
        .read (stackLoc (s.sp + 3)) hi.1] } := by
  have hsp2 : s.sp + 2 = s.sp + 1 + 1 := by bv_omega
  have hsp3 : s.sp + 3 = s.sp + 1 + 1 + 1 := by bv_omega
  rw [hsp2, hsp3]
  exact congrArg (fun u : State => (.next u : Result)) (returnFromInterrupt_eq s.implied)

/-- Three reads, one after another, keep memory where no action of the host is open (R70). -/
theorem keepsMemory_three_reads (s : State) (a b c : Addr) :
    let r := s.busRead a
    let r' := r.2.busRead b
    let r'' := r'.2.busRead c
    KeepsMemory s r''.2 [.read a r.1, .read b r'.1, .read c r''.1] :=
  (((Follows.busRead s a).trans (Follows.busRead _ b)).trans (Follows.busRead _ c)).same rfl

/-! ### Flags -/

/-- An Implied instruction that writes one flag: the whole state, and the flags (R26, R90). -/
theorem implied_putFlag_eq (s : State) (f : Flag) (v : Bool) :
    let t := s.implied.putFlag f v
    t = { s with p := t.p, pc := s.pc + 1 } ∧ getFlag f t.p = v ∧ KeepsFlags [f] s.p t.p :=
  ⟨rfl, getFlag_putFlag_same f v s.p, keepsFlags_putFlag f v s.p⟩

/-! ### Illegal bytes -/

/-- An illegal byte is an instruction of its own, whatever follows it (R106, R221). -/
theorem decode_illegal {b : Byte} (h : isIllegalByte b = true) (tail : List Byte) :
    decode (b :: tail) = .ok (.illegal b, tail) := by
  have hentry : opcodeTable b = (.illegal, .implied) := Laws.illegal_entry b h
  refine decode_eq_ok_iff.2 ⟨b, [], rfl, ?_, ?_⟩
  · rw [opcodeFormat, hentry]
    rfl
  · rw [decodeBytes, hentry]
    rfl

/-- A halted core has no step (R232). -/
theorem step_halted {s : State} (h : s.halted = true) : step s = .fault .halted := if_pos h

/-- A step at an instruction of one byte in plain memory: it reads that byte, and executes it (R31, R111). -/
theorem step_one_byte {s : State} {i : Instr} {opcode : Byte} (hr : s.Running) (hu : s.Uninterrupted) (hd : Decodes [opcode] i)
    (h0 : s.host.intercepts s.pc = false) (hopcode : s.mem.peek s.pc.toNat = opcode) :
    step s = exec i { s with bus := [.read s.pc opcode], epoch := s.epoch + 1 } := by
  have hlen : instrLength i = 1 := instrLength_of_decodes hd
  have hdecode : decode [opcode] = .ok (i, []) := hd
  simpa [hlen, hopcode, hdecode, h0, -BitVec.toNat_add] using fetchReadsMemoryAtPC s i hr hu

/-! ### Requests across a step -/

/-- A step that takes no interrupt keeps both requests, since no instruction writes their latches (R35, R36). -/
theorem step_keeps_requests {s t : State} (hu : s.Uninterrupted) (h : step s = .next t) :
    t.nmiPending = s.nmiPending ∧ t.irqPending = s.irqPending := by
  obtain ⟨hr, -⟩ := step_cases h
  rw [step_instruction hr hu, fetch_snd] at h
  obtain ⟨hn, hi, -⟩ := exec_latches h
  exact ⟨hn, hi⟩

/-- A step that takes an interrupt leaves the core running (R239 to R242). -/
theorem step_halted_of_interrupted {s t : State} (hu : ¬ s.Uninterrupted) (h : step s = .next t) : t.halted = false := by
  obtain ⟨⟨hrun, -⟩, ⟨-, rfl⟩ | ⟨-, -, -, rfl⟩ | ⟨hu', -⟩⟩ := step_cases h
  · rwa [State.takeNmi, setNmi_halted, enter_halted]
  · rwa [State.takeIrq, setIrq_halted, enter_halted]
  · exact absurd hu' hu

/-! ### The obligations -/

/-- Settles O12: the masked request outlasts the step that unmasks it, so the next one begins with the IRQ entry. -/
theorem unmaskedIrqIsTakenNext : Obligations.UnmaskedIrqIsTakenNext := by
  intro s t _ hnmi hirq hmasked h hunmasked hr
  obtain ⟨hn, hq⟩ := step_keeps_requests ⟨hnmi, .inr hmasked⟩ h
  obtain ⟨lo, hi, hframe, hset, hkeep⟩ := takeIrq_state t.newEpoch
  refine ⟨_, lo, hi, step_irq hr (hn.trans hnmi) (hq.trans hirq) hunmasked, ?_⟩
  rw [hframe]
  exact ⟨rfl, rfl, rfl, rfl, rfl, rfl, hset, hkeep, rfl⟩

/-- Settles O27: the step runs ILLEGAL, whose halt latch no request clears; an interrupt entry does not set it. -/
theorem illegalByteHaltsForGood : Obligations.IllegalByteHaltsForGood := by
  refine ⟨fun s hr hu h0 hillegal => ⟨_, rfl, ?_, step_halted rfl, step_halted rfl, step_halted rfl⟩,
    fun s t _ hu h => step_halted_of_interrupted hu h⟩
  exact step_one_byte hr hu (decode_illegal hillegal []) h0 rfl

/-- Settles O55: the entry sequence from PC past the opcode. -/
theorem brkEntersThroughTheIrqVector : Obligations.BrkEntersThroughTheIrqVector := by
  refine ⟨rfl, fun s => ?_⟩
  intro ret
  obtain ⟨lo, hi, hframe, hstores, hlo, hhi, hflags⟩ :=
    enter_state s.implied (vector := irqVector) ret (softwarePush s.p) (by decide) (by decide)
  exact ⟨_, lo, hi, exec_brk s, hframe, hstores.congr rfl rfl rfl rfl rfl, hlo, hhi, hflags⟩

/-- Settles O56. -/
theorem rtiPullsStatusAndPC : Obligations.RtiPullsStatusAndPC :=
  ⟨rfl, fun s => ⟨exec_rti s, keepsMemory_three_reads s _ _ _⟩⟩

/-- Settles O54: each flag instruction is one `putFlag` past its opcode. -/
theorem flagInstructionsAndNop : Obligations.FlagInstructionsAndNop := by
  refine ⟨rfl, rfl, rfl, rfl, rfl, rfl, rfl, rfl, fun s => rfl,
    fun i f v hmem s => ⟨s.implied.putFlag f v, ?_, implied_putFlag_eq s f v⟩⟩
  simp only [List.mem_cons, Prod.mk.injEq, List.not_mem_nil, or_false] at hmem
  obtain ⟨rfl, rfl, rfl⟩ | ⟨rfl, rfl, rfl⟩ | ⟨rfl, rfl, rfl⟩ | ⟨rfl, rfl, rfl⟩ | ⟨rfl, rfl, rfl⟩ | ⟨rfl, rfl, rfl⟩ |
    ⟨rfl, rfl, rfl⟩ := hmem
  all_goals rfl

/-- Settles O57. -/
theorem illegalHaltsTheCore : Obligations.IllegalHaltsTheCore := by
  refine ⟨fun b h tail => decode_illegal h tail, fun b s => ⟨rfl, fun u hu => ?_⟩⟩
  rw [step_halted rfl] at hu
  nomatch hu

end Sys2Proof.Machine
end

section
/-! PROOFS. The family of `60_exceptions.md`: when a step stops (O8), the interrupt entries (O9, O10) and the return from one (O30),
what keeps a request latched (O11, O60), and how a write ends a run (O19). -/

namespace Sys2Proof.Machine

/-! ### Which step is taken -/

/-- After the exit a running core has no step either (R253). -/
theorem step_exited {s : State} (h : s.halted = false) {code : Byte} (hx : s.exitCode = some code) :
    step s = .fault (.exited code) := by
  simp [step, State.runStep, h, hx]

/-- In a running core each of the three kinds of step completes (R230, R240). -/
theorem step_completes {s : State} (hr : s.Running) : ∃ t, step s = .next t := by
  cases hn : s.nmiPending with
  | true => exact ⟨_, step_nmi hr hn⟩
  | false =>
    by_cases hi : s.irqPending = true ∧ getFlag .i s.p = false
    · obtain ⟨hirq, hclear⟩ := hi
      exact ⟨_, step_irq hr hn hirq hclear⟩
    · have hu : s.Uninterrupted := ⟨hn, by simpa [or_iff_not_imp_left] using hi⟩
      rw [step_instruction hr hu]
      exact exec_completes _ _

/-! ### Interrupt entry -/

/-- The bus accesses of an interrupt entry (R241, R242), with the two bytes the vector's locations return. -/
def entryAccesses (s : State) (vector : Addr) (lo hi : Byte) : List BusAccess :=
  [.write (stackLoc s.sp) (hiByte s.pc), .write (stackLoc (s.sp - 1)) (loByte s.pc),
    .write (stackLoc (s.sp - 2)) (interruptPush s.p), .read vector lo, .read (vector + 1) hi]

/-- The entry sequence as a step runs it for an interrupt, from an empty record of the bus: all that it leaves (R240). -/
theorem interruptEntry_state (s : State) {vector : Addr} (hlow : 0x200 ≤ vector.toNat) (hhigh : 0x200 ≤ (vector + 1).toNat) :
    let t := s.newEpoch.enter vector s.pc (interruptPush s.p)
    ∃ lo hi : Byte,
      t = { s with
        sp := s.sp - 3, p := t.p, pc := pair hi lo, mem := t.mem, exitCode := t.exitCode, epoch := t.epoch,
        bus := entryAccesses s vector lo hi } ∧
      Stores s t t.bus ∧
      (Quiet s.host t.bus → s.host.intercepts vector = false → lo = s.mem.peek vector.toNat) ∧
      (Quiet s.host t.bus → s.host.intercepts (vector + 1) = false → hi = s.mem.peek (vector + 1).toNat) ∧
      getFlag .i t.p = true ∧ KeepsFlags [.i] s.p t.p := by
  intro t
  obtain ⟨lo, hi, hframe, hstores, hlo, hhi, hflags⟩ := enter_state s.newEpoch s.pc (interruptPush s.p) hlow hhigh
  have hbus : t.bus = entryAccesses s vector lo hi := congrArg State.bus hframe
  have hepoch : t.epoch = s.epoch + 1 := congrArg State.epoch hframe
  rw [hbus, hepoch]
  exact ⟨lo, hi, hframe, hstores.congr rfl rfl rfl rfl rfl, hlo, hhi, hflags⟩

@[simp] theorem enter_irqPending (s : State) (vector ret : Addr) (status : Byte) :
    (s.enter vector ret status).irqPending = s.irqPending := by
  rw [← offBus_irqPending, offBus_enter]
  rfl

/-- NMI entry leaves the IRQ latch alone (R238). -/
theorem takeNmi_irqPending (s : State) : s.takeNmi.irqPending = s.irqPending := by
  rw [State.takeNmi, setNmi_irqPending, enter_irqPending]

/-! ### The accesses of an instruction step -/

/-- A fetch reads the opcode byte first, and whatever else it reads after it (R31, R102). -/
theorem fetch_bus (s : State) : ∃ rest, s.fetch.2.bus = s.bus ++ .read s.pc (s.busByte s.pc) :: rest := by
  unfold State.fetch
  simp only
  split
  · exact ⟨[], rfl⟩
  · exact ⟨[_], List.append_assoc _ _ _⟩
  · exact ⟨[_, _], (List.append_assoc _ _ _).trans (List.append_assoc _ _ _)⟩

/-- What a step executes only adds to the record of the bus. -/
theorem exec_fetch_bus {s t : State} (h : exec s.fetch.1 s.fetch.2 = .next t) : ∃ new, t.bus = s.fetch.2.bus ++ new := by
  obtain ⟨lo, hi, hdecoded⟩ := fetch_fst s
  obtain ⟨new, f, -⟩ := exec_makesAccesses (hdecoded ▸ wellFormed_decodeBytes (s.busByte s.pc) lo hi) h
  exact ⟨new, f.bus⟩

/-- The first access of a step that takes no interrupt is a read at PC (R111, R240). -/
theorem step_head_bus {s t : State} (hu : s.Uninterrupted) (h : step s = .next t) :
    t.bus.head? = some (.read s.pc (s.newEpoch.busByte s.pc)) := by
  obtain ⟨hr, -⟩ := step_cases h
  rw [step_instruction hr hu] at h
  obtain ⟨new, hnew⟩ := exec_fetch_bus h
  obtain ⟨rest, hrest⟩ := fetch_bus s.newEpoch
  rw [hnew, hrest]
  rfl

/-! ### The end of a run -/

theorem fetch_exitCode (s : State) : s.fetch.2.exitCode = s.exitCode := by
  rw [fetch_snd]

/-- ILLEGAL makes no access, so it ends no run by an exit (R221). -/
theorem exec_exitCode_of_illegal {i : Instr} {s t : State} (hi : i.op = .illegal) (h : exec i s = .next t) :
    t.exitCode = s.exitCode := by
  cases i with
  | illegal b => cases h; rfl
  | _ => nomatch hi

/-- A step does not both halt the core and end the run by an exit: only ILLEGAL halts. -/
theorem step_halted_of_exitCode {s t : State} (h : step s = .next t) {code : Byte} (hx : t.exitCode = some code) :
    t.halted = false := by
  obtain ⟨⟨hrun, hnone⟩, -⟩ := step_cases h
  by_cases hu : s.Uninterrupted
  · rw [step_instruction ⟨hrun, hnone⟩ hu] at h
    obtain ⟨-, -, -, -, hhalted⟩ := exec_latches h
    have hlegal : s.newEpoch.fetch.1.op ≠ .illegal := fun hi => by
      have hsame : t.exitCode = s.exitCode := (exec_exitCode_of_illegal hi h).trans (fetch_exitCode s.newEpoch)
      simp [hx, hnone] at hsame
    rw [hhalted, decide_eq_false hlegal, Bool.or_false, fetch_snd]
    exact hrun
  · exact step_halted_of_interrupted hu h

/-! ### The return from an interrupt -/

/-- The accesses of an entry on a plain stack, with no open action at the vector, meet no open action. -/
theorem quiet_entryAccesses {s : State} {vector : Addr} (hplain : ∀ q, s.host.intercepts (stackLoc q) = false)
    (hlow : s.host.isDevice vector = false) (hhigh : s.host.isDevice (vector + 1) = false) (lo hi : Byte) :
    Quiet s.host (entryAccesses s vector lo hi) := by
  simp only [entryAccesses, quiet_cons, BusAccess.addr, isDevice_plain (hplain _), hlow, hhigh, true_and]
  exact List.forall_mem_nil _

/-- The three bytes of an entry are in memory, each at its own location (R241, R242). -/
theorem peek_of_entry {s t : State} {vector : Addr} {lo hi : Byte} (h : Stores s t (entryAccesses s vector lo hi))
    (hplain : ∀ q, s.host.intercepts (stackLoc q) = false) (hlow : s.host.isDevice vector = false)
    (hhigh : s.host.isDevice (vector + 1) = false) :
    t.mem.peek (stackLoc s.sp).toNat = hiByte s.pc ∧ t.mem.peek (stackLoc (s.sp - 1)).toNat = loByte s.pc ∧
      t.mem.peek (stackLoc (s.sp - 2)).toNat = interruptPush s.p := by
  obtain ⟨-, hwritten, -⟩ := h (quiet_entryAccesses hplain hlow hhigh lo hi)
  have hne01 : stackLoc (s.sp - 1) ≠ stackLoc s.sp := stackAddr_ne (by bv_omega)
  have hne02 : stackLoc (s.sp - 2) ≠ stackLoc s.sp := stackAddr_ne (by bv_omega)
  have hne12 : stackLoc (s.sp - 2) ≠ stackLoc (s.sp - 1) := stackAddr_ne (by bv_omega)
  have holds {q v : Byte} (hl : lastWrite (stackLoc q) (entryAccesses s vector lo hi) = some v) :
      t.mem.peek (stackLoc q).toNat = v := (hwritten (stackLoc q) v hl).1 (hplain q)
  refine ⟨holds ?_, holds ?_, holds ?_⟩ <;>
    simp only [entryAccesses, lastWrite, hne01, hne02, hne12, ↓reduceIte]

/-- RTI on a plain stack takes the three bytes from memory, and leaves memory alone (R52, R220). -/
theorem exec_rti_plain {s : State} (hplain : ∀ q, s.host.intercepts (stackLoc q) = false) :
    ∃ bus, exec .rti s = .next { s with
      sp := s.sp + 3, bus := bus, p := s.mem.peek (stackLoc (s.sp + 1)).toNat
      pc := pair (s.mem.peek (stackLoc (s.sp + 3)).toNat) (s.mem.peek (stackLoc (s.sp + 2)).toNat) } := by
  have hread (q : Byte) (bus : List BusAccess) :
      (s.setBus bus).busRead (stackLoc q) = (s.mem.peek (stackLoc q).toNat, s.setBus (bus ++ [.read (stackLoc q) _])) :=
    busRead_plain (hplain q)
  have h := exec_rti s
  simp only [busRead_plain (hplain _), hread] at h
  exact ⟨_, h⟩

/-- RTI straight after an entry through any vector pulls what the entry has pushed (R246). -/
theorem exec_rti_after_entry {s t : State} {vector : Addr} {lo hi : Byte} (hsp : t.sp = s.sp - 3) (hhost : t.host = s.host)
    (h : Stores s t (entryAccesses s vector lo hi)) (hplain : ∀ q, s.host.intercepts (stackLoc q) = false)
    (hlow : s.host.isDevice vector = false) (hhigh : s.host.isDevice (vector + 1) = false) :
    ∃ u, exec .rti t = .next u ∧ u = { t with sp := s.sp, p := interruptPush s.p, pc := s.pc, bus := u.bus } := by
  obtain ⟨hpcHi, hpcLo, hp⟩ := peek_of_entry h hplain hlow hhigh
  obtain ⟨bus, hrti⟩ := exec_rti_plain (s := t) (hhost ▸ hplain)
  have hsp1 : t.sp + 1 = s.sp - 2 := by rw [hsp]; bv_omega
  have hsp2 : t.sp + 2 = s.sp - 1 := by rw [hsp]; bv_omega
  have hsp3 : t.sp + 3 = s.sp := by rw [hsp]; bv_omega
  rw [hsp1, hsp2, hsp3, hpcHi, hpcLo, hp, pair_hi_lo] at hrti
  exact ⟨_, hrti, rfl⟩

/-! ### The obligations -/

/-- Settles O8. -/
theorem stepStopsOnlyWhenTheRunIsOver : Obligations.StepStopsOnlyWhenTheRunIsOver :=
  fun _ => ⟨step_halted, fun h _ hx => step_exited h hx, step_completes⟩

/-- Settles O9: the entry sequence through the NMI vector, with the NMI latch cleared after it. -/
theorem nmiEntry : Obligations.NmiEntry := by
  intro s hr hn
  obtain ⟨lo, hi, hframe, hstores, hlo, hhi, hflags⟩ :=
    interruptEntry_state s (vector := nmiVector) (by decide) (by decide)
  exact ⟨_, lo, hi, step_nmi hr hn, congrArg (State.setNmi · false) hframe, hstores.congr rfl rfl rfl rfl rfl, hlo, hhi, hflags⟩

/-- Settles O10: the entry sequence through the IRQ vector, with the IRQ latch cleared after it. -/
theorem irqEntry : Obligations.IrqEntry := by
  intro s hr hn hirq hclear
  obtain ⟨lo, hi, hframe, hstores, hlo, hhi, hflags⟩ :=
    interruptEntry_state s (vector := irqVector) (by decide) (by decide)
  exact ⟨_, lo, hi, step_irq hr hn hirq hclear, congrArg (State.setIrq · false) hframe, hstores.congr rfl rfl rfl rfl rfl, hlo, hhi,
    hflags⟩

/-- Settles O11: no instruction writes the IRQ latch, and NMI entry does not either. -/
theorem maskedIrqStaysLatched : Obligations.MaskedIrqStaysLatched := by
  refine ⟨fun s t _ hn hirq hset h => ?_, fun s hr hn hirq hclear => ?_,
    fun s hr hn => ⟨_, step_nmi hr hn, rfl, takeNmi_irqPending s.newEpoch⟩, fun s => ?_, rfl⟩
  · have hu : s.Uninterrupted := ⟨hn, .inr hset⟩
    obtain ⟨-, hkept⟩ := step_keeps_requests hu h
    exact ⟨hkept.trans hirq, _, step_head_bus hu h⟩
  · obtain ⟨t, lo, hi, ht, hframe, -⟩ := irqEntry s hr hn hirq hclear
    refine ⟨t, ht, ?_⟩
    rw [hframe]
    exact ⟨rfl, hn, rfl⟩
  · obtain ⟨t, ht⟩ := exec_completes .brk s
    obtain ⟨hn, hq, -⟩ := exec_latches ht
    exact ⟨t, ht, hq, hn⟩

/-- Settles O19: the exit code is what the accesses of the step make of none. -/
theorem exitWriteEndsTheRun : Obligations.ExitWriteEndsTheRun := by
  intro s t h
  obtain ⟨⟨-, hnone⟩, -⟩ := step_cases h
  obtain ⟨f, -⟩ := step_follows h
  refine ⟨fun a v hw ha => Option.isSome_iff_exists.1 (f.exitSome a v hw ha), fun code hx => ?_, fun hq => ?_, fun code hx => ?_⟩
  · obtain hkept | ⟨a, v, hw, ha⟩ := f.exitOnly
    · have hsame : t.exitCode = s.exitCode := hkept
      simp [hx, hnone] at hsame
    · exact ⟨a, v, hw, ha.imp_right fun hd => beq_iff_eq.1 hd⟩
  · have hexit : t.exitCode = (lastExit s.host t.bus).or s.exitCode := f.exit hq
    rwa [hnone, Option.or_none] at hexit
  · have hhalted := step_halted_of_exitCode h hx
    exact ⟨hhalted, step_exited hhalted hx⟩

/-- A step with a request to take is the entry through one of the two vectors (R241, R242). -/
theorem step_interrupt {s : State} (hr : s.Running)
    (hrequest : s.nmiPending = true ∨ (s.irqPending = true ∧ getFlag .i s.p = false)) :
    ∃ vector ∈ [nmiVector, irqVector], ∃ t lo hi, step s = .next t ∧
      (t.a = s.a ∧ t.x = s.x ∧ t.y = s.y ∧ t.sp = s.sp - 3 ∧ t.host = s.host) ∧ Stores s t (entryAccesses s vector lo hi) := by
  cases hn : s.nmiPending with
  | true =>
    obtain ⟨t, lo, hi, ht, hframe, hstores, -⟩ := nmiEntry s hr hn
    have hbus : t.bus = entryAccesses s nmiVector lo hi := congrArg State.bus hframe
    refine ⟨nmiVector, by simp, t, lo, hi, ht, ?_, hbus ▸ hstores⟩
    rw [hframe]
    exact ⟨rfl, rfl, rfl, rfl, rfl⟩
  | false =>
    obtain ⟨hirq, hclear⟩ := hrequest.resolve_left (by simp [hn])
    obtain ⟨t, lo, hi, ht, hframe, hstores, -⟩ := irqEntry s hr hn hirq hclear
    have hbus : t.bus = entryAccesses s irqVector lo hi := congrArg State.bus hframe
    refine ⟨irqVector, by simp, t, lo, hi, ht, ?_, hbus ▸ hstores⟩
    rw [hframe]
    exact ⟨rfl, rfl, rfl, rfl, rfl⟩

/-- Settles O30: whichever vector the step went through, the three bytes RTI pulls are those the entry has pushed. -/
theorem rtiUndoesInterruptEntry : Obligations.RtiUndoesInterruptEntry := by
  intro s hr hrequest hplain hquiet
  obtain ⟨vector, hvector, t, lo, hi, ht, ⟨ha, hx, hy, hsp, hhost⟩, hstores⟩ := step_interrupt hr hrequest
  have hdevice : s.host.isDevice vector = false ∧ s.host.isDevice (vector + 1) = false := by
    simp only [List.mem_cons, List.not_mem_nil, or_false] at hvector
    obtain rfl | rfl := hvector <;> exact ⟨hquiet _ (by decide), hquiet _ (by decide)⟩
  obtain ⟨hlow, hhigh⟩ := hdevice
  obtain ⟨u, hu, hframe⟩ := exec_rti_after_entry hsp hhost hstores hplain hlow hhigh
  refine ⟨t, u, ht, hu, ?_⟩
  rw [hframe]
  exact ⟨rfl, rfl, rfl, ha, hx, hy, rfl⟩

/-- Settles O60: a step that does not take the IRQ is an NMI entry or an instruction, and neither writes the IRQ latch. -/
theorem raisedRequestsAreLatchedOnce : Obligations.RaisedRequestsAreLatchedOnce := by
  refine ⟨fun s => ⟨rfl, rfl, rfl, rfl, rfl⟩, fun s t hirq h => ?_⟩
  obtain ⟨-, ⟨-, rfl⟩ | ⟨hn, -, hclear, -⟩ | ⟨hu, -⟩⟩ := step_cases h
  · exact .inl ((takeNmi_irqPending s.newEpoch).trans hirq)
  · exact .inr ⟨hn, hclear⟩
  · exact .inl ((step_keeps_requests hu h).2.trans hirq)

end Sys2Proof.Machine
end

section
/-! PROOFS. The family of `70_reset_and_hazards.md`: what reset leaves of any state (O58), and that `State.reset` is one such state
(O59). -/

namespace Sys2Proof.Machine

/-! ### The reset event -/

/-- All that reset leaves: the table's values and, by the two reads of the vector, PC, memory and the record of the bus (R270). -/
theorem resetEvent_eq (s : State) :
    let lo := s.newEpoch.busRead resetVector
    let hi := lo.2.busRead (resetVector + 1)
    s.resetEvent = {
      a := 0x00, x := 0x00, y := 0x00, sp := resetSP, p := resetP, pc := pair hi.1 lo.1, halted := false, nmiPending := false,
      irqPending := false, mem := hi.2.mem, host := s.host, exitCode := none, epoch := s.epoch + 1,
      bus := [.read resetVector lo.1, .read (resetVector + 1) hi.1] } := by
  simp only [State.resetEvent, busRead16_eq]
  rfl

/-- At a vector in plain memory the second read returns memory's byte too, and memory is kept (R52, R70). -/
theorem resetReads_plain {s : State} (hlow : s.host.intercepts resetVector = false)
    (hhigh : s.host.intercepts (resetVector + 1) = false) :
    let hi := (s.newEpoch.busRead resetVector).2.busRead (resetVector + 1)
    hi.1 = s.mem.peek (resetVector + 1).toNat ∧ hi.2.mem = s.mem := by
  have hfirst : s.newEpoch.busRead resetVector = (_, s.newEpoch.setBus _) := busRead_plain hlow
  have hsecond (bus : List BusAccess) : (s.newEpoch.setBus bus).busRead (resetVector + 1) = _ := busRead_plain hhigh
  rw [hfirst, hsecond]
  exact ⟨rfl, rfl⟩

/-- I, B and U are the flags that reset sets (R40). -/
theorem getFlag_resetP (f : Flag) : getFlag f resetP = true ↔ f ∈ [Flag.i, .b, .u] := by
  cases f <;> decide

/-! ### The obligations -/

/-- Settles O58: the values are those of every reset, and at a plain vector the reads are memory's. -/
theorem resetLeavesTheTablesValues : Obligations.ResetLeavesTheTablesValues := fun s =>
  ⟨_, _, _, rfl, resetEvent_eq s, busByte_plain (s := s.newEpoch), resetReads_plain⟩

/-- Settles O59: the source's map leaves the vector plain, and the empty memory holds the unlisted byte there. -/
theorem resetStateIsTheResetEvents : Obligations.ResetStateIsTheResetEvents := by
  refine ⟨fun s hmem hhost => ?_, fun s => ⟨rfl, rfl⟩, getFlag_resetP, ⟨rfl, rfl⟩, rfl, .inl rfl⟩
  obtain ⟨t, lo, hi, ht, hframe, hlo, hhi⟩ := resetLeavesTheTablesValues s
  obtain ⟨hlow, hhigh⟩ : s.host.intercepts 0xFFFC = false ∧ s.host.intercepts 0xFFFD = false := by rw [hhost]; decide
  obtain ⟨hhi, hkept⟩ := hhi hlow hhigh
  have hexit : t.exitCode = none := ht ▸ rfl
  have hepoch : t.epoch = s.epoch + 1 := ht ▸ rfl
  rw [ht, hframe, hlo hlow, hhi, hkept, hexit, hepoch, hmem, hhost]
  rfl

end Sys2Proof.Machine
end
